-- ==== Sys2Proof/Word.lean ====
section
/-! DEFINITION. The word types of the engine: bytes, 32-bit operand words, 64-bit command words and response fields. -/

namespace Sys2Proof

/-- An element of `M` and `P`, and a byte of a stream (00_scope R6). -/
abbrev Byte := BitVec 8

/-- A hash word (00_scope R5): every shift of `ADD` is computed on this width. -/
abbrev Word32 := BitVec 32

/-- A command word (30_encoding R50) or a response field (10_state R17). -/
abbrev Word64 := BitVec 64

/-- The 64-bit pattern of a binary64 value (00_scope section 6, `bits64`). -/
abbrev F64 := BitVec 64

end Sys2Proof
end

