-- ==== Sys2Proof/Syntax.lean ====
section
/-! DEFINITION. The commands of the engine, one constructor per row of spec/opcode_table.json (30_encoding R52, R53). Slot ids,
precisions, indices, bit positions and thresholds are numbers; the hash is a word, since `ADD` shifts it. -/

namespace Sys2Proof

/-- The array select of `COUNTER` and the protect flag of `ESTIMATE` (30_encoding R52): `imm8[0]`. -/
inductive ArraySel where
  | registers           -- sel = 0: `M[a]`
  | protectedRegisters  -- sel = 1: `P[a]`, the `.P` forms
  deriving DecidableEq, Repr

/-- One command (30_encoding R52: the operands of each; R53: its row). -/
inductive Instr where
  /-- `CREATE a, precision` (40_register_store R71). -/
  | create (a precision : Nat)
  /-- `DESTROY a` (R72). -/
  | destroy (a : Nat)
  /-- `CLEAR a` (R73). -/
  | clear (a : Nat)
  /-- `REGCOUNT a` (R74). -/
  | regcount (a : Nat)
  /-- `COUNTER a, index` and `COUNTER.P a, index` (R75). -/
  | counter (a : Nat) (sel : ArraySel) (index : Nat)
  /-- `FLIPBIT a, index, bit` (R76). -/
  | flipbit (a index bit : Nat)
  /-- `ADD a, hash` (41_add R95). -/
  | add (a : Nat) (hash : Word32)
  /-- `ESTIMATE a` and `ESTIMATE.P a` (42_estimate R100). -/
  | estimate (a : Nat) (sel : ArraySel)
  /-- `PROTECT a, threshold` (43_protect R120). -/
  | protect (a threshold : Nat)
  /-- `MERGE a, b` (44_merge R130). -/
  | merge (a b : Nat)
  /-- `DUMP a` (45_persistence R141). -/
  | dump (a : Nat)
  /-- `RESTORE a` (45_persistence R143). -/
  | restore (a : Nat)
  deriving DecidableEq, Repr

end Sys2Proof
end

