-- ==== Sys2Proof/WellFormed.lean ====
section
/-! DEFINITION. Which commands the encoding can express (30_encoding R51, R52): every operand fits its field. Nothing else is a
matter of form: a slot id that names nothing, a precision outside [4,30] and an index beyond the array are well formed and are
answered by an error status (R58). -/

namespace Sys2Proof

/-- A slot id fits the 4-bit field `a` or `b`. -/
def slotIdOk (a : Nat) : Bool := decide (a < 2 ^ 4)

/-- A precision fits the 8-bit field `imm8`. -/
def precisionOk (p : Nat) : Bool := decide (p < 2 ^ 8)

/-- A bit position fits `imm8[2:0]`. -/
def bitPositionOk (bit : Nat) : Bool := decide (bit < 2 ^ 3)

/-- An index or a threshold fits the 32-bit field `imm32`. -/
def imm32Ok (n : Nat) : Bool := decide (n < 2 ^ 32)

/-- Every operand of the command fits the field that 30_encoding R52 gives it. -/
def WellFormed : Instr → Bool
  | .create a precision => slotIdOk a && precisionOk precision
  | .destroy a => slotIdOk a
  | .clear a => slotIdOk a
  | .regcount a => slotIdOk a
  | .counter a _ index => slotIdOk a && imm32Ok index
  | .flipbit a index bit => slotIdOk a && imm32Ok index && bitPositionOk bit
  | .add a _ => slotIdOk a
  | .estimate a _ => slotIdOk a
  | .protect a threshold => slotIdOk a && imm32Ok threshold
  | .merge a b => slotIdOk a && slotIdOk b
  | .dump a => slotIdOk a
  | .restore a => slotIdOk a

end Sys2Proof
end

