-- ==== Sys2Proof/Decode.lean ====
section
/-! DEFINITION. The command word (30_encoding R51), the opcode map with its match and mask (R53), the total decoder that rejects
by name (R54, R55, R58), the encoder, and the little-endian byte order of a word carried over a byte bus (20_memory R33). -/

namespace Sys2Proof

/-- Why a word is illegal. Both reasons end in the status `IllegalCommand`. -/
inductive DecodeError where
  | reservedOpcode  -- the opcode byte is none of the twelve (30_encoding R55)
  | mustBeZero      -- a must-be-zero bit of the command is set (R54)
  | truncated       -- fewer than eight bytes were given to `decodeBytes`; no 64-bit word can raise it
  deriving DecidableEq, Repr

/-- The twelve opcodes (30_encoding R53). -/
inductive Opcode where
  | create | destroy | clear | regcount | counter | flipbit | add | estimate | protect | merge | dump | restore
  deriving DecidableEq, Repr

/-- The fields of the format `CMD` (30_encoding R51), from bit 63 down. -/
def packWord (opcode : BitVec 8) (a b : BitVec 4) (imm8 rsvd : BitVec 8) (imm32 : BitVec 32) : Word64 :=
  opcode ++ (a ++ (b ++ (imm8 ++ (rsvd ++ imm32))))

/-- `opcode`, bits 63:56. -/
def fieldOpcode (w : Word64) : BitVec 8 := w.extractLsb' 56 8

/-- `a`, bits 55:52. -/
def fieldA (w : Word64) : BitVec 4 := w.extractLsb' 52 4

/-- `b`, bits 51:48. -/
def fieldB (w : Word64) : BitVec 4 := w.extractLsb' 48 4

/-- `imm8`, bits 47:40. -/
def fieldImm8 (w : Word64) : BitVec 8 := w.extractLsb' 40 8

/-- `imm32`, bits 31:0. -/
def fieldImm32 (w : Word64) : BitVec 32 := w.extractLsb' 0 32

/-- The opcode byte of each command (30_encoding R53). -/
def Opcode.byte : Opcode → BitVec 8
  | .create => 0x01#8
  | .destroy => 0x02#8
  | .clear => 0x03#8
  | .regcount => 0x04#8
  | .counter => 0x05#8
  | .flipbit => 0x06#8
  | .add => 0x10#8
  | .estimate => 0x20#8
  | .protect => 0x30#8
  | .merge => 0x40#8
  | .dump => 0x50#8
  | .restore => 0x51#8

/-- The column "match" of 30_encoding R53. -/
def Opcode.pattern : Opcode → Word64
  | .create => 0x0100000000000000#64
  | .destroy => 0x0200000000000000#64
  | .clear => 0x0300000000000000#64
  | .regcount => 0x0400000000000000#64
  | .counter => 0x0500000000000000#64
  | .flipbit => 0x0600000000000000#64
  | .add => 0x1000000000000000#64
  | .estimate => 0x2000000000000000#64
  | .protect => 0x3000000000000000#64
  | .merge => 0x4000000000000000#64
  | .dump => 0x5000000000000000#64
  | .restore => 0x5100000000000000#64

/-- The column "mask" of 30_encoding R53: the opcode and every must-be-zero bit. -/
def Opcode.mask : Opcode → Word64
  | .create => 0xFF0F00FFFFFFFFFF#64
  | .destroy => 0xFF0FFFFFFFFFFFFF#64
  | .clear => 0xFF0FFFFFFFFFFFFF#64
  | .regcount => 0xFF0FFFFFFFFFFFFF#64
  | .counter => 0xFF0FFEFF00000000#64
  | .flipbit => 0xFF0FF8FF00000000#64
  | .add => 0xFF0FFFFF00000000#64
  | .estimate => 0xFF0FFEFFFFFFFFFF#64
  | .protect => 0xFF0FFFFF00000000#64
  | .merge => 0xFF00FFFFFFFFFFFF#64
  | .dump => 0xFF0FFFFFFFFFFFFF#64
  | .restore => 0xFF0FFFFFFFFFFFFF#64

/-- The twelve rows of the opcode map, in the table's order. -/
def Opcode.all : List Opcode :=
  [.create, .destroy, .clear, .regcount, .counter, .flipbit, .add, .estimate, .protect, .merge, .dump, .restore]

/-- The opcode a byte stands for; every other byte is reserved (30_encoding R55). -/
def opcodeOf (b : BitVec 8) : Option Opcode := Opcode.all.find? (fun op => op.byte == b)

/-- `sel = imm8[0]` (30_encoding R52). -/
def selOf (imm8 : BitVec 8) : ArraySel := if imm8.getLsbD 0 then .protectedRegisters else .registers

/-- `imm8` of a select. -/
def selBits : ArraySel → BitVec 8
  | .registers => 0#8
  | .protectedRegisters => 1#8

/-- The operands of a command, taken from its fields (30_encoding R52). -/
def operandsOf (w : Word64) : Opcode → Instr
  | .create => .create (fieldA w).toNat (fieldImm8 w).toNat
  | .destroy => .destroy (fieldA w).toNat
  | .clear => .clear (fieldA w).toNat
  | .regcount => .regcount (fieldA w).toNat
  | .counter => .counter (fieldA w).toNat (selOf (fieldImm8 w)) (fieldImm32 w).toNat
  | .flipbit => .flipbit (fieldA w).toNat (fieldImm32 w).toNat ((fieldImm8 w).extractLsb' 0 3).toNat
  | .add => .add (fieldA w).toNat (fieldImm32 w)
  | .estimate => .estimate (fieldA w).toNat (selOf (fieldImm8 w))
  | .protect => .protect (fieldA w).toNat (fieldImm32 w).toNat
  | .merge => .merge (fieldA w).toNat (fieldB w).toNat
  | .dump => .dump (fieldA w).toNat
  | .restore => .restore (fieldA w).toNat

/-- The total decoder (30_encoding R58): a word is a command exactly when its opcode byte is one of the twelve and
`(w & mask) == match` for that row; otherwise it is illegal by R55 or R54. -/
def decode (w : Word64) : Except DecodeError Instr :=
  match opcodeOf (fieldOpcode w) with
  | none => .error .reservedOpcode
  | some op => if w &&& op.mask = op.pattern then .ok (operandsOf w op) else .error .mustBeZero

/-- The opcode of a command. -/
def Instr.opcode : Instr → Opcode
  | .create _ _ => .create
  | .destroy _ => .destroy
  | .clear _ => .clear
  | .regcount _ => .regcount
  | .counter _ _ _ => .counter
  | .flipbit _ _ _ => .flipbit
  | .add _ _ => .add
  | .estimate _ _ => .estimate
  | .protect _ _ => .protect
  | .merge _ _ => .merge
  | .dump _ => .dump
  | .restore _ => .restore

/-- The word of a command with the given fields; `rsvd` is zero in every command (30_encoding R54). -/
def commandWord (op : Opcode) (a b : Nat) (imm8 : BitVec 8) (imm32 : BitVec 32) : Word64 :=
  packWord op.byte (BitVec.ofNat 4 a) (BitVec.ofNat 4 b) imm8 0#8 imm32

/-- The word of a command, written from the field table of 30_encoding R52: unused fields are zero. -/
def encode : Instr → Word64
  | .create a precision => commandWord .create a 0 (BitVec.ofNat 8 precision) 0#32
  | .destroy a => commandWord .destroy a 0 0#8 0#32
  | .clear a => commandWord .clear a 0 0#8 0#32
  | .regcount a => commandWord .regcount a 0 0#8 0#32
  | .counter a sel index => commandWord .counter a 0 (selBits sel) (BitVec.ofNat 32 index)
  | .flipbit a index bit => commandWord .flipbit a 0 (BitVec.ofNat 8 bit) (BitVec.ofNat 32 index)
  | .add a hash => commandWord .add a 0 0#8 hash
  | .estimate a sel => commandWord .estimate a 0 (selBits sel) 0#32
  | .protect a threshold => commandWord .protect a 0 0#8 (BitVec.ofNat 32 threshold)
  | .merge a b => commandWord .merge a b 0#8 0#32
  | .dump a => commandWord .dump a 0 0#8 0#32
  | .restore a => commandWord .restore a 0 0#8 0#32

/-- The bytes of an n-byte vector carried over a byte-addressed bus, bits 7:0 first (20_memory R33). -/
def bytesLE : (n : Nat) → Nat → List Byte
  | 0, _ => []
  | n + 1, v => BitVec.ofNat 8 v :: bytesLE n (v / 256)

/-- The number that bytes stand for, the first byte least significant (20_memory R33). -/
def ofBytesLE : List Byte → Nat
  | [] => 0
  | b :: bs => b.toNat + 256 * ofBytesLE bs

/-- The eight bytes of a command word on a byte-addressed bus (20_memory R33). -/
def wordBytes (w : Word64) : List Byte := bytesLE 8 w.toNat

/-- Decoding from bytes: the first eight form the word, little-endian (20_memory R33); the rest is handed back. -/
def decodeBytes (bs : List Byte) : Except DecodeError (Instr × List Byte) :=
  if bs.length < 8 then .error .truncated
  else
    match decode (BitVec.ofNat 64 (ofBytesLE (bs.take 8))) with
    | .ok i => .ok (i, bs.drop 8)
    | .error e => .error e

/-- The word that holds the `nbits` bits `w`, every bit above them zero. -/
def tableWord (nbits w : Nat) : Word64 := BitVec.ofNat 64 (w % 2 ^ nbits)

/-- What the decoder reads from a command whose bits are `w`, numbered as spec/opcode_table.json numbers them. A command is one
64-bit word, so bit k of `w` is bit k of the word. -/
def decodeTableWord (nbits w : Nat) : Option Instr :=
  match decode (tableWord nbits w) with
  | .ok i => some i
  | .error _ => none

end Sys2Proof
end

