-- ==== Sys2Proof/Config.lean ====
section
/-! DEFINITION. What an implementation fixes (00_scope R7, R8) and the model's free values. The parameters that are plain
data (N_INST, MERGE_OP, ALPHAMM) are carried by State in read-only fields, so that statements hold for every value; the values
`State.reset` takes for them stand here and in Machine/Alpha.lean. -/

namespace Sys2Proof

/-- `MERGE_OP` (00_scope R8, 44_merge R132): how `MERGE` combines two registers. -/
inductive MergeOp where
  | max        -- MAX, the spec's normative default
  | orIfLess   -- OR_IF_LESS, the alternative configuration value
  deriving DecidableEq, Repr

/-- `N_INST` of `State.reset`: the spec's example value (00_scope R7). DESIGN CHOICE, log entry 2. -/
def Config.nInst : Nat := 2

/-- `MERGE_OP` of `State.reset`: the spec's normative default (44_merge R132). -/
def Config.mergeOp : MergeOp := .max

/-- FREE VALUE, log entry 3. For an operand x of `LN` in the range of L4 (42_estimate R105), which of the two binary64
values that bracket the real number ln x the engine's `LN` gives: true, the upper one; false, the lower one. -/
opaque Config.lnRoundsUp : F64 → Bool

/-- FREE VALUE, log entry 11. The hash collaborator `hash32(bytes, length, seed)` (00_scope R8, 41_add R90): outside the
engine, used only by the host-side pseudo-command `ADDELEM`. -/
opaque Config.hash32 : List Byte → Nat → Word32 → Word32

/-- FREE VALUE, log entry 11. `HASH_SEED` (00_scope R8). -/
opaque Config.hashSeed : Word32

end Sys2Proof
end

