-- ==== Sys2Proof/Machine/Alpha.lean ====
section
/-! DEFINITION. The default table of `ALPHAMM` (42_estimate R103): the binary64 pattern for each precision 4 to 30. -/

namespace Sys2Proof.Machine

/-- `ALPHAMM(p)` for p = 4, ..., 30, in that order: the last column of the table of 42_estimate R103, which the spec marks as
general knowledge (log entry 6). -/
def defaultAlphaTable : List F64 :=
  [0x406589374BC6A7F0#64, 0x40864DD2F1A9FBE7#64, 0x40A6B020C49BA5E3#64, 0x40C6E37EF20B947A#64, 0x40E6FC16CE33D64D#64,
   0x41070876987DC1B0#64, 0x41270EAB7E0DB3E2#64, 0x414711C7321E7B57#64, 0x416713555C9EFABF#64] ++
  [0x4187141C860200C7#64, 0x41A714801FBCCD72#64, 0x41C714B1EDDC9938#64, 0x41E714CAD53D1AD7#64, 0x420714D7490182E2#64,
   0x422714DD82E8C0BE#64, 0x424714E09FDDA225#64, 0x426714E22E586377#64, 0x428714E2F595D847#64] ++
  [0x42A714E3593497B8#64, 0x42C714E38B03F8B4#64, 0x42E714E3A3EBA982#64, 0x430714E3B05F81FD#64, 0x432714E3B6996E40#64,
   0x434714E3B9B66463#64, 0x436714E3BB44DF74#64, 0x438714E3BC0C1CFD#64, 0x43A714E3BC6FBBC2#64]

/-- `ALPHAMM(p)` of a table (00_scope R8): its entry for precision p. Only p in [4,30] is ever asked for. -/
def alphaOf (table : List F64) (p : Nat) : F64 := table.getD (p - 4) 0#64

end Sys2Proof.Machine
end

