-- ==== Sys2Proof/Machine/State.lean ====
section
/-! DEFINITION. The state of the engine (10_state R10 to R17), its configuration, the environment's inputs and output as plain
data, the reasons a step can stop, and the state after reset (70_reset_and_hazards R190). -/

namespace Sys2Proof.Machine

/-- One register array (10_state R15, R16) in canonical form: (index, byte) pairs, indices strictly rising, no zero byte listed.
An index that is not listed reads 0, the value `CREATE`, `CLEAR` and `RESTORE` give to a whole array. -/
abbrev Memory := List Host.Cell

/-- How a stream behaves once it delivers or accepts no further byte (20_memory R38 to R40). -/
inductive StreamEnding where
  | fails       -- it answers FAIL, and keeps answering FAIL
  | unanswered  -- it neither answers nor fails: the command never completes
  deriving DecidableEq, Repr

/-- The byte source as a `RESTORE` finds it (20_memory R38): the bytes it will deliver, the next one first. -/
structure Source where
  bytes : List Byte
  ending : StreamEnding
  deriving DecidableEq, Repr

/-- The byte sink as a `DUMP` finds it (20_memory R39): how many bytes one `DUMP` may write, `none` for no limit. -/
structure SinkPlan where
  accept : Option Nat
  ending : StreamEnding
  deriving DecidableEq, Repr

/-- What the host does next between two commands (00_scope R3). -/
inductive HostAction where
  | command (w : Word64)          -- present a word at the command port (30_encoding R50)
  | bindSource (src : Source)     -- connect the byte source (70_reset_and_hazards R193 (d))
  | bindSink (plan : SinkPlan)    -- connect the byte sink (R193 (d))
  | reset                         -- reset the engine between commands (R190)
  deriving DecidableEq, Repr

/-- One slot (10_state R10 to R16). `m` is not stored (R13). -/
structure Slot where
  valid : Bool
  prec : Nat
  alphaMM : F64
  M : Memory
  P : Memory
  deriving DecidableEq, Repr

/-- The response registers `RSP` (10_state R17). -/
structure Response where
  status : BitVec 8
  value : Word64
  aux : Word64
  deriving DecidableEq, Repr

/-- The machine: the architectural state `slots` and `rsp` (10_state R10), the configuration `mergeOp` and `alphaTable` (and
N_INST, the number of slots), which no step changes (R26; log entry 2), and the environment's inputs and output (R26; log
entries 4 and 5). -/
structure State where
  slots : List Slot
  rsp : Response
  mergeOp : MergeOp
  alphaTable : List F64
  pending : List HostAction
  source : Source
  sinkPlan : SinkPlan
  sinkOut : List Byte
  deriving DecidableEq, Repr

/-- The reasons the machine itself stops: the stuck states of 20_memory R40 and 45_persistence R148, where a stream is asked and
neither answers nor fails. An error status is no fault (60_exceptions R168). -/
inductive Fault where
  /-- Raised by `RESTORE` when the byte source never answers. The engine waits for ever. Safe: the spec lets nothing follow. -/
  | sourceUnanswered
  /-- Raised by `DUMP` when the byte sink never answers. The engine waits for ever. Safe: the spec lets nothing follow. -/
  | sinkUnanswered
  deriving DecidableEq, Repr

/-- The reasons the model refuses an instruction. Every row of the table has its meaning, so no step raises one. -/
inductive Refusal where
  /-- An instruction the model gives no meaning, raised only by an arm of `exec`. Safe: nothing can be proved of it. -/
  | notModelled (mnemonic : String)
  deriving DecidableEq, Repr

/-- What a command or a step answers. -/
abbrev Result := Host.Outcome State Fault Refusal

/-- A slot after reset (70_reset_and_hazards R190): not valid. The other fields are unspecified and unobservable there; the
zeros are the model's (DESIGN CHOICE, log entry 1). -/
def Slot.reset : Slot :=
  { valid := false, prec := 0, alphaMM := 0#64, M := [], P := [] }

/-- `RSP` after reset (R190). -/
def Response.reset : Response :=
  { status := 0#8, value := 0#64, aux := 0#64 }

/-- The engine after reset for given parameters (R190), with nothing presented by the host, an empty source that fails and a sink
that accepts every byte (log entries 4 and 5). -/
def State.resetFor (nInst : Nat) (mergeOp : MergeOp) (alphaTable : List F64) : State :=
  { slots := List.replicate nInst Slot.reset
    rsp := Response.reset
    mergeOp := mergeOp
    alphaTable := alphaTable
    pending := []
    source := { bytes := [], ending := .fails }
    sinkPlan := { accept := none, ending := .fails }
    sinkOut := [] }

/-- The machine right after reset with the default parameters (R190; 00_scope R7, R8). -/
def State.reset : State := State.resetFor Config.nInst Config.mergeOp defaultAlphaTable

end Sys2Proof.Machine
end

