-- ==== Sys2Proof/Machine/Flags.lean ====
section
/-! DEFINITION. The only flags of the engine: the status codes of `RSP.status` (10_state R24, 60_exceptions R160) and the one
operation that writes `RSP` (30_encoding R56). There are no carry, zero or floating-point flags. -/

namespace Sys2Proof.Machine

/-- The outcomes of a command (60_exceptions R160). -/
inductive Status where
  | ok
  | invalidArgument
  | sizeMismatch
  | ioError
  | indexOutOfRange
  | illegalCommand
  | noInstance
  deriving DecidableEq, Repr

/-- The 8-bit code of a status (60_exceptions R160). -/
def Status.code : Status → BitVec 8
  | .ok => 0x00#8
  | .invalidArgument => 0x01#8
  | .sizeMismatch => 0x02#8
  | .ioError => 0x03#8
  | .indexOutOfRange => 0x04#8
  | .illegalCommand => 0x05#8
  | .noInstance => 0x06#8

/-- Every command ends by writing all three fields of `RSP` (10_state R17, 30_encoding R56). -/
def State.setRsp (s : State) (status : Status) (value aux : Word64) : State :=
  { s with rsp := { status := status.code, value := value, aux := aux } }

end Sys2Proof.Machine
end

