-- ==== Sys2Proof/Machine/Memory.lean ====
section
/-! DEFINITION. The named operations on one register array: read an element, write an element, build an array from bytes, list
its elements in ascending index (20_memory R31, R35, R45), and what the canonical form of an array is. -/

namespace Sys2Proof.Machine

/-- `A[i]` (20_memory R31): the listed byte, or 0 where nothing is listed. -/
def Memory.read : Memory → Nat → Byte
  | [], _ => 0#8
  | (k, v) :: rest, i => if k = i then v else Memory.read rest i

/-- Put a cell in front of the first cell of larger index. -/
def Memory.insert : Memory → Nat → Byte → Memory
  | [], i, v => [(i, v)]
  | (k, w) :: rest, i, v => if i < k then (i, v) :: (k, w) :: rest else (k, w) :: Memory.insert rest i v

/-- Take every cell of an index out. -/
def Memory.erase (A : Memory) (i : Nat) : Memory := A.filter (fun c => c.1 != i)

/-- `A[i] <- v` (20_memory R35): one whole element. Writing 0 removes the entry, so that equal arrays are equal data. -/
def Memory.write (A : Memory) (i : Nat) (v : Byte) : Memory :=
  if v = 0#8 then A.erase i else (A.erase i).insert i v

/-- The array whose elements from index i on are the given bytes. -/
def Memory.ofBytes : Nat → List Byte → Memory
  | _, [] => []
  | i, v :: vs => if v = 0#8 then Memory.ofBytes (i + 1) vs else (i, v) :: Memory.ofBytes (i + 1) vs

/-- The n elements from index i on, ascending. -/
def Memory.elements (A : Memory) : (n i : Nat) → List Byte
  | 0, _ => []
  | n + 1, i => A.read i :: Memory.elements A n (i + 1)

/-- The canonical form: indices strictly rising, no entry equal to what an unlisted index reads as. -/
abbrev Memory.wf (A : Memory) : Prop := A.Pairwise (fun c d => c.1 < d.1) ∧ ∀ c ∈ A, c.2 ≠ 0#8

/-- Every listed index lies below n: the array has exactly n elements (10_state R18 (I-b)). -/
abbrev Memory.below (A : Memory) (n : Nat) : Prop := ∀ c ∈ A, c.1 < n

end Sys2Proof.Machine
end

