-- ==== Sys2Proof/Machine/Ops.lean ====
section
/-! DEFINITION. The operations the commands share: ending a command (with success or with an error), writing a slot, the register
count, reset between commands, and the two stream primitives. There is no return from an error (60_exceptions R165): the engine
is idle again as soon as the error's response is written, so ending with an error is the whole of taking an exception (R164). -/

namespace Sys2Proof.Machine

/-- `respond(value, aux)` (30_encoding R56): the command ends with status `OK`. -/
def respond (value aux : Word64) (s : State) : Result := .next (s.setRsp .ok value aux)

/-- `raise E(value, aux)` (30_encoding R56, 60_exceptions R164): the command ends with the error's status; no slot changes, nothing
is saved, no mode changes, and the next command word is taken as usual. -/
def raise (error : Status) (value aux : Word64) (s : State) : Result := .next (s.setRsp error value aux)

/-- Write slot a. -/
def State.setSlot (s : State) (a : Nat) (x : Slot) : State := { s with slots := s.slots.set a x }

/-- `N_INST` (00_scope R7): the number of slots. -/
def State.nInst (s : State) : Nat := s.slots.length

/-- `m = 1 << prec` (10_state R13). -/
def Slot.m (x : Slot) : Nat := 2 ^ x.prec

/-- `ALPHAMM(p)` of this engine (42_estimate R103). -/
def State.alphamm (s : State) (p : Nat) : F64 := alphaOf s.alphaTable p

/-- A fresh instance of precision p (40_register_store R71): both arrays all zero. -/
def State.freshSlot (s : State) (p : Nat) : Slot :=
  { valid := true, prec := p, alphaMM := s.alphamm p, M := [], P := [] }

/-- Reset between commands (70_reset_and_hazards R190): no slot valid, `RSP` zero, the configuration as it was; the environment is
no part of the engine and stays. -/
def State.resetEngine (s : State) : State :=
  { s with slots := List.replicate s.slots.length Slot.reset, rsp := Response.reset }

/-- The source with its next n bytes taken; they are not pushed back (20_memory R38). -/
def State.consume (s : State) (n : Nat) : State :=
  { s with source := { bytes := s.source.bytes.drop n, ending := s.source.ending } }

/-- The bytes appended to the sink's output; they are never taken back (20_memory R39). -/
def State.emit (s : State) (bs : List Byte) : State := { s with sinkOut := s.sinkOut ++ bs }

/-- What `SrcRead()` answers (20_memory R38, R40). -/
inductive SrcAnswer where
  | byte (v : Byte) (s : State)  -- the next byte, taken from the source
  | fail                         -- FAIL
  | never                        -- no answer
  deriving DecidableEq, Repr

/-- `SrcRead()` (20_memory R38): take the next byte of the source; on the empty list, what the source then does. -/
def srcRead (s : State) : SrcAnswer :=
  match s.source.bytes with
  | v :: _ => .byte v (s.consume 1)
  | [] =>
    match s.source.ending with
    | .fails => .fail
    | .unanswered => .never

/-- What `SinkWrite(v)` answers (20_memory R39, R40). -/
inductive SinkAnswer where
  | ok (s : State)  -- the byte is appended to the sink's output
  | fail            -- FAIL, nothing appended
  | never           -- no answer
  deriving DecidableEq, Repr

/-- Whether the sink takes one more byte after n bytes of this command (20_memory R39). -/
def SinkPlan.takes (plan : SinkPlan) (n : Nat) : Bool :=
  match plan.accept with
  | none => true
  | some k => decide (n < k)

/-- `SinkWrite(v)` when this command has written n bytes (20_memory R39). -/
def sinkWrite (v : Byte) (n : Nat) (s : State) : SinkAnswer :=
  if s.sinkPlan.takes n then .ok (s.emit [v])
  else
    match s.sinkPlan.ending with
    | .fails => .fail
    | .unanswered => .never

end Sys2Proof.Machine
end

