-- ==== Sys2Proof/Machine/Operands.lean ====
section
/-! DEFINITION. How a command finds what it acts on: the slot check (40_register_store R70), the array an `ArraySel` names
(42_estimate R101), and the index and rank a hash selects (41_add R91 to R97). -/

namespace Sys2Proof.Machine

/-- The instance in slot a, if a names a slot and the slot holds one (40_register_store R70). -/
def State.live (s : State) (a : Nat) : Option Slot :=
  match s.slots[a]? with
  | some x => if x.valid then some x else none
  | none => none

/-- `check_slot(a)` (40_register_store R70): go on with the instance in slot a, or end with `NoInstance`. -/
def checkSlot (a : Nat) (s : State) (body : Slot → Result) : Result :=
  match s.live a with
  | some x => body x
  | none => raise .noInstance 0#64 0#64 s

/-- `check_slot_id(a)`, the check of `CREATE` (40_register_store R70): the slot id alone. -/
def checkSlotId (a : Nat) (s : State) (body : Result) : Result :=
  if a < s.nInst then body else raise .noInstance 0#64 0#64 s

/-- The array that `sel` names (40_register_store R75, 42_estimate R101). -/
def Slot.array (x : Slot) : ArraySel → Memory
  | .registers => x.M
  | .protectedRegisters => x.P

/-- A precision that `CREATE` and `RESTORE` accept (00_scope R4). -/
def validPrecision (p : Nat) : Bool := decide (4 ≤ p) && decide (p ≤ 30)

/-- `idx = hash >> (32 - p)` (41_add R91): a logical shift of the 32-bit word. -/
def hashIndex (p : Nat) (hash : Word32) : Nat := (hash >>> (32 - p)).toNat

/-- `rem = (hash << p) mod 2^32` (41_add R92). -/
def hashRemainder (p : Nat) (hash : Word32) : Word32 := hash <<< p

/-- `clz32(v)` (41_add R97): 32 at 0, else 31 - floor(log2 v). -/
def clz32 (v : Word32) : Nat := if v = 0#32 then 32 else 31 - Nat.log2 v.toNat

/-- `rank = min(32 - p, clz32(rem)) + 1` (41_add R93). -/
def hashRank (p : Nat) (hash : Word32) : Nat := min (32 - p) (clz32 (hashRemainder p hash)) + 1

end Sys2Proof.Machine
end

