-- ==== Sys2Proof/Machine/Binary64.lean ====
section
/-! DEFINITION. binary64 on 64-bit patterns (42_estimate R104): IEEE 754, round to nearest, ties to even, one rounding for each
operation, no flags, no traps. A finite value is a whole number of units of 2^(-1074), so every operation computes exactly on
whole numbers and narrows once at the end. -/

namespace Sys2Proof.Machine

/-- The engine's quiet NaN (42_estimate R105 (L3)). -/
def f64NaN : F64 := 0x7FF8000000000000#64

/-- The sign bit, 63. -/
def f64Sign (x : F64) : Bool := x.msb

/-- The exponent field, bits 62:52. -/
def f64Exp (x : F64) : Nat := x.toNat / 2 ^ 52 % 2 ^ 11

/-- The fraction field, bits 51:0. -/
def f64Frac (x : F64) : Nat := x.toNat % 2 ^ 52

def f64IsNaN (x : F64) : Bool := f64Exp x == 2047 && f64Frac x != 0

def f64IsInf (x : F64) : Bool := f64Exp x == 2047 && f64Frac x == 0

def f64IsZero (x : F64) : Bool := f64Exp x == 0 && f64Frac x == 0

def f64IsFinite (x : F64) : Bool := f64Exp x != 2047

/-- The magnitude in units of 2^(-1074). An infinity has more units than every finite value, so comparisons need no case for it. -/
def f64Units (x : F64) : Nat :=
  if f64Exp x = 0 then f64Frac x else (2 ^ 52 + f64Frac x) * 2 ^ (f64Exp x - 1)

/-- The value in units of 2^(-1074), with its sign. -/
def f64Value (x : F64) : Int := if f64Sign x then -(f64Units x : Int) else (f64Units x : Int)

/-- The bits 62:0 of an infinity. -/
def f64InfBits : Nat := 2047 * 2 ^ 52

/-- A pattern from a sign and the bits 62:0. -/
def f64Pack (sign : Bool) (bits : Nat) : F64 := BitVec.ofNat 64 ((if sign then 2 ^ 63 else 0) + bits)

def f64Inf (sign : Bool) : F64 := f64Pack sign f64InfBits

/-- How many units wide, as a power of two, the last place of a binary64 value of q units is. -/
def ulpShift (q : Nat) : Nat := Nat.log2 q - 52

/-- The whole number nearest n/place, ties to even. -/
def nearestQuotient (n place : Nat) : Nat :=
  if place < 2 * (n % place) ∨ (2 * (n % place) = place ∧ n / place % 2 = 1) then n / place + 1 else n / place

/-- The bits 62:0 of the magnitude n/d units rounded to nearest, ties to even; from the largest finite value upwards by half a
last place, infinity. The last place count runs on from one exponent to the next, so a carry out of the fraction needs no case. -/
def roundUnits (n d : Nat) : Nat :=
  min (ulpShift (n / d) * 2 ^ 52 + nearestQuotient n (d * 2 ^ ulpShift (n / d))) f64InfBits

/-- The sign of a product or a quotient. -/
def f64SignXor (x y : F64) : Bool := Bool.xor (f64Sign x) (f64Sign y)

/-- `-x`. -/
def f64Neg (x : F64) : F64 := x ^^^ 0x8000000000000000#64

/-- `fadd(x, y)` (42_estimate R104). -/
def fadd (x y : F64) : F64 :=
  if f64IsNaN x || f64IsNaN y then f64NaN
  else if f64IsInf x then (if f64IsInf y && (f64Sign x != f64Sign y) then f64NaN else f64Inf (f64Sign x))
  else if f64IsInf y then f64Inf (f64Sign y)
  else if f64Value x + f64Value y = 0 then f64Pack (f64Sign x && f64Sign y) 0
  else f64Pack (decide (f64Value x + f64Value y < 0)) (roundUnits (f64Value x + f64Value y).natAbs 1)

/-- `fsub(x, y)` (42_estimate R104). -/
def fsub (x y : F64) : F64 := fadd x (f64Neg y)

/-- `fmul(x, y)` (42_estimate R104). -/
def fmul (x y : F64) : F64 :=
  if f64IsNaN x || f64IsNaN y then f64NaN
  else if f64IsInf x || f64IsInf y then
    (if f64IsZero x || f64IsZero y then f64NaN else f64Inf (f64SignXor x y))
  else f64Pack (f64SignXor x y) (roundUnits (f64Units x * f64Units y) (2 ^ 1074))

/-- `fdiv(x, y)` (42_estimate R104). -/
def fdiv (x y : F64) : F64 :=
  if f64IsNaN x || f64IsNaN y then f64NaN
  else if f64IsInf x then (if f64IsInf y then f64NaN else f64Inf (f64SignXor x y))
  else if f64IsInf y then f64Pack (f64SignXor x y) 0
  else if f64IsZero y then (if f64IsZero x then f64NaN else f64Inf (f64SignXor x y))
  else f64Pack (f64SignXor x y) (roundUnits (f64Units x * 2 ^ 1074) (f64Units y))

/-- `cvt(n)` (42_estimate R104): the binary64 value of a whole number. -/
def cvt (n : Nat) : F64 := f64Pack false (roundUnits (n * 2 ^ 1074) 1)

/-- `pow2neg(r)` (42_estimate R104): exactly 2^(-r). -/
def pow2neg (r : Byte) : F64 := BitVec.ofNat 64 ((1023 - r.toNat) * 2 ^ 52)

/-- `x <= y` (42_estimate R104): the exact comparison; false if either is a NaN. -/
def fle (x y : F64) : Bool := !f64IsNaN x && !f64IsNaN y && decide (f64Value x ≤ f64Value y)

/-- `x > y` (42_estimate R104): the exact comparison; false if either is a NaN. -/
def fgt (x y : F64) : Bool := !f64IsNaN x && !f64IsNaN y && decide (f64Value y < f64Value x)

end Sys2Proof.Machine
end

