-- ==== Sys2Proof/Machine/Ln.lean ====
section
/-! DEFINITION. `LN`, the natural logarithm of the engine (42_estimate R105). L1, L2, L3 and L5 give its value outright. L4 leaves
one of two: the binary64 values that bracket the real number ln x. Both are computed here from a rational enclosure of ln x, and
the opaque `Config.lnRoundsUp` says which of the two the engine gives. -/

namespace Sys2Proof.Machine

/-- The number of binary places of the fixed-point coefficients below. -/
def lnPlaces : Nat := 200

/-- The number of terms of the series below that are summed. -/
def lnTerms : Nat := 64

/-- A lower bound, in units of 2^(-lnPlaces), of the sum over j of t^(2j) / (2(i+j)+1) for t = a/b. -/
def seriesLow (a b : Nat) : (terms i : Nat) → Nat
  | 0, _ => 0
  | n + 1, i => 2 ^ lnPlaces / (2 * i + 1) + a * a * seriesLow a b n (i + 1) / (b * b)

/-- An upper bound of the same sum, for 2 t^2 at most 1: the terms left out add up to at most 2. -/
def seriesHigh (a b : Nat) : (terms i : Nat) → Nat
  | 0, _ => 2 ^ (lnPlaces + 1)
  | n + 1, i => (2 ^ lnPlaces / (2 * i + 1) + 1) + (a * a * seriesHigh a b n (i + 1) / (b * b) + 1)

/-- The significand of a finite value as a whole number: the value is it times 2^(max(exponent field, 1) - 1075). -/
def lnMant (x : F64) : Nat := if f64Exp x = 0 then f64Frac x else 2 ^ 52 + f64Frac x

/-- The power of two nearest the significand by ratio: the one at or below it, or the next one if the significand is at least the
square root of 2 times it. -/
def lnPivotLog (mant : Nat) : Nat :=
  if 2 * 2 ^ (2 * Nat.log2 mant) ≤ mant * mant then Nat.log2 mant + 1 else Nat.log2 mant

/-- `x = (mant / pivot) * 2^scale` (positive finite x) with mant/pivot near 1: ln x = scale * ln 2 + 2 artanh(t), where
t = (mant - pivot) / (mant + pivot). -/
def lnScale (x : F64) : Int := (lnPivotLog (lnMant x) : Int) + ((f64Exp x - 1 : Nat) : Int) - 1074

/-- `mant - pivot`, the numerator of t. -/
def lnNum (x : F64) : Int := (lnMant x : Int) - ((2 ^ lnPivotLog (lnMant x) : Nat) : Int)

/-- `mant + pivot`, the denominator of t. -/
def lnDen (x : F64) : Nat := lnMant x + 2 ^ lnPivotLog (lnMant x)

/-- `k * c` from below or from above, for a coefficient c between two bounds: a negative factor takes the other bound. -/
def scaleBy (k : Int) (c c' : Nat) : Int := if 0 ≤ k then k * c else k * c'

/-- `lnLow / lnDenom ≤ ln x`, with ln 2 = 2 artanh(1/3). -/
def lnLow (x : F64) : Int :=
  2 * lnDen x * scaleBy (lnScale x) (seriesLow 1 3 lnTerms 0) (seriesHigh 1 3 lnTerms 0) +
    6 * scaleBy (lnNum x) (seriesLow (lnNum x).natAbs (lnDen x) lnTerms 0) (seriesHigh (lnNum x).natAbs (lnDen x) lnTerms 0)

/-- `ln x ≤ lnHigh / lnDenom`. -/
def lnHigh (x : F64) : Int :=
  2 * lnDen x * scaleBy (lnScale x) (seriesHigh 1 3 lnTerms 0) (seriesLow 1 3 lnTerms 0) +
    6 * scaleBy (lnNum x) (seriesHigh (lnNum x).natAbs (lnDen x) lnTerms 0) (seriesLow (lnNum x).natAbs (lnDen x) lnTerms 0)

/-- The denominator of both bounds. -/
def lnDenom (x : F64) : Nat := 3 * lnDen x * 2 ^ lnPlaces

/-- The bits 62:0 of the largest binary64 magnitude at most n/d units. -/
def floorUnits (n d : Nat) : Nat :=
  ulpShift (n / d) * 2 ^ 52 + n / (d * 2 ^ ulpShift (n / d))

/-- The bits 62:0 of the smallest binary64 magnitude at least n/d units. -/
def ceilUnits (n d : Nat) : Nat :=
  floorUnits n d + if n % (d * 2 ^ ulpShift (n / d)) = 0 then 0 else 1

/-- The largest binary64 value at most n/d. -/
def roundDown (n : Int) (d : Nat) : F64 :=
  if 0 ≤ n then f64Pack false (floorUnits (n.natAbs * 2 ^ 1074) d) else f64Pack true (ceilUnits (n.natAbs * 2 ^ 1074) d)

/-- The smallest binary64 value at least n/d. -/
def roundUp (n : Int) (d : Nat) : F64 :=
  if 0 ≤ n then f64Pack false (ceilUnits (n.natAbs * 2 ^ 1074) d) else f64Pack true (floorUnits (n.natAbs * 2 ^ 1074) d)

/-- The binary64 value just below ln x (42_estimate R105 (L4)). -/
def lnBelow (x : F64) : F64 := roundDown (lnHigh x) (lnDenom x)

/-- The binary64 value just above ln x (42_estimate R105 (L4)). -/
def lnAbove (x : F64) : F64 := roundUp (lnLow x) (lnDenom x)

/-- `LN` (42_estimate R105): L2, L3, L5, L1 and, for every other operand, L4. No rule states LN of a NaN; the engine's NaN is the
model's (log entry 7). -/
def ln (x : F64) : F64 :=
  if f64IsNaN x then f64NaN
  else if f64IsZero x then f64Inf true
  else if f64Sign x then f64NaN
  else if f64IsInf x then f64Inf false
  else if x = 0x3FF0000000000000#64 then 0#64
  else if Config.lnRoundsUp x then lnAbove x else lnBelow x

end Sys2Proof.Machine
end

