-- ==== Sys2Proof/Machine/Estimate.lean ====
section
/-! DEFINITION. The estimate command (42_estimate): ESTIMATE. -/

namespace Sys2Proof.Machine

/-- `2.5` (42_estimate R113). -/
def twoAndHalf : F64 := 0x4004000000000000#64

/-- `POW_2_32` (42_estimate R113). -/
def pow2_32 : F64 := 0x41F0000000000000#64

/-- `NEG_2_32` (42_estimate R113). -/
def neg2_32 : F64 := 0xC1F0000000000000#64

/-- `LARGE_T` (42_estimate R113): the binary64 value nearest 2^32 / 30. -/
def largeT : F64 := 0x41A1111111111111#64

/-- `1.0` (42_estimate R113). -/
def fone : F64 := 0x3FF0000000000000#64

/-- The sum over the n elements from index i on, ascending, rounded after each addition (42_estimate R106). -/
def sumFrom (A : Memory) : (n i : Nat) → F64 → F64
  | 0, _, sum => sum
  | n + 1, i, sum => sumFrom A n (i + 1) (fadd sum (pow2neg (A.read i)))

/-- How many of the n elements from index i on are 0 (42_estimate R108). -/
def zerosFrom (A : Memory) : (n i : Nat) → Nat
  | 0, _ => 0
  | n + 1, i => (if A.read i = 0#8 then 1 else 0) + zerosFrom A n (i + 1)

/-- `sum` (42_estimate R106): from +0.0 over the whole array. -/
def harmonicSum (A : Memory) (m : Nat) : F64 := sumFrom A m 0 0#64

/-- `raw` (42_estimate R107): one division. -/
def rawEstimate (alphaMM : F64) (A : Memory) (m : Nat) : F64 := fdiv alphaMM (harmonicSum A m)

/-- The small-range correction (42_estimate R108): linear counting if a register is 0, else the raw estimate. -/
def smallRange (raw : F64) (zeros m : Nat) : F64 :=
  if 0 < zeros then fmul (cvt m) (ln (fdiv (cvt m) (cvt zeros))) else raw

/-- The large-range correction (42_estimate R109). -/
def largeRange (raw : F64) : F64 := fmul neg2_32 (ln (fsub fone (fdiv raw pow2_32)))

/-- The estimate of an array of m elements (42_estimate R100, R108 to R110). -/
def estimateOf (alphaMM : F64) (A : Memory) (m : Nat) : F64 :=
  let raw := rawEstimate alphaMM A m
  if fle raw (fmul twoAndHalf (cvt m)) then smallRange raw (zerosFrom A m 0) m
  else if fgt raw largeT then largeRange raw
  else raw

/-- `ESTIMATE a` and `ESTIMATE.P a` (42_estimate R100): no slot changes. -/
def execEstimate (a : Nat) (sel : ArraySel) (s : State) : Result :=
  checkSlot a s fun x => respond (estimateOf x.alphaMM (x.array sel) x.m) 0#64 s

end Sys2Proof.Machine
end

