-- ==== Sys2Proof/Machine/Merge.lean ====
section
/-! DEFINITION. The merge command (44_merge): MERGE. -/

namespace Sys2Proof.Machine

/-- `combine(x, y)`, applied only when x < y (44_merge R132). -/
def combine : MergeOp → Byte → Byte → Byte
  | .max, _, y => y
  | .orIfLess, x, y => x ||| y

/-- One turn of the merge loop (44_merge R130). -/
def mergeElement (op : MergeOp) (A B : Memory) (i : Nat) : Memory :=
  if A.read i < B.read i then A.write i (combine op (A.read i) (B.read i)) else A

/-- The merge loop over the n elements from index i on (44_merge R130). -/
def mergeFrom (op : MergeOp) (B : Memory) : (n i : Nat) → Memory → Memory
  | 0, _, A => A
  | n + 1, i, A => mergeFrom op B n (i + 1) (mergeElement op A B i)

/-- `aux` of `SizeMismatch` (44_merge R131): `aux[63:32] = m[b]`, `aux[31:0] = m[a]`. -/
def sizesAux (ma mb : Nat) : Word64 := BitVec.ofNat 32 mb ++ BitVec.ofNat 32 ma

/-- `MERGE a, b` (44_merge R130): slot a is raised to slot b, which is only read. -/
def execMerge (a b : Nat) (s : State) : Result :=
  checkSlot a s fun x =>
    checkSlot b s fun y =>
      if x.m ≠ y.m then raise .sizeMismatch 0#64 (sizesAux x.m y.m) s
      else respond 0#64 0#64 (s.setSlot a { x with M := mergeFrom s.mergeOp y.M x.m 0 x.M })

end Sys2Proof.Machine
end

