-- ==== Sys2Proof/Machine/Persistence.lean ====
section
/-! DEFINITION. The persistence commands (45_persistence): DUMP, RESTORE. -/

namespace Sys2Proof.Machine

/-- The persisted layout of an instance (45_persistence R140): the precision byte, then the elements of `M[a]` ascending. -/
def layout (x : Slot) : List Byte := BitVec.ofNat 8 x.prec :: x.M.elements x.m 0

/-- Offer the bytes to the sink one after another, n having been accepted (45_persistence R141): the first refusal ends the
command with `IoError` and the count; the bytes accepted so far stay in the sink (R142). -/
def dumpBytes : List Byte → (n : Nat) → State → Result
  | [], n, s => respond (BitVec.ofNat 64 n) 0#64 s
  | v :: vs, n, s =>
    match sinkWrite v n s with
    | .ok s' => dumpBytes vs (n + 1) s'
    | .fail => raise .ioError (BitVec.ofNat 64 n) 0#64 s
    | .never => .fault .sinkUnanswered

/-- `DUMP a` (45_persistence R141). -/
def execDump (a : Nat) (s : State) : Result :=
  checkSlot a s fun x => dumpBytes (layout x) 0 s

/-- Read `left` more bytes into the staging buffer `staged`, n having been consumed, then go on with the buffer and the count
(45_persistence R143); a `FAIL` ends the command with `IoError` and the count, no slot touched (R144). -/
def stageBytes : (left : Nat) → (staged : List Byte) → (n : Nat) → State → (List Byte → Nat → State → Result) → Result
  | 0, staged, n, s, commit => commit staged n s
  | left + 1, staged, n, s, commit =>
    match srcRead s with
    | .byte v s' => stageBytes left (staged ++ [v]) (n + 1) s' commit
    | .fail => raise .ioError (BitVec.ofNat 64 n) 0#64 s
    | .never => .fault .sourceUnanswered

/-- The restored instance (45_persistence R143): the staged bytes as they were read (R146), the protected array all zero (R144). -/
def State.restoredSlot (s : State) (p : Nat) (staged : List Byte) : Slot :=
  { valid := true, prec := p, alphaMM := s.alphamm p, M := Memory.ofBytes 0 staged, P := [] }

/-- `RESTORE a` (45_persistence R143): the precision byte is checked after it is consumed (R145), and slot a changes only when
every byte has been read. -/
def execRestore (a : Nat) (s : State) : Result :=
  checkSlot a s fun _ =>
    match srcRead s with
    | .fail => raise .ioError 0#64 0#64 s
    | .never => .fault .sourceUnanswered
    | .byte q s' =>
      if validPrecision q.toNat then
        stageBytes (2 ^ q.toNat) [] 1 s' fun staged n t =>
          respond (BitVec.ofNat 64 n) 0#64 (t.setSlot a (t.restoredSlot q.toNat staged))
      else raise .invalidArgument 1#64 0#64 s'

end Sys2Proof.Machine
end

