-- ==== Sys2Proof/Machine/Protect.lean ====
section
/-! DEFINITION. The protection command (43_protect): PROTECT. -/

namespace Sys2Proof.Machine

/-- The scan temporaries of `PROTECT` (43_protect R122): the smallest value and the second smallest by position, each with the
index it was first met at; 256 and `none` stand for no value yet. -/
structure MinScan where
  min1 : Nat
  p1 : Option Nat
  min2 : Nat
  p2 : Option Nat
  deriving DecidableEq, Repr

/-- The temporaries before the first element (43_protect R120). -/
def MinScan.start : MinScan := { min1 := 256, p1 := none, min2 := 256, p2 := none }

/-- One turn of the scan loop (43_protect R120): strict tests, and a new minimum moves the old one down. -/
def MinScan.visit (t : MinScan) (i v : Nat) : MinScan :=
  if v < t.min1 then { min1 := v, p1 := some i, min2 := t.min1, p2 := t.p1 }
  else if v < t.min2 then { t with min2 := v, p2 := some i }
  else t

/-- The scan of the n elements from index i on, ascending (43_protect R122). -/
def scanFrom (A : Memory) : (n i : Nat) → MinScan → MinScan
  | 0, _, t => t
  | n + 1, i, t => scanFrom A n (i + 1) (t.visit i (A.read i).toNat)

/-- The replace step (43_protect R123): the smallest element takes the second smallest value if the gap reaches the threshold. The
scan of an array of two or more elements always finds both positions. -/
def replaceMin (A : Memory) (t : MinScan) (threshold : Nat) : Memory :=
  match t.p1, t.p2 with
  | some p1, some p2 => if threshold ≤ t.min2 - t.min1 then A.write p1 (A.read p2) else A
  | _, _ => A

/-- The protected copy of an array of m elements (43_protect R121 to R123). -/
def protectedCopy (A : Memory) (m threshold : Nat) : Memory := replaceMin A (scanFrom A m 0 MinScan.start) threshold

/-- `PROTECT a, threshold` (43_protect R120): `P[a]` is written, `M[a]` never. -/
def execProtect (a threshold : Nat) (s : State) : Result :=
  checkSlot a s fun x => respond 0#64 0#64 (s.setSlot a { x with P := protectedCopy x.M x.m threshold })

end Sys2Proof.Machine
end

