-- ==== Sys2Proof/Machine/RegisterStore.lean ====
section
/-! DEFINITION. The register store commands (40_register_store): CREATE, DESTROY, CLEAR, REGCOUNT, COUNTER, FLIPBIT. -/

namespace Sys2Proof.Machine

/-- `CREATE a, precision` (R71): construct an instance in slot a, replacing one that is there. -/
def execCreate (a precision : Nat) (s : State) : Result :=
  checkSlotId a s
    (if validPrecision precision then respond 0#64 0#64 (s.setSlot a (s.freshSlot precision))
     else raise .invalidArgument 0#64 0#64 s)

/-- `DESTROY a` (R72): release the instance; the slot's other fields become unobservable. -/
def execDestroy (a : Nat) (s : State) : Result :=
  checkSlot a s fun x => respond 0#64 0#64 (s.setSlot a { x with valid := false })

/-- `CLEAR a` (R73): every element of `M[a]` to 0; `P[a]` is untouched. -/
def execClear (a : Nat) (s : State) : Result :=
  checkSlot a s fun x => respond 0#64 0#64 (s.setSlot a { x with M := [] })

/-- `REGCOUNT a` (R74): m, zero-extended. -/
def execRegcount (a : Nat) (s : State) : Result :=
  checkSlot a s fun x => respond (BitVec.ofNat 64 x.m) 0#64 s

/-- `COUNTER a, index` and `COUNTER.P a, index` (R75): one element, zero-extended. -/
def execCounter (a : Nat) (sel : ArraySel) (index : Nat) (s : State) : Result :=
  checkSlot a s fun x =>
    if x.m ≤ index then raise .indexOutOfRange 0#64 0#64 s
    else respond (((x.array sel).read index).setWidth 64) 0#64 s

/-- `FLIPBIT a, index, bit` (R76): toggle one bit of one element of `M[a]`. -/
def execFlipbit (a index bit : Nat) (s : State) : Result :=
  checkSlot a s fun x =>
    if x.m ≤ index then raise .indexOutOfRange 0#64 0#64 s
    else respond 0#64 0#64 (s.setSlot a { x with M := x.M.write index (x.M.read index ^^^ (1#8 <<< bit)) })

end Sys2Proof.Machine
end

