-- ==== Sys2Proof/Machine/Update.lean ====
section
/-! DEFINITION. The register update command (41_add): ADD. -/

namespace Sys2Proof.Machine

/-- The conditional write (41_add R94): the element becomes the rank if the rank is larger, as unsigned numbers. -/
def Memory.raiseTo (A : Memory) (i rank : Nat) : Memory :=
  if (A.read i).toNat < rank then A.write i (BitVec.ofNat 8 rank) else A

/-- `ADD a, hash` (41_add R95). -/
def execAdd (a : Nat) (hash : Word32) (s : State) : Result :=
  checkSlot a s fun x =>
    respond 0#64 0#64 (s.setSlot a { x with M := x.M.raiseTo (hashIndex x.prec hash) (hashRank x.prec hash) })

end Sys2Proof.Machine
end

