-- ==== Sys2Proof/Machine/Dispatch.lean ====
section
/-! DEFINITION. The dispatch: one arm per command, each a direct call of its meaning. -/

namespace Sys2Proof.Machine

def exec (i : Instr) (s : State) : Host.Outcome State Fault Refusal :=
  match i with
  | .create a precision => Sys2Proof.Machine.execCreate a precision s
  | .destroy a => Sys2Proof.Machine.execDestroy a s
  | .clear a => Sys2Proof.Machine.execClear a s
  | .regcount a => Sys2Proof.Machine.execRegcount a s
  | .counter a sel index => Sys2Proof.Machine.execCounter a sel index s
  | .flipbit a index bit => Sys2Proof.Machine.execFlipbit a index bit s
  | .add a hash => Sys2Proof.Machine.execAdd a hash s
  | .estimate a sel => Sys2Proof.Machine.execEstimate a sel s
  | .protect a threshold => Sys2Proof.Machine.execProtect a threshold s
  | .merge a b => Sys2Proof.Machine.execMerge a b s
  | .dump a => Sys2Proof.Machine.execDump a s
  | .restore a => Sys2Proof.Machine.execRestore a s

end Sys2Proof.Machine
end

