-- ==== Sys2Proof/Machine/Port.lean ====
section
/-! DEFINITION. The command port (30_encoding R50) and what the host does between commands: taking a command word, running it,
answering an illegal one, binding the streams, resetting the engine. -/

namespace Sys2Proof.Machine

/-- Run one command word to completion (30_encoding R50): the decoded command, or `IllegalCommand` before any slot is looked at
(R54, R55, 60_exceptions R173). -/
def runWord (w : Word64) (s : State) : Result :=
  match decode w with
  | .ok i => exec i s
  | .error _ => raise .illegalCommand 0#64 0#64 s

/-- Connect the byte source (70_reset_and_hazards R193 (d)). -/
def State.bindSource (s : State) (src : Source) : State := { s with source := src }

/-- Connect the byte sink (70_reset_and_hazards R193 (d)). -/
def State.bindSink (s : State) (plan : SinkPlan) : State := { s with sinkPlan := plan }

/-- One action of the host on an idle engine. -/
def takeAction (action : HostAction) (s : State) : Result :=
  match action with
  | .command w => runWord w s
  | .bindSource src => .next (s.bindSource src)
  | .bindSink plan => .next (s.bindSink plan)
  | .reset => .next s.resetEngine

/-- The state with the host's first action taken off the list. -/
def State.withPending (s : State) (rest : List HostAction) : State := { s with pending := rest }

/-- The state in which the host presents a command word next, before everything else it was going to do. -/
def State.presenting (s : State) (w : Word64) : State := { s with pending := .command w :: s.pending }

end Sys2Proof.Machine
end

