-- ==== Sys2Proof/Machine/Step.lean ====
section
/-! DEFINITION. One step of the machine: the host's next action, taken by the idle engine and run to completion (00_scope R2). With
no action left the engine stays idle. -/

namespace Sys2Proof.Machine

/-- One step. There is no program counter (10_state R23): the order of execution is the order of the host's actions. -/
def step (s : State) : Host.Outcome State Fault Refusal :=
  match s.pending with
  | [] => .next s
  | action :: rest => takeAction action (s.withPending rest)

/-- The state whose next step takes the command whose bits are `w` (log entry 4). -/
def State.withFetchWord (s : State) (nbits w : Nat) : State := s.presenting (tableWord nbits w)

end Sys2Proof.Machine
end

