-- ==== Sys2Proof/Machine/Assembler.lean ====
section
/-! DEFINITION. The assembler syntax (30_encoding R59) and the host-side pseudo-commands (R60). The engine never sees either: the
word of an assembled command is its encoding. -/

namespace Sys2Proof.Machine

/-- The command that a mnemonic and its operands write (30_encoding R59), the operands in the order of the syntax table. -/
def assemble : String → List Nat → Option Instr
  | "CREATE", [a, precision] => some (.create a precision)
  | "DESTROY", [a] => some (.destroy a)
  | "CLEAR", [a] => some (.clear a)
  | "REGCOUNT", [a] => some (.regcount a)
  | "COUNTER", [a, index] => some (.counter a .registers index)
  | "COUNTER.P", [a, index] => some (.counter a .protectedRegisters index)
  | "FLIPBIT", [a, index, bit] => some (.flipbit a index bit)
  | "ADD", [a, hash] => some (.add a (BitVec.ofNat 32 hash))
  | "ESTIMATE", [a] => some (.estimate a .registers)
  | "ESTIMATE.P", [a] => some (.estimate a .protectedRegisters)
  | "PROTECT", [a, threshold] => some (.protect a threshold)
  | "MERGE", [a, b] => some (.merge a b)
  | "DUMP", [a] => some (.dump a)
  | "RESTORE", [a] => some (.restore a)
  | _, _ => none

/-- The pseudo-command `ADDELEM a, bytes, length` (30_encoding R60): the host hashes the element, then issues `ADD`. -/
def addElem (a : Nat) (bytes : List Byte) (length : Nat) : Instr :=
  .add a (Config.hash32 bytes length Config.hashSeed)

/-- The pseudo-command `ESTIMATE a, protect` (30_encoding R60). -/
def estimatePseudo (a : Nat) (protect : Bool) : Instr :=
  .estimate a (if protect then .protectedRegisters else .registers)

end Sys2Proof.Machine
end

