-- ==== Sys2Proof/Safety.lean ====
section
/-! DEFINITION. The terms claims use: the invariant of reachable states (10_state R18), runs and what is observed of them
(70_reset_and_hazards R194), successful runs (60_exceptions R168), and the number a binary64 pattern stands for. -/

namespace Sys2Proof.Machine

/-- What 42_estimate R103 asks of an `ALPHAMM` value: positive, finite, normal, at most 2^60. -/
def alphaOk (v : F64) : Bool := !f64Sign v && f64Exp v != 0 && decide (v.toNat ≤ 0x43B0000000000000)

/-- A configuration the spec allows (00_scope R7, R8; 42_estimate R103): 1 to 16 slots, an `ALPHAMM` value for every precision. -/
def State.configOk (s : State) : Prop :=
  1 ≤ s.nInst ∧ s.nInst ≤ 16 ∧ s.alphaTable.length = 27 ∧ s.alphaTable.all alphaOk = true

/-- The invariants (I-a) to (I-d) of a valid slot (10_state R18). An element is a byte by its type, which is (I-d). -/
def Slot.instanceOk (s : State) (x : Slot) : Prop :=
  4 ≤ x.prec ∧ x.prec ≤ 30 ∧ x.alphaMM = s.alphamm x.prec ∧ x.M.below x.m ∧ x.P.below x.m

/-- The invariant of reachable states: an allowed configuration, a status code of 60_exceptions R160, both arrays of every slot in
canonical form, and 10_state R18 for every valid slot. -/
def State.Inv (s : State) : Prop :=
  s.configOk ∧ s.rsp.status.toNat ≤ 6 ∧
    ∀ x ∈ s.slots, x.M.wf ∧ x.P.wf ∧ (x.valid = true → x.instanceOk s)

/-- The slot a command names in its field `a`. -/
def slotOf : Instr → Nat
  | .create a _ => a
  | .destroy a => a
  | .clear a => a
  | .regcount a => a
  | .counter a _ _ => a
  | .flipbit a _ _ => a
  | .add a _ => a
  | .estimate a _ => a
  | .protect a _ => a
  | .merge a _ => a
  | .dump a => a
  | .restore a => a

/-- Everything but the slots, the response and the streams' contents is as before. -/
def SameSetting (s t : State) : Prop :=
  t.nInst = s.nInst ∧ t.mergeOp = s.mergeOp ∧ t.alphaTable = s.alphaTable ∧ t.pending = s.pending ∧ t.sinkPlan = s.sinkPlan

/-- A command list run one after another on one engine, stopping at the first stop. -/
def runAll : List Instr → State → Result
  | [], s => .next s
  | i :: is, s =>
    match exec i s with
    | .next t => runAll is t
    | .fault f => .fault f
    | .refused r => .refused r

/-- The responses of k steps in order (70_reset_and_hazards R194): one for each command word taken (30_encoding R50). -/
def responses : Nat → State → List Response
  | 0, _ => []
  | k + 1, s =>
    match step s with
    | .next t =>
      match s.pending with
      | .command _ :: _ => t.rsp :: responses k t
      | _ => responses k t
    | _ => []

/-- A run is meant to succeed: every status is `OK` (60_exceptions R168). -/
def allOk (rs : List Response) : Bool := rs.all (fun r => r.status == Status.ok.code)

/-- The real number a finite binary64 pattern stands for (42_estimate R104). -/
noncomputable def f64Real (x : F64) : ℝ := (f64Value x : ℝ) / 2 ^ 1074

/-- Faithful rounding of a real number v (42_estimate R105 (L4)): a finite binary64 value that is the largest at most v, or the
smallest at least v. Where v itself is representable, that is v alone. -/
def Faithful (v : ℝ) (r : F64) : Prop :=
  f64IsFinite r = true ∧
    ((f64Real r ≤ v ∧ ∀ d : F64, f64IsFinite d = true → f64Real d ≤ v → f64Real d ≤ f64Real r) ∨
      (v ≤ f64Real r ∧ ∀ d : F64, f64IsFinite d = true → v ≤ f64Real d → f64Real r ≤ f64Real d))

/-- Correct rounding of a real number v to nearest, ties to even (42_estimate R104): below the overflow threshold a finite value
nearest v, and of two nearest the one whose last bit is 0; from the threshold on, the infinity of v's sign. -/
def CorrectlyRounded (v : ℝ) (r : F64) : Prop :=
  (|v| < 2 ^ 1024 - 2 ^ 970 →
      f64IsFinite r = true ∧
        ∀ d : F64, f64IsFinite d = true →
          |f64Real r - v| ≤ |f64Real d - v| ∧
            (|f64Real d - v| = |f64Real r - v| → f64Real d ≠ f64Real r → r.toNat % 2 = 0)) ∧
    (2 ^ 1024 - 2 ^ 970 ≤ v → r = f64Inf false) ∧ (v ≤ -(2 ^ 1024 - 2 ^ 970) → r = f64Inf true)

/-- Two states that differ at most in the fields of slots that hold no instance (70_reset_and_hazards R190). -/
def SameVisible (s t : State) : Prop :=
  t.nInst = s.nInst ∧ (∀ a, t.live a = s.live a) ∧ t.rsp = s.rsp ∧ t.mergeOp = s.mergeOp ∧ t.alphaTable = s.alphaTable ∧
    t.pending = s.pending ∧ t.source = s.source ∧ t.sinkPlan = s.sinkPlan ∧ t.sinkOut = s.sinkOut

/-- Every register of every instance is at most the largest rank `ADD` writes (10_state R20, 00_scope R9). -/
def RegistersWithinRank (s : State) : Prop :=
  ∀ a x, s.live a = some x → ∀ i, (x.M.read i).toNat ≤ 33 - x.prec

/-- The number of zero elements and the elements of an array of m elements, said without the engine's loops. -/
def elementsOf (A : Memory) (m : Nat) : List Byte := (List.range m).map A.read

end Sys2Proof.Machine
end

