-- ==== Sys2Proof/Certificates/Slice0/Obligations.lean ====
section
/-! DEFINITION. The statements about the engine, one for each rule or group of rules of spec/ that says what it does. Each docstring
names the rule. The quantifiers range over every state: states no run reaches are shut out only where a premise says so. -/

open Sys2Proof Sys2Proof.Machine

/-! Encoding -/

/-- 30_encoding R52, R53: decoding an encoded well-formed command gives it back, whatever its operands. -/
def Obligations.DecodeEncodeRoundTrip : Prop :=
  ∀ i : Instr, WellFormed i = true → decode (encode i) = .ok i

/-- 30_encoding R52, R58: a word has one meaning; a word that decodes is the encoding of what it decodes to. -/
def Obligations.EncodeDecodeRoundTrip : Prop :=
  ∀ (w : Word64) (i : Instr), decode w = .ok i → WellFormed i = true ∧ encode i = w

/-- 30_encoding R53: a word is a command of a row if and only if `(w & mask) == match`, for each of the twelve rows as the table
gives them. -/
def Obligations.DecoderFollowsOpcodeMap : Prop :=
  ∀ w : Word64,
    (w &&& 0xFF0F00FFFFFFFFFF#64 = 0x0100000000000000#64 ↔ ∃ a p, decode w = .ok (.create a p)) ∧
    (w &&& 0xFF0FFFFFFFFFFFFF#64 = 0x0200000000000000#64 ↔ ∃ a, decode w = .ok (.destroy a)) ∧
    (w &&& 0xFF0FFFFFFFFFFFFF#64 = 0x0300000000000000#64 ↔ ∃ a, decode w = .ok (.clear a)) ∧
    (w &&& 0xFF0FFFFFFFFFFFFF#64 = 0x0400000000000000#64 ↔ ∃ a, decode w = .ok (.regcount a)) ∧
    (w &&& 0xFF0FFEFF00000000#64 = 0x0500000000000000#64 ↔ ∃ a sel index, decode w = .ok (.counter a sel index)) ∧
    (w &&& 0xFF0FF8FF00000000#64 = 0x0600000000000000#64 ↔ ∃ a index bit, decode w = .ok (.flipbit a index bit)) ∧
    (w &&& 0xFF0FFFFF00000000#64 = 0x1000000000000000#64 ↔ ∃ a hash, decode w = .ok (.add a hash)) ∧
    (w &&& 0xFF0FFEFFFFFFFFFF#64 = 0x2000000000000000#64 ↔ ∃ a sel, decode w = .ok (.estimate a sel)) ∧
    (w &&& 0xFF0FFFFF00000000#64 = 0x3000000000000000#64 ↔ ∃ a threshold, decode w = .ok (.protect a threshold)) ∧
    (w &&& 0xFF00FFFFFFFFFFFF#64 = 0x4000000000000000#64 ↔ ∃ a b, decode w = .ok (.merge a b)) ∧
    (w &&& 0xFF0FFFFFFFFFFFFF#64 = 0x5000000000000000#64 ↔ ∃ a, decode w = .ok (.dump a)) ∧
    (w &&& 0xFF0FFFFFFFFFFFFF#64 = 0x5100000000000000#64 ↔ ∃ a, decode w = .ok (.restore a))

/-- 30_encoding R55: a word with a reserved opcode ends with `IllegalCommand` whatever its other bits are, and changes nothing but
the response; the all-zero word and the all-ones word are among them. -/
def Obligations.ReservedOpcodesAreIllegal : Prop :=
  (∀ (s : State) (w : Word64) (rest : List HostAction), s.pending = .command w :: rest →
    w.extractLsb' 56 8 ∉ [0x01#8, 0x02#8, 0x03#8, 0x04#8, 0x05#8, 0x06#8, 0x10#8, 0x20#8, 0x30#8, 0x40#8, 0x50#8, 0x51#8] →
    step s = .next { s with pending := rest, rsp := ⟨0x05#8, 0#64, 0#64⟩ }) ∧
  (∀ (s : State) (w : Word64) (rest : List HostAction), s.pending = .command w :: rest →
    w = 0#64 ∨ w = 0xFFFFFFFFFFFFFFFF#64 → step s = .next { s with pending := rest, rsp := ⟨0x05#8, 0#64, 0#64⟩ })

/-- 30_encoding R54: a word whose opcode is one of the twelve and which has a non-zero bit in a must-be-zero field ends with
`IllegalCommand` and changes nothing but the response: `rsvd` in every command, and every field or `imm8` bit that R52 lists as
unused by the command. -/
def Obligations.MustBeZeroBitsAreIllegal : Prop :=
  ∀ (s : State) (w : Word64) (rest : List HostAction), s.pending = .command w :: rest →
    w.extractLsb' 56 8 ∈ [0x01#8, 0x02#8, 0x03#8, 0x04#8, 0x05#8, 0x06#8, 0x10#8, 0x20#8, 0x30#8, 0x40#8, 0x50#8, 0x51#8] →
    (w.extractLsb' 32 8 ≠ 0#8 ∨
     (w.extractLsb' 56 8 ≠ 0x40#8 ∧ w.extractLsb' 48 4 ≠ 0#4) ∨
     (w.extractLsb' 56 8 ∈ [0x02#8, 0x03#8, 0x04#8, 0x10#8, 0x30#8, 0x40#8, 0x50#8, 0x51#8] ∧ w.extractLsb' 40 8 ≠ 0#8) ∨
     (w.extractLsb' 56 8 ∈ [0x05#8, 0x20#8] ∧ w.extractLsb' 41 7 ≠ 0#7) ∨
     (w.extractLsb' 56 8 = 0x06#8 ∧ w.extractLsb' 43 5 ≠ 0#5) ∨
     (w.extractLsb' 56 8 ∈ [0x01#8, 0x02#8, 0x03#8, 0x04#8, 0x20#8, 0x40#8, 0x50#8, 0x51#8] ∧ w.extractLsb' 0 32 ≠ 0#32)) →
    step s = .next { s with pending := rest, rsp := ⟨0x05#8, 0#64, 0#64⟩ }

/-- 20_memory R33: a word carried over a byte-addressed bus is little-endian, bits 7:0 at the lowest address; decoding from its bytes
is decoding the word: the bytes after a command are handed back, and a word that is illegal is rejected for the same reason. -/
def Obligations.ByteOrderIsLittleEndian : Prop :=
  (∀ (w : Word64) (k : Nat), k < 8 → (wordBytes w)[k]? = some (w.extractLsb' (8 * k) 8)) ∧
  (∀ (w : Word64) (rest : List Byte) (i : Instr), decode w = .ok i → decodeBytes (wordBytes w ++ rest) = .ok (i, rest)) ∧
  (∀ (w : Word64) (rest : List Byte) (e : DecodeError), decode w = .error e → decodeBytes (wordBytes w ++ rest) = .error e)

/-- The example words of 30_encoding R59 and of the command rules (R71 to R76, R95, R100, R120, R130, R141, R143), the legal words of
95_test_vectors 2.1 and the word of `RESTORE 1` in 2.7 decode to the commands they stand for. The illegal words of 2.1 are no part of
this statement: `ReservedOpcodesAreIllegal` and `MustBeZeroBitsAreIllegal` cover them. -/
def Obligations.SpecWordsDecode : Prop :=
  (decode 0x10100000DEADBEEF#64 = .ok (.add 1 0xDEADBEEF#32) ∧ decode 0x01000E0000000000#64 = .ok (.create 0 14) ∧
    decode 0x4001000000000000#64 = .ok (.merge 0 1)) ∧
  (decode 0x0100040000000000#64 = .ok (.create 0 4) ∧ decode 0x0210000000000000#64 = .ok (.destroy 1) ∧
    decode 0x0300000000000000#64 = .ok (.clear 0) ∧ decode 0x0400000000000000#64 = .ok (.regcount 0) ∧
    decode 0x0500000000000001#64 = .ok (.counter 0 .registers 1) ∧
    decode 0x0500000000000010#64 = .ok (.counter 0 .registers 16) ∧
    decode 0x0600010000000003#64 = .ok (.flipbit 0 3 1) ∧ decode 0x0600070000000003#64 = .ok (.flipbit 0 3 7) ∧
    decode 0x1000000010000001#64 = .ok (.add 0 0x10000001#32) ∧ decode 0x2000000000000000#64 = .ok (.estimate 0 .registers) ∧
    decode 0x3000000000000003#64 = .ok (.protect 0 3) ∧ decode 0x5000000000000000#64 = .ok (.dump 0) ∧
    decode 0x5100000000000000#64 = .ok (.restore 0)) ∧
  (decode 0x0500010000000003#64 = .ok (.counter 0 .protectedRegisters 3) ∧
    decode 0x10000000FFFFFFFF#64 = .ok (.add 0 0xFFFFFFFF#32) ∧
    decode 0x2000010000000000#64 = .ok (.estimate 0 .protectedRegisters) ∧
    decode 0x30000000FFFFFFFF#64 = .ok (.protect 0 0xFFFFFFFF) ∧ decode 0x4000000000000000#64 = .ok (.merge 0 0) ∧
    decode 0x1010000012345678#64 = .ok (.add 1 0x12345678#32) ∧ decode 0x10F0000012345678#64 = .ok (.add 15 0x12345678#32) ∧
    decode 0x01F0FF0000000000#64 = .ok (.create 15 255) ∧ decode 0x0100FF0000000000#64 = .ok (.create 0 255) ∧
    decode 0x05000000FFFFFFFF#64 = .ok (.counter 0 .registers 0xFFFFFFFF) ∧ decode 0x5110000000000000#64 = .ok (.restore 1))

/-! Steps and reset -/

/-- 30_encoding R50, 10_state R23: when the next word at the port decodes to a command, the step is the command's meaning on the state
with the word taken off; nothing else happens around it. -/
def Obligations.StepRunsDecodedCommand : Prop :=
  ∀ (s : State) (w : Word64) (rest : List HostAction) (i : Instr), s.pending = .command w :: rest → decode w = .ok i →
    step s = exec i { s with pending := rest }

/-- What a step is when the host presents no command word: with nothing left to take the engine stays idle (30_encoding R50), a stream
is bound (70_reset_and_hazards R193 (d)). The list of host actions is the model's (log entry 4). -/
def Obligations.HostActionsBetweenCommands : Prop :=
  (∀ s : State, s.pending = [] → step s = .next s) ∧
  (∀ (s : State) (rest : List HostAction) (src : Source), s.pending = .bindSource src :: rest →
    step s = .next { s with pending := rest, source := src }) ∧
  (∀ (s : State) (rest : List HostAction) (plan : SinkPlan), s.pending = .bindSink plan :: rest →
    step s = .next { s with pending := rest, sinkPlan := plan })

/-- 70_reset_and_hazards R190: reset leaves no slot valid and `RSP` = 0, 0, 0, for every N_INST and whatever the state before it;
so no slot holds an instance and the configuration is as it was. The fields of an invalid slot are the model's choice (log entry 1)
and nothing is said of them. -/
def Obligations.ResetLeavesNoInstance : Prop :=
  (∀ (n : Nat) (op : MergeOp) (alpha : List F64) (a : Nat),
    (State.resetFor n op alpha).nInst = n ∧ (State.resetFor n op alpha).live a = none ∧
      (State.resetFor n op alpha).rsp = ⟨0#8, 0#64, 0#64⟩) ∧
  (∀ (s : State) (rest : List HostAction), s.pending = .reset :: rest →
    ∃ t, step s = .next t ∧ t.nInst = s.nInst ∧ (∀ x ∈ t.slots, x.valid = false) ∧ t.rsp = ⟨0#8, 0#64, 0#64⟩ ∧
      t.mergeOp = s.mergeOp ∧ t.alphaTable = s.alphaTable)

/-! Register store commands -/

/-- 40_register_store R71: on a slot id below N_INST and a precision in [4,30] `CREATE` completes with a fresh instance, both arrays
zero; a bad slot id is `NoInstance` first, then a bad precision `InvalidArgument`, and neither changes a slot. -/
def Obligations.CreateBuildsFreshInstance : Prop :=
  ∀ (s : State) (a p : Nat),
    (a < s.nInst → 4 ≤ p → p ≤ 30 →
      ∃ t x, exec (.create a p) s = .next t ∧ t.slots[a]? = some x ∧ x.valid = true ∧ x.prec = p ∧ x.alphaMM = s.alphamm p ∧
        (∀ i, x.M.read i = 0#8 ∧ x.P.read i = 0#8) ∧ t.rsp = ⟨0x00#8, 0#64, 0#64⟩) ∧
    (s.nInst ≤ a → exec (.create a p) s = .next { s with rsp := ⟨0x06#8, 0#64, 0#64⟩ }) ∧
    (a < s.nInst → p < 4 ∨ 30 < p → exec (.create a p) s = .next { s with rsp := ⟨0x01#8, 0#64, 0#64⟩ })

/-- 40_register_store R72: `DESTROY` of a slot that holds an instance completes and the slot holds none; any other is `NoInstance`.
That the slot's other fields stay as they are is no rule of the spec, which calls them unobservable: it is the model's choice (DESIGN
CHOICE, log entry 15). -/
def Obligations.DestroyReleasesInstance : Prop :=
  ∀ (s : State) (a : Nat),
    (∀ x, s.live a = some x →
      ∃ t, exec (.destroy a) s = .next t ∧ t.slots[a]? = some { x with valid := false } ∧ t.live a = none ∧
        (∀ b, b ≠ a → t.slots[b]? = s.slots[b]?) ∧ t.rsp = ⟨0x00#8, 0#64, 0#64⟩) ∧
    (s.live a = none → exec (.destroy a) s = .next { s with rsp := ⟨0x06#8, 0#64, 0#64⟩ })

/-- 40_register_store R73: `CLEAR` completes with every register 0; precision, alphaMM and the protected array are kept. -/
def Obligations.ClearZeroesRegisters : Prop :=
  ∀ (s : State) (a : Nat),
    (∀ x, s.live a = some x →
      ∃ t y, exec (.clear a) s = .next t ∧ t.live a = some y ∧ (∀ i, y.M.read i = 0#8) ∧ y.prec = x.prec ∧
        y.alphaMM = x.alphaMM ∧ y.P = x.P ∧ t.rsp = ⟨0x00#8, 0#64, 0#64⟩) ∧
    (s.live a = none → exec (.clear a) s = .next { s with rsp := ⟨0x06#8, 0#64, 0#64⟩ })

/-- 40_register_store R74: `REGCOUNT` completes with m = 1 << prec, zero-extended, and changes no slot; the answer is the exact number
for every precision the spec allows. -/
def Obligations.RegcountAnswersRegisterCount : Prop :=
  ∀ (s : State) (a : Nat),
    (∀ x, s.live a = some x → 4 ≤ x.prec → x.prec ≤ 30 →
      ∃ v : Word64, v.toNat = 2 ^ x.prec ∧ exec (.regcount a) s = .next { s with rsp := ⟨0x00#8, v, 0#64⟩ }) ∧
    (s.live a = none → exec (.regcount a) s = .next { s with rsp := ⟨0x06#8, 0#64, 0#64⟩ })

/-- 40_register_store R75: `COUNTER` completes with the element of the selected array, zero-extended, when the index is below m; from m
on it is `IndexOutOfRange`; no slot changes. -/
def Obligations.CounterReadsElement : Prop :=
  ∀ (s : State) (a index : Nat) (sel : ArraySel),
    (∀ x, s.live a = some x → index < 2 ^ x.prec →
      ∃ v : Word64, v.toNat = ((match sel with | .registers => x.M | .protectedRegisters => x.P).read index).toNat ∧
        exec (.counter a sel index) s = .next { s with rsp := ⟨0x00#8, v, 0#64⟩ }) ∧
    (∀ x, s.live a = some x → 2 ^ x.prec ≤ index →
      exec (.counter a sel index) s = .next { s with rsp := ⟨0x04#8, 0#64, 0#64⟩ }) ∧
    (s.live a = none → exec (.counter a sel index) s = .next { s with rsp := ⟨0x06#8, 0#64, 0#64⟩ })

/-- 40_register_store R76: `FLIPBIT` completes with exactly the named bit of the named register toggled and every other bit, register
and the protected array as before, when the index is below m; from m on it is `IndexOutOfRange`. -/
def Obligations.FlipbitTogglesOneBit : Prop :=
  ∀ (s : State) (a index bit : Nat), bit < 8 →
    (∀ x, s.live a = some x → index < 2 ^ x.prec →
      ∃ t y, exec (.flipbit a index bit) s = .next t ∧ t.live a = some y ∧
        (∀ i k, k < 8 → (y.M.read i).getLsbD k =
          if i = index ∧ k = bit then !(x.M.read i).getLsbD k else (x.M.read i).getLsbD k) ∧
        y.prec = x.prec ∧ y.alphaMM = x.alphaMM ∧ y.P = x.P ∧ t.rsp = ⟨0x00#8, 0#64, 0#64⟩) ∧
    (∀ x, s.live a = some x → 2 ^ x.prec ≤ index →
      exec (.flipbit a index bit) s = .next { s with rsp := ⟨0x04#8, 0#64, 0#64⟩ }) ∧
    (s.live a = none → exec (.flipbit a index bit) s = .next { s with rsp := ⟨0x06#8, 0#64, 0#64⟩ })

/-- 40_register_store R76 corner case (c): applying `FLIPBIT` twice with the same operands restores every register. -/
def Obligations.FlipbitTwiceRestores : Prop :=
  ∀ (s : State) (a index bit : Nat) (x : Slot), s.live a = some x → index < 2 ^ x.prec → x.M.wf →
    ∃ t u, exec (.flipbit a index bit) s = .next t ∧ exec (.flipbit a index bit) t = .next u ∧ u.slots = s.slots

/-! ADD -/

/-- 41_add R91, R92, R93: the index is the top p bits of the hash and always below m; the remainder holds the other bits at the top; the
rank is in [1, 33 - p], and is clz32(rem) + 1 in [1, 32 - p] when the remainder is not 0 and 33 - p when it is. -/
def Obligations.HashIndexAndRankInRange : Prop :=
  ∀ (p : Nat) (hash : Word32), 4 ≤ p → p ≤ 30 →
    hashIndex p hash = hash.toNat / 2 ^ (32 - p) ∧ hashIndex p hash < 2 ^ p ∧
    (hashRemainder p hash).toNat = hash.toNat % 2 ^ (32 - p) * 2 ^ p ∧
    (hashRemainder p hash ≠ 0#32 → hashRank p hash = clz32 (hashRemainder p hash) + 1 ∧ hashRank p hash ≤ 32 - p) ∧
    (hashRemainder p hash = 0#32 → hashRank p hash = 33 - p) ∧ 1 ≤ hashRank p hash ∧ hashRank p hash ≤ 33 - p

/-- 41_add R98: the closed form of the rank in the low W = 32 - p bits w of the hash. -/
def Obligations.RankClosedForm : Prop :=
  ∀ (p : Nat) (hash : Word32), 4 ≤ p → p ≤ 30 →
    hashRank p hash =
      if hash.toNat % 2 ^ (32 - p) = 0 then (32 - p) + 1 else (32 - p) - Nat.log2 (hash.toNat % 2 ^ (32 - p))

/-- 41_add R94, R95: `ADD` completes with the selected register raised to the rank if the rank is larger, every other register,
the protected array, the precision and alphaMM as before. Index and rank are said in numbers, through the closed form of R98. -/
def Obligations.AddRaisesSelectedRegister : Prop :=
  ∀ (s : State) (a : Nat) (hash : Word32),
    (∀ x, s.live a = some x → 4 ≤ x.prec → x.prec ≤ 30 →
      ∃ t y rank, exec (.add a hash) s = .next t ∧ t.live a = some y ∧
        (rank = if hash.toNat % 2 ^ (32 - x.prec) = 0 then 33 - x.prec
          else (32 - x.prec) - Nat.log2 (hash.toNat % 2 ^ (32 - x.prec))) ∧
        (∀ i, (y.M.read i).toNat =
          if i = hash.toNat / 2 ^ (32 - x.prec) then max (x.M.read i).toNat rank else (x.M.read i).toNat) ∧
        y.prec = x.prec ∧ y.alphaMM = x.alphaMM ∧ y.P = x.P ∧ t.rsp = ⟨0x00#8, 0#64, 0#64⟩) ∧
    (s.live a = none → exec (.add a hash) s = .next { s with rsp := ⟨0x06#8, 0#64, 0#64⟩ })

/-- 41_add R99 (a): adding the same element twice is adding it once; the second `ADD` leaves the whole state as it is. -/
def Obligations.AddIsIdempotent : Prop :=
  ∀ (s t : State) (a : Nat) (hash : Word32), exec (.add a hash) s = .next t → exec (.add a hash) t = .next t

/-- 41_add R99 (b), (c): after a sequence of `ADD`s every register is the maximum of its start value and the ranks of the hashes that
select it, so the whole state does not depend on the order of the sequence. -/
def Obligations.AddOrderIndependent : Prop :=
  ∀ (s : State) (a : Nat) (x : Slot) (hashes : List Word32), s.live a = some x → 4 ≤ x.prec → x.prec ≤ 30 → x.M.wf →
    (∃ t y, runAll (hashes.map (Instr.add a)) s = .next t ∧ t.live a = some y ∧
      ∀ i, (y.M.read i).toNat =
        ((hashes.filter (fun h => hashIndex x.prec h == i)).map (hashRank x.prec)).foldl max (x.M.read i).toNat) ∧
    (∀ hashes', hashes.Perm hashes' → runAll (hashes'.map (Instr.add a)) s = runAll (hashes.map (Instr.add a)) s)

/-! ESTIMATE -/

/-- 42_estimate R100, R101: `ESTIMATE` completes on every slot that holds an instance, changes no slot, and answers the pattern that the
spec's operation sequence gives: the sum from +0.0 in ascending index, one division, and the three ranges. For a raw estimate of 2^32
or more, where R112 (d) allows any value, keeping to the sequence is the model's choice (DESIGN CHOICE, log entry 14). -/
def Obligations.EstimateFollowsFormula : Prop :=
  ∀ (s : State) (a : Nat) (sel : ArraySel),
    (∀ x A sum raw zeros est, s.live a = some x →
      (A = match sel with | .registers => x.M | .protectedRegisters => x.P) →
      sum = (elementsOf A (2 ^ x.prec)).foldl (fun acc v => fadd acc (pow2neg v)) 0#64 →
      raw = fdiv x.alphaMM sum →
      zeros = ((elementsOf A (2 ^ x.prec)).filter (fun v => v == 0#8)).length →
      est = (if fle raw (fmul 0x4004000000000000#64 (cvt (2 ^ x.prec))) then
          (if 0 < zeros then fmul (cvt (2 ^ x.prec)) (ln (fdiv (cvt (2 ^ x.prec)) (cvt zeros))) else raw)
        else if fgt raw 0x41A1111111111111#64 then
          fmul 0xC1F0000000000000#64 (ln (fsub 0x3FF0000000000000#64 (fdiv raw 0x41F0000000000000#64)))
        else raw) →
      exec (.estimate a sel) s = .next { s with rsp := ⟨0x00#8, est, 0#64⟩ }) ∧
    (s.live a = none → exec (.estimate a sel) s = .next { s with rsp := ⟨0x06#8, 0#64, 0#64⟩ })

/-- 42_estimate R108 corner case (a), with the default `ALPHAMM` table (R103, log entry 6): an array of all zeros estimates +0.0, at
every precision. -/
def Obligations.EmptyArrayEstimatesZero : Prop :=
  ∀ (s : State) (a : Nat) (sel : ArraySel) (x : Slot), s.live a = some x → 4 ≤ x.prec → x.prec ≤ 30 →
    x.alphaMM = alphaOf defaultAlphaTable x.prec →
    (∀ i, i < 2 ^ x.prec → (match sel with | .registers => x.M | .protectedRegisters => x.P).read i = 0#8) →
    exec (.estimate a sel) s = .next { s with rsp := ⟨0x00#8, 0#64, 0#64⟩ }

/-- 42_estimate R111: if every element is at most K and p + K is at most 53, the sum is exact: in units of 2^(-1074) it is the whole
number sum of 2^(1074 - A[i]), whatever the order. -/
def Obligations.HarmonicSumIsExact : Prop :=
  ∀ (A : Memory) (p K : Nat), p ≤ 30 → p + K ≤ 53 → (∀ i, i < 2 ^ p → (A.read i).toNat ≤ K) →
    f64IsFinite (harmonicSum A (2 ^ p)) = true ∧
    f64Value (harmonicSum A (2 ^ p)) = (((elementsOf A (2 ^ p)).map (fun v => 2 ^ (1074 - v.toNat))).sum : Nat)

/-- 42_estimate R106, R107, R112 (a): the sum is a positive finite value between 2^(-251) and 2^30, and the raw estimate is positive
and finite, for every content of the array. -/
def Obligations.SumAndRawStayFinite : Prop :=
  ∀ (A : Memory) (p : Nat) (alphaMM : F64), 4 ≤ p → p ≤ 30 → alphaOk alphaMM = true →
    f64IsFinite (harmonicSum A (2 ^ p)) = true ∧ (2 : Int) ^ 823 ≤ f64Value (harmonicSum A (2 ^ p)) ∧
    f64Value (harmonicSum A (2 ^ p)) ≤ (2 : Int) ^ 1104 ∧
    f64IsFinite (rawEstimate alphaMM A (2 ^ p)) = true ∧ 0 < f64Value (rawEstimate alphaMM A (2 ^ p))

/-- 42_estimate R112 (c): the estimate is never negative and never -inf: it is a NaN or its sign bit is 0. For a raw estimate of 2^32
or more this rests on the model's choice to follow R112 (b) where R112 (d) and 93_implementation_defined U3 allow any value (DESIGN
CHOICE, log entry 14; 90_conflicts C5). -/
def Obligations.EstimateIsNeverNegative : Prop :=
  ∀ (A : Memory) (p : Nat) (alphaMM : F64), 4 ≤ p → p ≤ 30 → alphaOk alphaMM = true →
    f64IsNaN (estimateOf alphaMM A (2 ^ p)) = true ∨ f64Sign (estimateOf alphaMM A (2 ^ p)) = false

/-- 42_estimate R109 (b), (c), R112 (b): where the raw estimate is 2^32 the large-range correction gives +inf, and for a finite raw
estimate above it the engine's NaN. That the model follows R112 (b) in this region, where R112 (d) and 93_implementation_defined U3
allow any value, is its choice (DESIGN CHOICE, log entry 14; 90_conflicts C5). -/
def Obligations.LargeRangeBeyondTwoPow32 : Prop :=
  largeRange 0x41F0000000000000#64 = 0x7FF0000000000000#64 ∧
  ∀ raw : F64, f64IsFinite raw = true → 2 ^ 32 < f64Real raw → largeRange raw = 0x7FF8000000000000#64

/-- 42_estimate R104: `fadd`, `fsub`, `fmul` and `fdiv` of finite operands are the exact real results rounded once, to nearest, ties to
even, with overflow to the infinity of the result's sign (the quotient for a divisor that is not 0; for the divisor 0 see
`DivisionByZeroAndInvalidOperations`). -/
def Obligations.ArithmeticIsCorrectlyRounded : Prop :=
  ∀ x y : F64, f64IsFinite x = true → f64IsFinite y = true →
    CorrectlyRounded (f64Real x + f64Real y) (fadd x y) ∧
    CorrectlyRounded (f64Real x - f64Real y) (fsub x y) ∧
    CorrectlyRounded (f64Real x * f64Real y) (fmul x y) ∧
    (f64Real y ≠ 0 → CorrectlyRounded (f64Real x / f64Real y) (fdiv x y))

/-- 42_estimate R104, the results that are no rounded real number: `x/0` for a finite x that is not 0 is the infinity of the quotient's
sign, and the invalid operations give the engine's quiet NaN (its pattern: 93_implementation_defined U17). Of the invalid operations
here only 0/0 has finite operands; which of those with a NaN or an infinite operand are invalid is taken from IEEE 754 (PRESUMED, log
entry 7). R100 meets one of them only, the product of R109 with LN's NaN, whose result R109 (c) states. -/
def Obligations.DivisionByZeroAndInvalidOperations : Prop :=
  ∀ x y : F64,
    (f64IsFinite x = true → f64IsZero x = false → f64IsZero y = true →
      fdiv x y = if f64Sign x = f64Sign y then 0x7FF0000000000000#64 else 0xFFF0000000000000#64) ∧
    (f64IsZero x = true → f64IsZero y = true → fdiv x y = 0x7FF8000000000000#64) ∧
    (f64IsInf x = true → f64IsInf y = true →
      fdiv x y = 0x7FF8000000000000#64 ∧
      (f64Sign x ≠ f64Sign y → fadd x y = 0x7FF8000000000000#64) ∧
      (f64Sign x = f64Sign y → fsub x y = 0x7FF8000000000000#64)) ∧
    ((f64IsInf x = true ∧ f64IsZero y = true) ∨ (f64IsZero x = true ∧ f64IsInf y = true) → fmul x y = 0x7FF8000000000000#64) ∧
    (f64IsNaN x = true ∨ f64IsNaN y = true →
      fadd x y = 0x7FF8000000000000#64 ∧ fsub x y = 0x7FF8000000000000#64 ∧ fmul x y = 0x7FF8000000000000#64 ∧
      fdiv x y = 0x7FF8000000000000#64)

/-- 42_estimate R104: `cvt(n)` is exact for every whole number up to 2^30, `pow2neg(r)` is exactly 2^(-r) for every r in [0, 255], and
the comparisons of two finite values are the comparisons of the real values. -/
def Obligations.ConversionsAreExact : Prop :=
  (∀ n : Nat, n ≤ 2 ^ 30 → f64IsFinite (cvt n) = true ∧ f64Real (cvt n) = n) ∧
  (∀ r : Byte, f64IsFinite (pow2neg r) = true ∧ f64Real (pow2neg r) = 1 / 2 ^ r.toNat) ∧
  (∀ x y : F64, f64IsFinite x = true → f64IsFinite y = true →
    (fle x y = true ↔ f64Real x ≤ f64Real y) ∧ (fgt x y = true ↔ f64Real y < f64Real x))

/-- 42_estimate R105: the contract L1 to L5 of `LN`, for whichever of the two neighbours the engine gives (`Config.lnRoundsUp` is free):
LN(1) = +0, LN of a zero is -inf, LN of a negative value is the engine's NaN, LN of any other finite positive value is a faithful
rounding of the real logarithm with its sign, LN(+inf) = +inf. -/
def Obligations.LogarithmMeetsContract : Prop :=
  ln 0x3FF0000000000000#64 = 0#64 ∧
  ln 0#64 = 0xFFF0000000000000#64 ∧ ln 0x8000000000000000#64 = 0xFFF0000000000000#64 ∧
  (∀ x : F64, f64IsNaN x = false → f64Value x < 0 → ln x = 0x7FF8000000000000#64) ∧
  (∀ x : F64, f64IsFinite x = true → 0 < f64Real x → f64Real x ≠ 1 →
    Faithful (Real.log (f64Real x)) (ln x) ∧ (1 < f64Real x → 0 < f64Real (ln x)) ∧ (f64Real x < 1 → f64Real (ln x) < 0)) ∧
  ln 0x7FF0000000000000#64 = 0x7FF0000000000000#64

/-! PROTECT -/

/-- 43_protect R124: what the scan computes, stated without the loop, for an array of two or more elements: p1 is the least index of the
minimum of the whole array, p2 the least index of the minimum of the array without p1. -/
def Obligations.ScanFindsTwoSmallest : Prop :=
  ∀ (A : Memory) (m : Nat), 2 ≤ m →
    ∃ p1 p2, (scanFrom A m 0 MinScan.start).p1 = some p1 ∧ (scanFrom A m 0 MinScan.start).p2 = some p2 ∧
      p1 < m ∧ p2 < m ∧ p1 ≠ p2 ∧
      (scanFrom A m 0 MinScan.start).min1 = (A.read p1).toNat ∧ (scanFrom A m 0 MinScan.start).min2 = (A.read p2).toNat ∧
      (∀ i, i < m → (A.read p1).toNat ≤ (A.read i).toNat) ∧ (∀ i, i < p1 → (A.read p1).toNat < (A.read i).toNat) ∧
      (∀ i, i < m → i ≠ p1 → (A.read p2).toNat ≤ (A.read i).toNat) ∧
      (∀ i, i < p2 → i ≠ p1 → (A.read p2).toNat < (A.read i).toNat) ∧
      (scanFrom A m 0 MinScan.start).min1 ≤ (scanFrom A m 0 MinScan.start).min2

/-- 43_protect R120, R121, R123: `PROTECT` completes with `P[a]` a copy of `M[a]`, but that the least index p1 of the minimum takes the
second smallest value when the gap reaches the threshold; `M[a]` is as before. -/
def Obligations.ProtectReplacesLoneMinimum : Prop :=
  ∀ (s : State) (a threshold : Nat),
    (∀ x, s.live a = some x → 4 ≤ x.prec → x.prec ≤ 30 →
      ∃ t y p1 p2, exec (.protect a threshold) s = .next t ∧ t.live a = some y ∧
        p1 < 2 ^ x.prec ∧ p2 < 2 ^ x.prec ∧ p1 ≠ p2 ∧
        (∀ i, i < 2 ^ x.prec → (x.M.read p1).toNat ≤ (x.M.read i).toNat) ∧
        (∀ i, i < p1 → (x.M.read p1).toNat < (x.M.read i).toNat) ∧
        (∀ i, i < 2 ^ x.prec → i ≠ p1 → (x.M.read p2).toNat ≤ (x.M.read i).toNat) ∧
        (∀ i, y.P.read i =
          if i = p1 ∧ threshold ≤ (x.M.read p2).toNat - (x.M.read p1).toNat then x.M.read p2 else x.M.read i) ∧
        y.M = x.M ∧ y.prec = x.prec ∧ y.alphaMM = x.alphaMM ∧ t.rsp = ⟨0x00#8, 0#64, 0#64⟩) ∧
    (s.live a = none → exec (.protect a threshold) s = .next { s with rsp := ⟨0x06#8, 0#64, 0#64⟩ })

/-- 43_protect R123 corner cases (b), (c), (d): with a threshold above 255 `P[a]` is a plain copy of `M[a]`, and so it is whenever the
minimum occurs twice, for every threshold. -/
def Obligations.ProtectPlainCopyCases : Prop :=
  ∀ (s t : State) (a threshold : Nat) (x y : Slot), s.live a = some x → exec (.protect a threshold) s = .next t →
    t.live a = some y → 4 ≤ x.prec →
    255 < threshold ∨ (∃ i j, i < j ∧ j < 2 ^ x.prec ∧ x.M.read i = x.M.read j ∧
      ∀ k, k < 2 ^ x.prec → (x.M.read i).toNat ≤ (x.M.read k).toNat) →
    ∀ k, y.P.read k = x.M.read k

/-! MERGE -/

/-- 44_merge R130, R132: `MERGE` of two instances of one size completes with each register of slot a that is below the matching
register of slot b replaced by combine: under MAX by that register, under OR_IF_LESS by the bitwise OR of the two. -/
def Obligations.MergeCombinesElements : Prop :=
  ∀ (s : State) (a b : Nat) (x y : Slot), s.live a = some x → s.live b = some y → x.prec = y.prec →
    ∃ t z, exec (.merge a b) s = .next t ∧ t.live a = some z ∧
      (∀ i, i < 2 ^ x.prec → z.M.read i =
        if (x.M.read i).toNat < (y.M.read i).toNat then
          (match s.mergeOp with | .max => y.M.read i | .orIfLess => x.M.read i ||| y.M.read i)
        else x.M.read i) ∧
      z.prec = x.prec ∧ z.alphaMM = x.alphaMM ∧ z.P = x.P ∧ (∀ c, c ≠ a → t.slots[c]? = s.slots[c]?) ∧
      t.rsp = ⟨0x00#8, 0#64, 0#64⟩

/-- 44_merge R131: with different register counts `MERGE` ends with `SizeMismatch`, both sizes in aux, and nothing else changed; an
empty slot on either side is `NoInstance` before that. -/
def Obligations.MergeSizeMismatch : Prop :=
  ∀ (s : State) (a b : Nat),
    (∀ x y, s.live a = some x → s.live b = some y → 4 ≤ x.prec → x.prec ≤ 30 → 4 ≤ y.prec → y.prec ≤ 30 → x.prec ≠ y.prec →
      ∃ aux : Word64, (aux.extractLsb' 0 32).toNat = 2 ^ x.prec ∧ (aux.extractLsb' 32 32).toNat = 2 ^ y.prec ∧
        exec (.merge a b) s = .next { s with rsp := ⟨0x02#8, 0#64, aux⟩ }) ∧
    (s.live a = none ∨ s.live b = none → exec (.merge a b) s = .next { s with rsp := ⟨0x06#8, 0#64, 0#64⟩ })

/-- 44_merge R134: merging an estimator into itself is a no-op for both values of MERGE_OP: only the response changes. -/
def Obligations.SelfMergeIsNoOp : Prop :=
  ∀ (s : State) (a : Nat) (x : Slot), s.live a = some x →
    exec (.merge a a) s = .next { s with rsp := ⟨0x00#8, 0#64, 0#64⟩ }

/-- 44_merge R133 (a), (b), (c), (d), under MAX: `MERGE a, b` then `MERGE b, a` leave both arrays equal to the elementwise maximum of
the two arrays before, no element lowered, and a repeated `MERGE a, b` leaves the slots as they are. -/
def Obligations.MergeIsCommutativeAndIdempotent : Prop :=
  ∀ (s : State) (a b : Nat) (x y : Slot), s.mergeOp = .max → a ≠ b → s.live a = some x → s.live b = some y → x.prec = y.prec →
    ∃ t u v p q, exec (.merge a b) s = .next t ∧ exec (.merge b a) t = .next u ∧ exec (.merge a b) t = .next v ∧
      u.live a = some p ∧ u.live b = some q ∧
      (∀ i, i < 2 ^ x.prec → (p.M.read i).toNat = max (x.M.read i).toNat (y.M.read i).toNat ∧
        (q.M.read i).toNat = max (x.M.read i).toNat (y.M.read i).toNat) ∧
      v.slots = t.slots

/-- 44_merge R133 (f), under MAX: merging the array of one sequence of `ADD`s with the array of another gives the array of all of them. -/
def Obligations.MergeIsUnion : Prop :=
  ∀ (s : State) (a b : Nat) (x y : Slot) (X Y : List Word32), s.mergeOp = .max → a ≠ b → s.live a = some x → s.live b = some y →
    x.prec = y.prec → 4 ≤ x.prec → x.prec ≤ 30 → x.M = [] → y.M = [] →
    ∃ t u p q, runAll (X.map (Instr.add a) ++ Y.map (Instr.add b) ++ [Instr.merge a b]) s = .next t ∧
      runAll ((X ++ Y).map (Instr.add a)) s = .next u ∧ t.live a = some p ∧ u.live a = some q ∧ p.M = q.M

/-! DUMP and RESTORE -/

/-- 45_persistence R141, R142: `DUMP` completes with the precision byte and the m registers in ascending index appended to the sink's
output when the sink accepts that many, and answers their number; when the sink fails after k bytes, the first k of them stay in the
sink and the answer is `IoError` with value k. No slot changes either way. -/
def Obligations.DumpWritesLayout : Prop :=
  ∀ (s : State) (a : Nat) (x : Slot), s.live a = some x → 4 ≤ x.prec → x.prec ≤ 30 →
    ((∀ k, s.sinkPlan.accept = some k → 1 + 2 ^ x.prec ≤ k) →
      ∃ n : Word64, n.toNat = 1 + 2 ^ x.prec ∧
        exec (.dump a) s = .next { s with
          sinkOut := s.sinkOut ++ BitVec.ofNat 8 x.prec :: elementsOf x.M (2 ^ x.prec), rsp := ⟨0x00#8, n, 0#64⟩ }) ∧
    (∀ k, s.sinkPlan.accept = some k → k < 1 + 2 ^ x.prec → s.sinkPlan.ending = .fails →
      ∃ n : Word64, n.toNat = k ∧
        exec (.dump a) s = .next { s with
          sinkOut := s.sinkOut ++ (BitVec.ofNat 8 x.prec :: elementsOf x.M (2 ^ x.prec)).take k, rsp := ⟨0x03#8, n, 0#64⟩ })

/-- 45_persistence R143, R144, R145, R146: `RESTORE` completes when the source holds a precision byte in [4,30] and at least that many
register bytes: the slot takes the precision, its alphaMM, the bytes as read and a zero protected array, and the source loses exactly
those bytes. Otherwise no slot changes: `IoError` with the bytes consumed when the source runs out, `InvalidArgument` with value 1
for a precision byte out of range. -/
def Obligations.RestoreReplacesInstance : Prop :=
  ∀ (s : State) (a : Nat) (x : Slot), s.live a = some x →
    (∀ q bytes rest, s.source.bytes = q :: (bytes ++ rest) → 4 ≤ q.toNat → q.toNat ≤ 30 → bytes.length = 2 ^ q.toNat →
      ∃ t y, exec (.restore a) s = .next t ∧ t.live a = some y ∧ y.prec = q.toNat ∧ y.alphaMM = s.alphamm q.toNat ∧
        elementsOf y.M (2 ^ q.toNat) = bytes ∧ (∀ i, y.P.read i = 0#8) ∧ t.source = { s.source with bytes := rest } ∧
        t.rsp.status = 0x00#8 ∧ t.rsp.value.toNat = 1 + 2 ^ q.toNat ∧ t.rsp.aux = 0#64) ∧
    (s.source.bytes = [] → s.source.ending = .fails →
      exec (.restore a) s = .next { s with rsp := ⟨0x03#8, 0#64, 0#64⟩ }) ∧
    (∀ q bytes, s.source.bytes = q :: bytes → s.source.ending = .fails → 4 ≤ q.toNat → q.toNat ≤ 30 →
      bytes.length < 2 ^ q.toNat →
      ∃ n : Word64, n.toNat = 1 + bytes.length ∧
        exec (.restore a) s = .next { s with source := { s.source with bytes := [] }, rsp := ⟨0x03#8, n, 0#64⟩ }) ∧
    (∀ q bytes, s.source.bytes = q :: bytes → q.toNat < 4 ∨ 30 < q.toNat →
      exec (.restore a) s = .next { s with source := { s.source with bytes := bytes }, rsp := ⟨0x01#8, 1#64, 0#64⟩ })

/-- 45_persistence R147: the bytes of a successful `DUMP a`, put at the head of the source, make `RESTORE c` succeed on any valid slot c
of the state after the dump, and reproduce precision, registers and alphaMM, with a zero protected array; `ESTIMATE c` then equals
`ESTIMATE a` bit for bit. -/
def Obligations.DumpRestoreRoundTrip : Prop :=
  ∀ (s t : State) (a c : Nat) (x y : Slot) (rest : List Byte) (ending : StreamEnding), s.Inv → s.live a = some x →
    s.live c = some y → exec (.dump a) s = .next t → t.rsp.status = 0x00#8 →
    ∃ u z v w, exec (.restore c) { t with source := ⟨t.sinkOut.drop s.sinkOut.length ++ rest, ending⟩ } = .next u ∧
      u.rsp.status = 0x00#8 ∧ u.live c = some z ∧ z.prec = x.prec ∧ z.M = x.M ∧ z.alphaMM = x.alphaMM ∧
      (∀ i, z.P.read i = 0#8) ∧ u.source.bytes = rest ∧
      exec (.estimate a .registers) t = .next v ∧ exec (.estimate c .registers) u = .next w ∧ w.rsp = v.rsp

/-- 20_memory R40, 45_persistence R148: a stream that is asked and neither answers nor fails leaves the engine inside the command for
ever: the model's named stop, and never a completion. -/
def Obligations.UnansweredStreamNeverCompletes : Prop :=
  ∀ (s : State) (a : Nat) (x : Slot), s.live a = some x →
    (∀ k, s.sinkPlan.accept = some k → k < 1 + 2 ^ x.prec → s.sinkPlan.ending = .unanswered →
      exec (.dump a) s = .fault .sinkUnanswered) ∧
    (s.source.bytes = [] → s.source.ending = .unanswered → exec (.restore a) s = .fault .sourceUnanswered) ∧
    (∀ q bytes, s.source.bytes = q :: bytes → s.source.ending = .unanswered → 4 ≤ q.toNat → q.toNat ≤ 30 →
      bytes.length < 2 ^ q.toNat → exec (.restore a) s = .fault .sourceUnanswered)

/-- 45_persistence R148: if every stream call is answered, every step completes, in every state. -/
def Obligations.EveryCommandTerminates : Prop :=
  ∀ s : State, s.source.ending = .fails → s.sinkPlan.ending = .fails →
    (∀ i : Instr, ∃ t, exec i s = .next t) ∧ ∃ t, step s = .next t

/-! Errors -/

/-- 60_exceptions R163: an error changes no slot, and outside the slots only `RSP`, the sink of a `DUMP` and the source of a `RESTORE`
change; said of every command word, legal or not. -/
def Obligations.ErrorChangesNoSlot : Prop :=
  ∀ (s t : State) (w : Word64) (rest : List HostAction), s.pending = .command w :: rest → step s = .next t →
    t.rsp.status ≠ 0x00#8 →
    t.slots = s.slots ∧ t.mergeOp = s.mergeOp ∧ t.alphaTable = s.alphaTable ∧ t.sinkPlan = s.sinkPlan ∧ t.pending = rest ∧
    ((∀ a, decode w ≠ .ok (.dump a)) → t.sinkOut = s.sinkOut) ∧ ((∀ a, decode w ≠ .ok (.restore a)) → t.source = s.source)

/-- 60_exceptions R161: a command that decodes ends with no status but those its row of the table marks as possible. -/
def Obligations.StatusesOfEachCommand : Prop :=
  ∀ (s t : State) (i : Instr), exec i s = .next t →
    t.rsp.status ∈
      (match i with
      | .create _ _ => [0x00#8, 0x01#8, 0x06#8]
      | .destroy _ | .clear _ | .regcount _ | .add _ _ | .estimate _ _ | .protect _ _ => [0x00#8, 0x06#8]
      | .counter _ _ _ | .flipbit _ _ _ => [0x00#8, 0x04#8, 0x06#8]
      | .merge _ _ => [0x00#8, 0x02#8, 0x06#8]
      | .dump _ => [0x00#8, 0x03#8, 0x06#8]
      | .restore _ => [0x00#8, 0x01#8, 0x03#8, 0x06#8])

/-- 60_exceptions R162: the first failing check decides. An undecodable word is `IllegalCommand` whatever slot or operand it names; a
slot that holds no instance is `NoInstance` before any argument or stream is looked at, for `CREATE` a slot id of N_INST or more;
slot b of `MERGE` comes after slot a and before the sizes; a precision byte out of range is reported though the source would have
failed later. -/
def Obligations.FirstFailingCheckDecides : Prop :=
  ∀ s : State,
    (∀ (w : Word64) (rest : List HostAction), s.pending = .command w :: rest → (∀ i, decode w ≠ .ok i) →
      step s = .next { s with pending := rest, rsp := ⟨0x05#8, 0#64, 0#64⟩ }) ∧
    (∀ a p, s.nInst ≤ a → exec (.create a p) s = .next { s with rsp := ⟨0x06#8, 0#64, 0#64⟩ }) ∧
    (∀ i : Instr, (∀ a p, i ≠ .create a p) → s.live (slotOf i) = none →
      exec i s = .next { s with rsp := ⟨0x06#8, 0#64, 0#64⟩ }) ∧
    (∀ a b, s.live b = none → exec (.merge a b) s = .next { s with rsp := ⟨0x06#8, 0#64, 0#64⟩ }) ∧
    (∀ a x q bytes, s.live a = some x → s.source.bytes = q :: bytes → q.toNat < 4 ∨ 30 < q.toNat →
      exec (.restore a) s = .next { s with source := { s.source with bytes := bytes }, rsp := ⟨0x01#8, 1#64, 0#64⟩ })

/-! Frames and whole-machine rules -/

/-- 10_state R22: slots share nothing. A command that completes changes no slot but the one its field a names, never the number of
slots, the configuration, the host's list or the sink's plan; only `RESTORE` takes bytes from the source and only `DUMP` gives bytes
to the sink. -/
def Obligations.OnlyTheNamedSlotChanges : Prop :=
  ∀ (s t : State) (i : Instr), exec i s = .next t →
    (∀ b, b ≠ slotOf i → t.slots[b]? = s.slots[b]?) ∧ SameSetting s t ∧
    ((∀ a, i ≠ .restore a) → t.source = s.source) ∧ ((∀ a, i ≠ .dump a) → t.sinkOut = s.sinkOut)

/-- 20_memory R37, 42_estimate R100, 45_persistence R141: `REGCOUNT`, `COUNTER`, `ESTIMATE` and `DUMP` change no slot at all, whatever
status they end with, and the first three change nothing but the response. -/
def Obligations.ReadingCommandsChangeNoSlot : Prop :=
  ∀ (s t : State) (a index : Nat) (sel : ArraySel),
    (exec (.regcount a) s = .next t → t = { s with rsp := t.rsp }) ∧
    (exec (.counter a sel index) s = .next t → t = { s with rsp := t.rsp }) ∧
    (exec (.estimate a sel) s = .next t → t = { s with rsp := t.rsp }) ∧
    (exec (.dump a) s = .next t → t = { s with rsp := t.rsp, sinkOut := t.sinkOut } ∧ ∃ bs, t.sinkOut = s.sinkOut ++ bs)

/-- The frame of the commands that store to `M[a]` (20_memory R30, R35; 10_state R15): `CLEAR`, `FLIPBIT`, `ADD` and `MERGE` change
of every slot only registers, `FLIPBIT` only register `index` of slot a, `ADD` only register `hashIndex` of slot a, `MERGE` only
registers below m of slot a that are below the matching register of slot b, `CLEAR` only those of slot a. Valid bit, precision,
alphaMM and the protected array of every slot are as before. -/
def Obligations.RegisterStoreFrame : Prop :=
  ∀ (s t : State) (i : Instr), exec i s = .next t →
    (∃ a, i = .clear a) ∨ (∃ a index bit, i = .flipbit a index bit) ∨ (∃ a hash, i = .add a hash) ∨ (∃ a b, i = .merge a b) →
    ∀ (c : Nat) (x y : Slot), s.slots[c]? = some x → t.slots[c]? = some y →
      y.valid = x.valid ∧ y.prec = x.prec ∧ y.alphaMM = x.alphaMM ∧ y.P = x.P ∧
      ∀ k, y.M.read k ≠ x.M.read k →
        c = slotOf i ∧
        (match i with
        | .flipbit _ index _ => k = index
        | .add _ hash => k = hashIndex x.prec hash
        | .merge _ b => k < x.m ∧ ∃ z, s.live b = some z ∧ (x.M.read k).toNat < (z.M.read k).toNat
        | _ => True)

/-- The frame of the commands that store to `P[a]` or to a whole slot (10_state R16, 43_protect R125, 40_register_store R71, R72): of every
slot but a nothing changes; `PROTECT` leaves valid bit, precision, alphaMM and registers of slot a, `DESTROY` everything of slot a
but the valid bit. That `DESTROY` keeps the other fields of slot a, which R72 calls unobservable, is the model's choice (DESIGN CHOICE,
log entry 15). -/
def Obligations.ProtectAndLifecycleFrame : Prop :=
  ∀ (s t : State) (a n : Nat) (c : Nat) (x y : Slot), s.slots[c]? = some x → t.slots[c]? = some y →
    (exec (.protect a n) s = .next t → y.valid = x.valid ∧ y.prec = x.prec ∧ y.alphaMM = x.alphaMM ∧ y.M = x.M ∧
      (c ≠ a → y.P = x.P)) ∧
    (exec (.destroy a) s = .next t → y.prec = x.prec ∧ y.alphaMM = x.alphaMM ∧ y.M = x.M ∧ y.P = x.P ∧
      (c ≠ a → y.valid = x.valid)) ∧
    (exec (.create a n) s = .next t → c ≠ a → y = x) ∧ (exec (.restore a) s = .next t → c ≠ a → y = x)

/-- 10_state R18: every step keeps the invariant: the configuration stays an allowed one, the status a code of R160, both arrays of every
slot in canonical form, and (I-a) to (I-d) hold of every valid slot. -/
def Obligations.InvariantKeptByEveryStep : Prop :=
  ∀ s t : State, s.Inv → step s = .next t → t.Inv

/-- The invariant holds after reset, for the default parameters (70_reset_and_hazards R190; log entries 1 and 2). -/
def Obligations.InvariantHoldsAtReset : Prop := State.reset.Inv

/-- 10_state R20: from a state whose registers are all within [0, 33 - prec], every command but `FLIPBIT` and `RESTORE` keeps them there,
under MERGE_OP = MAX. -/
def Obligations.RegistersStayWithinRank : Prop :=
  ∀ (s t : State) (i : Instr), s.Inv → s.mergeOp = .max → RegistersWithinRank s →
    (∀ a index bit, i ≠ .flipbit a index bit) → (∀ a, i ≠ .restore a) → exec i s = .next t → RegistersWithinRank t

/-- 10_state R21: `ADD` and `MERGE` never lower any register, under either value of MERGE_OP. -/
def Obligations.AddAndMergeNeverLower : Prop :=
  ∀ (s t : State) (i : Instr), (∃ a hash, i = .add a hash) ∨ (∃ a b, i = .merge a b) → exec i s = .next t →
    ∀ (c : Nat) (x y : Slot), s.slots[c]? = some x → t.slots[c]? = some y → ∀ k, (x.M.read k).toNat ≤ (y.M.read k).toNat

/-- 10_state R17: `RSP` is never an input to a command, and every command overwrites all of it: from two states that differ only in the
response, a command word gives one and the same outcome. -/
def Obligations.ResponseFeedsNoCommand : Prop :=
  ∀ (s : State) (w : Word64) (rest : List HostAction) (r : Response), s.pending = .command w :: rest →
    step { s with rsp := r } = step s

/-- 70_reset_and_hazards R190, 10_state R12: what an invalid slot holds cannot be observed: from two states that differ at most in the
fields of slots that hold no instance, a step gives states that again differ at most there, with the same response and sink output,
or stops for the same reason. -/
def Obligations.InvalidSlotsAreUnobservable : Prop :=
  ∀ s t : State, SameVisible s t →
    (∀ s', step s = .next s' → ∃ t', step t = .next t' ∧ SameVisible s' t') ∧ (∀ f, step s = .fault f → step t = .fault f)
end

