-- ==== Sys2Proof/Laws/Binary64.lean ====
section
/-! SUPPORT. The laws of the binary64 patterns: the units of a magnitude, that magnitudes rise with their bits, the fields of a packed
pattern, and the place of a rounded magnitude among the others. -/

namespace Sys2Proof.Machine

/-- The units of 2^(-1074) that the bits 62:0 of a pattern stand for. -/
def magUnits (bits : Nat) : Nat :=
  if bits / 2 ^ 52 = 0 then bits % 2 ^ 52 else (2 ^ 52 + bits % 2 ^ 52) * 2 ^ (bits / 2 ^ 52 - 1)

/-- The bits 62:0 of a pattern. -/
def f64Mag (x : F64) : Nat := x.toNat % 2 ^ 63

theorem f64Mag_lt (x : F64) : f64Mag x < 2 ^ 63 := Nat.mod_lt _ (by norm_num)

theorem f64Exp_eq (x : F64) : f64Exp x = f64Mag x / 2 ^ 52 := by
  unfold f64Exp f64Mag
  omega

theorem f64Frac_eq (x : F64) : f64Frac x = f64Mag x % 2 ^ 52 := by
  unfold f64Frac f64Mag
  omega

theorem f64Units_eq (x : F64) : f64Units x = magUnits (f64Mag x) := by
  unfold f64Units magUnits
  rw [f64Exp_eq, f64Frac_eq]

theorem f64Sign_eq (x : F64) : f64Sign x = decide (2 ^ 63 ≤ x.toNat) := by
  simp [f64Sign, BitVec.msb_eq_decide]

theorem toNat_eq_sign_mag (x : F64) : x.toNat = (if f64Sign x then 2 ^ 63 else 0) + f64Mag x := by
  have := x.isLt
  rw [f64Sign_eq]
  unfold f64Mag
  by_cases h : 2 ^ 63 ≤ x.toNat
  · simp only [h, decide_true, if_true]; omega
  · simp only [h, decide_false, Bool.false_eq_true, if_false]; omega

theorem f64IsFinite_eq (x : F64) : f64IsFinite x = decide (f64Mag x < f64InfBits) := by
  have := f64Mag_lt x
  unfold f64IsFinite f64InfBits
  rw [f64Exp_eq, Bool.eq_iff_iff]
  simp only [bne_iff_ne, decide_eq_true_eq]
  omega

theorem f64IsNaN_eq (x : F64) : f64IsNaN x = decide (f64InfBits < f64Mag x) := by
  have := f64Mag_lt x
  unfold f64IsNaN f64InfBits
  rw [f64Exp_eq, f64Frac_eq, Bool.eq_iff_iff]
  simp only [Bool.and_eq_true, beq_iff_eq, bne_iff_ne, decide_eq_true_eq]
  omega

theorem f64IsInf_eq (x : F64) : f64IsInf x = decide (f64Mag x = f64InfBits) := by
  have := f64Mag_lt x
  unfold f64IsInf f64InfBits
  rw [f64Exp_eq, f64Frac_eq, Bool.eq_iff_iff]
  simp only [Bool.and_eq_true, beq_iff_eq, decide_eq_true_eq]
  omega

theorem f64IsZero_eq (x : F64) : f64IsZero x = decide (f64Mag x = 0) := by
  unfold f64IsZero
  rw [f64Exp_eq, f64Frac_eq, Bool.eq_iff_iff]
  simp only [Bool.and_eq_true, beq_iff_eq, decide_eq_true_eq]
  omega

theorem f64Pack_toNat {sign : Bool} {bits : Nat} (h : bits < 2 ^ 63) :
    (f64Pack sign bits).toNat = (if sign then 2 ^ 63 else 0) + bits := by
  unfold f64Pack
  rw [BitVec.toNat_ofNat]
  cases sign
  · simp; omega
  · simp only [if_true]; omega

@[simp] theorem f64Sign_pack {sign : Bool} {bits : Nat} (h : bits < 2 ^ 63) : f64Sign (f64Pack sign bits) = sign := by
  rw [f64Sign_eq, f64Pack_toNat h]
  cases sign
  · simp; omega
  · simp

@[simp] theorem f64Mag_pack {sign : Bool} {bits : Nat} (h : bits < 2 ^ 63) : f64Mag (f64Pack sign bits) = bits := by
  unfold f64Mag
  rw [f64Pack_toNat h]
  cases sign
  · simp; omega
  · simp; omega

theorem f64_eq_pack (x : F64) : x = f64Pack (f64Sign x) (f64Mag x) := by
  apply BitVec.eq_of_toNat_eq
  rw [f64Pack_toNat (f64Mag_lt x)]
  exact toNat_eq_sign_mag x

/-- The units of q last places of 2^u units each, also when q carries into the next exponent. -/
theorem magUnits_place {u q : Nat} (h : u = 0 ∨ 2 ^ 52 ≤ q) (hq : q ≤ 2 ^ 53) : magUnits (u * 2 ^ 52 + q) = q * 2 ^ u := by
  unfold magUnits
  rcases Nat.lt_or_ge q (2 ^ 52) with h1 | h1
  · have hu : u = 0 := by omega
    subst hu
    rw [if_pos (by omega), Nat.pow_zero]
    omega
  · rcases Nat.lt_or_ge q (2 ^ 53) with h2 | h2
    · have hd : (u * 2 ^ 52 + q) / 2 ^ 52 = u + 1 := by omega
      have hm : (u * 2 ^ 52 + q) % 2 ^ 52 = q - 2 ^ 52 := by omega
      rw [hd, hm, if_neg (by omega), Nat.add_sub_cancel, show 2 ^ 52 + (q - 2 ^ 52) = q by omega]
    · have hq' : q = 2 ^ 53 := by omega
      subst hq'
      have hd : (u * 2 ^ 52 + 2 ^ 53) / 2 ^ 52 = u + 2 := by omega
      have hm : (u * 2 ^ 52 + 2 ^ 53) % 2 ^ 52 = 0 := by omega
      rw [hd, hm, if_neg (by omega), show u + 2 - 1 = u + 1 by omega, pow_succ 2 u]
      generalize 2 ^ u = k
      omega

/-- Every magnitude is a number of last places. -/
theorem magUnits_split (bits : Nat) :
    ∃ u q, bits = u * 2 ^ 52 + q ∧ (u = 0 ∨ 2 ^ 52 ≤ q) ∧ q < 2 ^ 53 := by
  refine ⟨bits / 2 ^ 52 - 1, bits - (bits / 2 ^ 52 - 1) * 2 ^ 52, ?_, ?_, ?_⟩ <;> omega

/-- The gap to the next magnitude is one last place. -/
theorem magUnits_succ (bits : Nat) : magUnits (bits + 1) = magUnits bits + 2 ^ (bits / 2 ^ 52 - 1) := by
  obtain ⟨u, q, rfl, h, hq⟩ := magUnits_split bits
  have hu : (u * 2 ^ 52 + q) / 2 ^ 52 - 1 = u := by omega
  rw [hu, show u * 2 ^ 52 + q + 1 = u * 2 ^ 52 + (q + 1) by ring, magUnits_place (by omega) (by omega),
    magUnits_place h (by omega)]
  ring

/-- Magnitudes rise with their bits. -/
theorem magUnits_strictMono : StrictMono magUnits :=
  strictMono_nat_of_lt_succ fun n => by
    rw [magUnits_succ]
    have : 0 < 2 ^ (n / 2 ^ 52 - 1) := by positivity
    omega

theorem magUnits_le_iff {b c : Nat} : magUnits b ≤ magUnits c ↔ b ≤ c := magUnits_strictMono.le_iff_le

theorem magUnits_lt_iff {b c : Nat} : magUnits b < magUnits c ↔ b < c := magUnits_strictMono.lt_iff_lt

@[simp] theorem magUnits_zero : magUnits 0 = 0 := by decide

/-- The last place fits: a magnitude of v units is between 2^52 and 2^53 last places of 2^(ulpShift v) units, or all units count. -/
theorem ulpShift_spec (v : Nat) : v / 2 ^ ulpShift v < 2 ^ 53 ∧ (ulpShift v = 0 ∨ 2 ^ 52 ≤ v / 2 ^ ulpShift v) := by
  unfold ulpShift
  by_cases hv : v = 0
  · subst hv; simp
  · have hlo := Nat.log2_self_le hv
    have hhi : v < 2 ^ (v.log2 + 1) := Nat.lt_log2_self
    constructor
    · rw [Nat.div_lt_iff_lt_mul (by positivity), ← pow_add]
      exact lt_of_lt_of_le hhi (Nat.pow_le_pow_right (by norm_num) (by omega))
    · by_cases h : v.log2 - 52 = 0
      · exact .inl h
      · right
        rw [Nat.le_div_iff_mul_le (by positivity), ← pow_add, show 52 + (v.log2 - 52) = v.log2 by omega]
        exact hlo

/-- What the whole number of last places of n/d units is worth, and that the next one is too many. -/
theorem floorUnits_spec {n d : Nat} (hd : 0 < d) :
    magUnits (floorUnits n d) * d ≤ n ∧ n < magUnits (floorUnits n d + 1) * d ∧
      magUnits (floorUnits n d) = n / (d * 2 ^ ulpShift (n / d)) * 2 ^ ulpShift (n / d) ∧
      magUnits (floorUnits n d + 1) = (n / (d * 2 ^ ulpShift (n / d)) + 1) * 2 ^ ulpShift (n / d) := by
  obtain ⟨h1, h2⟩ := ulpShift_spec (n / d)
  rw [Nat.div_div_eq_div_mul] at h1 h2
  have hf : magUnits (floorUnits n d) = n / (d * 2 ^ ulpShift (n / d)) * 2 ^ ulpShift (n / d) :=
    magUnits_place h2 (by omega)
  have hc : magUnits (floorUnits n d + 1) = (n / (d * 2 ^ ulpShift (n / d)) + 1) * 2 ^ ulpShift (n / d) := by
    rw [floorUnits, add_assoc]
    exact magUnits_place (by omega) (by omega)
  refine ⟨?_, ?_, hf, hc⟩
  · rw [hf, mul_assoc, mul_comm (2 ^ _) d]
    exact Nat.div_mul_le_self _ _
  · rw [hc, mul_assoc, mul_comm (2 ^ _) d]
    exact Nat.lt_mul_of_div_lt (Nat.lt_succ_self _) (by positivity)

/-- The bits of floorUnits are the largest whose magnitude is at most n/d units. -/
theorem le_floorUnits_iff {n d b : Nat} (hd : 0 < d) : b ≤ floorUnits n d ↔ magUnits b * d ≤ n := by
  obtain ⟨h1, h2, -, -⟩ := floorUnits_spec (n := n) hd
  constructor
  · intro h
    exact le_trans (Nat.mul_le_mul_right d (magUnits_le_iff.mpr h)) h1
  · intro h
    by_contra hlt
    have : magUnits (floorUnits n d + 1) ≤ magUnits b := magUnits_le_iff.mpr (by omega)
    exact absurd (lt_of_lt_of_le h2 (Nat.mul_le_mul_right d this)) (not_lt.mpr h)

/-- The bits of ceilUnits are the smallest whose magnitude is at least n/d units. -/
theorem ceilUnits_le_iff {n d b : Nat} (hd : 0 < d) : ceilUnits n d ≤ b ↔ n ≤ magUnits b * d := by
  obtain ⟨h1, h2, h3, -⟩ := floorUnits_spec (n := n) hd
  unfold ceilUnits
  by_cases hr : n % (d * 2 ^ ulpShift (n / d)) = 0
  · have he : magUnits (floorUnits n d) * d = n := by
      rw [h3, mul_assoc, mul_comm (2 ^ _) d]
      exact Nat.div_mul_cancel (Nat.dvd_of_mod_eq_zero hr)
    rw [if_pos hr, add_zero]
    constructor
    · intro h
      rw [← he]
      exact Nat.mul_le_mul_right d (magUnits_le_iff.mpr h)
    · intro h
      rw [← he] at h
      exact magUnits_le_iff.mp (Nat.le_of_mul_le_mul_right h hd)
  · have hlt : magUnits (floorUnits n d) * d < n := by
      refine lt_of_le_of_ne h1 fun he => hr ?_
      have h4 : n / (d * 2 ^ ulpShift (n / d)) * (d * 2 ^ ulpShift (n / d)) = n := by
        rw [mul_comm d (2 ^ _), ← mul_assoc, mul_comm (2 ^ _) d, ← h3, he]
      exact Nat.mod_eq_zero_of_dvd (Dvd.intro_left _ h4)
    rw [if_neg hr]
    constructor
    · intro h
      exact le_trans h2.le (Nat.mul_le_mul_right d (magUnits_le_iff.mpr h))
    · intro h
      by_contra hn
      have : magUnits b ≤ magUnits (floorUnits n d) := magUnits_le_iff.mpr (by omega)
      exact absurd (lt_of_lt_of_le hlt h) (not_lt.mpr (Nat.mul_le_mul_right d this))

theorem nearestQuotient_cases (n place : Nat) :
    (nearestQuotient n place = n / place ∧ 2 * (n % place) ≤ place) ∨
      (nearestQuotient n place = n / place + 1 ∧ place ≤ 2 * (n % place)) := by
  unfold nearestQuotient
  split
  · right; refine ⟨rfl, ?_⟩; omega
  · left; refine ⟨rfl, ?_⟩; omega

/-- Rounding to nearest: the result is the magnitude just below n/d units or the one above it, whichever is nearer, and on a tie the
one whose last bit is 0; from the largest finite magnitude upwards by half a last place it is infinity. -/
theorem roundUnits_spec {n d : Nat} (hd : 0 < d) :
    ∃ b, roundUnits n d = min b f64InfBits ∧
      ((b = floorUnits n d ∧ 2 * n ≤ (magUnits (floorUnits n d) + magUnits (floorUnits n d + 1)) * d) ∨
        (b = floorUnits n d + 1 ∧ (magUnits (floorUnits n d) + magUnits (floorUnits n d + 1)) * d ≤ 2 * n)) ∧
      (2 * n = (magUnits (floorUnits n d) + magUnits (floorUnits n d + 1)) * d → b % 2 = 0) := by
  obtain ⟨-, -, h3, h4⟩ := floorUnits_spec (n := n) hd
  have hsum : (magUnits (floorUnits n d) + magUnits (floorUnits n d + 1)) * d =
      2 * (n / (d * 2 ^ ulpShift (n / d)) * (d * 2 ^ ulpShift (n / d))) + d * 2 ^ ulpShift (n / d) := by
    rw [h3, h4]; ring
  have hdm := Nat.div_add_mod n (d * 2 ^ ulpShift (n / d))
  rw [mul_comm] at hdm
  refine ⟨ulpShift (n / d) * 2 ^ 52 + nearestQuotient n (d * 2 ^ ulpShift (n / d)), rfl, ?_, ?_⟩
  · rcases nearestQuotient_cases n (d * 2 ^ ulpShift (n / d)) with ⟨h, hr⟩ | ⟨h, hr⟩
    · left
      rw [h, hsum, floorUnits]
      exact ⟨by rfl, by omega⟩
    · right
      rw [h, hsum, floorUnits]
      exact ⟨by omega, by omega⟩
  · rw [hsum]
    intro ht
    have hr : 2 * (n % (d * 2 ^ ulpShift (n / d))) = d * 2 ^ ulpShift (n / d) := by omega
    unfold nearestQuotient
    split <;> omega

theorem roundUnits_le (n d : Nat) : roundUnits n d ≤ f64InfBits := min_le_right _ _

theorem roundUnits_lt (n d : Nat) : roundUnits n d < 2 ^ 63 :=
  lt_of_le_of_lt (roundUnits_le n d) (by unfold f64InfBits; norm_num)

/-- A magnitude that is representable is not changed by rounding. -/
theorem roundUnits_exact {n d b : Nat} (hd : 0 < d) (hn : n = magUnits b * d) (hb : b ≤ f64InfBits) : roundUnits n d = b := by
  have hf : floorUnits n d = b := by
    apply le_antisymm
    · have := (floorUnits_spec (n := n) hd).1
      rw [hn] at this
      have h := magUnits_le_iff.mp (Nat.le_of_mul_le_mul_right this hd)
      rwa [hn]
    · exact (le_floorUnits_iff hd).mpr hn.ge
  obtain ⟨b', h1, h2, -⟩ := roundUnits_spec (n := n) hd
  rw [hf] at h2
  have hlt : magUnits b < magUnits (b + 1) := magUnits_lt_iff.mpr (by omega)
  rcases h2 with ⟨rfl, -⟩ | ⟨-, h⟩
  · rw [h1, min_eq_left hb]
  · exfalso
    have h5 : magUnits b * d < magUnits (b + 1) * d := Nat.mul_lt_mul_of_pos_right hlt hd
    rw [hn, add_mul] at h
    omega

/-- Rounding keeps order. -/
theorem roundUnits_le_of_le {n d b : Nat} (hd : 0 < d) (h : n ≤ magUnits b * d) : roundUnits n d ≤ b := by
  obtain ⟨b', h1, h2, -⟩ := roundUnits_spec (n := n) hd
  obtain ⟨h3, h4, -, -⟩ := floorUnits_spec (n := n) hd
  have hfb : floorUnits n d ≤ b :=
    magUnits_le_iff.mp (Nat.le_of_mul_le_mul_right (le_trans h3 h) hd)
  rw [h1]
  rcases h2 with ⟨rfl, -⟩ | ⟨rfl, hge⟩
  · exact le_trans (min_le_left _ _) hfb
  · by_cases he : floorUnits n d = b
    · exfalso
      rw [he] at h3 h4 hge
      have : n = magUnits b * d := le_antisymm h h3
      rw [add_mul] at hge
      omega
    · exact le_trans (min_le_left _ _) (by omega)

/-- Rounding keeps order, from the other side. -/
theorem le_roundUnits {n d b : Nat} (hd : 0 < d) (h : magUnits b * d ≤ n) (hb : b ≤ f64InfBits) : b ≤ roundUnits n d := by
  obtain ⟨b', h1, h2, -⟩ := roundUnits_spec (n := n) hd
  have hfb : b ≤ floorUnits n d := (le_floorUnits_iff hd).mpr h
  rw [h1]
  rcases h2 with ⟨rfl, -⟩ | ⟨rfl, -⟩
  · exact le_min hfb hb
  · exact le_min (by omega) hb

/-- The pattern of a power of two within the range of whole numbers and negative powers the engine meets. -/
theorem magUnits_pow2 (e : Nat) : magUnits ((e + 1) * 2 ^ 52) = 2 ^ (e + 52) := by
  rw [show (e + 1) * 2 ^ 52 = e * 2 ^ 52 + 2 ^ 52 by ring, magUnits_place (by omega) (by norm_num), ← pow_add, add_comm]

theorem pow2neg_mag (r : Byte) : f64Mag (pow2neg r) = (1023 - r.toNat) * 2 ^ 52 := by
  have := r.isLt
  unfold f64Mag pow2neg
  rw [BitVec.toNat_ofNat]
  omega

theorem pow2neg_sign (r : Byte) : f64Sign (pow2neg r) = false := by
  have := r.isLt
  rw [f64Sign_eq]
  unfold pow2neg
  rw [BitVec.toNat_ofNat]
  simp only [decide_eq_false_iff_not]
  omega

/-- `pow2neg(r)` is exactly 2^(-r). -/
theorem pow2neg_units (r : Byte) : f64Units (pow2neg r) = 2 ^ (1074 - r.toNat) := by
  have := r.isLt
  rw [f64Units_eq, pow2neg_mag, show 1023 - r.toNat = (1022 - r.toNat) + 1 by omega, magUnits_pow2]
  congr 1
  omega

theorem f64Value_nonneg {x : F64} (h : f64Sign x = false) : f64Value x = (f64Units x : Int) := by simp [f64Value, h]

theorem f64Value_neg {x : F64} (h : f64Sign x = true) : f64Value x = -(f64Units x : Int) := by simp [f64Value, h]

/-- A whole number up to 2^53 of units of any power of two is a magnitude. -/
theorem magUnits_repr (q u : Nat) (hq : q ≤ 2 ^ 53) : ∃ b, magUnits b = q * 2 ^ u := by
  induction u generalizing q with
  | zero => exact ⟨q, by have := magUnits_place (u := 0) (q := q) (.inl rfl) hq; simpa using this⟩
  | succ u ih =>
    by_cases h : 2 ^ 52 ≤ q
    · exact ⟨(u+1) * 2 ^ 52 + q, magUnits_place (.inr h) hq⟩
    · obtain ⟨b, hb⟩ := ih (2 * q) (by omega)
      exact ⟨b, by rw [hb]; ring⟩

/-- The first magnitude that is not finite. -/
theorem magUnits_inf : magUnits f64InfBits = 2 ^ 2098 := magUnits_pow2 2046

/-- The largest finite magnitude, half a last place of 2^2045 units below the overflow threshold. -/
theorem magUnits_max : magUnits (f64InfBits - 1) + 2 ^ 2045 = 2 ^ 2098 := by
  rw [← magUnits_inf]
  have := magUnits_succ (f64InfBits - 1)
  rw [show f64InfBits - 1 + 1 = f64InfBits by decide] at this
  rw [this, show (f64InfBits - 1) / 2 ^ 52 - 1 = 2045 by decide]

theorem f64Real_eq_mag (x : F64) : f64Real x = (if f64Sign x then -1 else 1) * ((magUnits (f64Mag x) : ℝ) / 2 ^ 1074) := by
  unfold f64Real f64Value
  rw [f64Units_eq]
  split <;> simp <;> ring

theorem f64Real_eq_units (x : F64) : f64Real x = (if f64Sign x then -1 else 1) * ((f64Units x : ℝ) / 2 ^ 1074) := by
  rw [f64Real_eq_mag, f64Units_eq]

theorem finite_iff_mag (x : F64) : f64IsFinite x = true ↔ f64Mag x < f64InfBits := by rw [f64IsFinite_eq]; simp

theorem isNaN_of_finite {x : F64} (h : f64IsFinite x = true) : f64IsNaN x = false := by
  rw [finite_iff_mag] at h; rw [f64IsNaN_eq]; simp; omega

theorem isInf_of_finite {x : F64} (h : f64IsFinite x = true) : f64IsInf x = false := by
  rw [finite_iff_mag] at h; rw [f64IsInf_eq]; simp; omega

/-- An infinity is neither a NaN nor a zero. -/
theorem class_of_inf {x : F64} (h : f64IsInf x = true) : f64IsNaN x = false ∧ f64IsZero x = false := by
  rw [f64IsInf_eq, decide_eq_true_eq] at h
  rw [f64IsNaN_eq, f64IsZero_eq, h]
  decide

/-- A zero is neither a NaN nor an infinity. -/
theorem class_of_zero {x : F64} (h : f64IsZero x = true) : f64IsNaN x = false ∧ f64IsInf x = false := by
  rw [f64IsZero_eq, decide_eq_true_eq] at h
  rw [f64IsNaN_eq, f64IsInf_eq, h]
  decide

theorem f64Mag_neg (x : F64) : f64Mag (f64Neg x) = f64Mag x := by
  have h : ∀ y : F64, f64Mag y = (y.setWidth 63).toNat := fun y => by simp [f64Mag, BitVec.toNat_setWidth]
  rw [h, h, f64Neg, BitVec.setWidth_xor]
  congr 1
  rw [show (0x8000000000000000#64).setWidth 63 = 0#63 by decide, BitVec.xor_zero]

theorem f64Sign_neg (x : F64) : f64Sign (f64Neg x) = !f64Sign x := by
  unfold f64Sign f64Neg
  rw [BitVec.msb_xor, show (0x8000000000000000#64).msb = true by decide]
  cases x.msb <;> rfl

theorem f64Value_f64Neg (x : F64) : f64Value (f64Neg x) = - f64Value x := by
  unfold f64Value; rw [f64Sign_neg, f64Units_eq, f64Units_eq, f64Mag_neg]
  cases f64Sign x <;> simp

theorem f64IsNaN_neg (x : F64) : f64IsNaN (f64Neg x) = f64IsNaN x := by rw [f64IsNaN_eq, f64IsNaN_eq, f64Mag_neg]

theorem f64IsInf_neg (x : F64) : f64IsInf (f64Neg x) = f64IsInf x := by rw [f64IsInf_eq, f64IsInf_eq, f64Mag_neg]

theorem f64IsFinite_neg (x : F64) : f64IsFinite (f64Neg x) = f64IsFinite x := by
  rw [f64IsFinite_eq, f64IsFinite_eq, f64Mag_neg]

theorem roundUnits_zero (d : Nat) (hd : 0 < d) : roundUnits 0 d = 0 := roundUnits_exact hd (by simp) (by decide)

/-- Rounding a magnitude: below the overflow threshold the result is nearest, and even on a tie; from the threshold on it is infinity. -/
theorem roundUnits_nearest (n d : Nat) (hd : 0 < d) :
    ((n : ℝ) / d < 2 ^ 2098 - 2 ^ 2044 →
      roundUnits n d < f64InfBits ∧ ∀ c,
        |(magUnits (roundUnits n d) : ℝ) - n / d| ≤ |(magUnits c : ℝ) - n / d| ∧
          (|(magUnits c : ℝ) - n / d| = |(magUnits (roundUnits n d) : ℝ) - n / d| → c ≠ roundUnits n d →
            roundUnits n d % 2 = 0)) ∧
    (2 ^ 2098 - 2 ^ 2044 ≤ (n : ℝ) / d → roundUnits n d = f64InfBits) := by
  obtain ⟨b, hb, hc, he⟩ := roundUnits_spec (n := n) hd
  obtain ⟨f1, f2, -, -⟩ := floorUnits_spec (n := n) hd
  have hdR : (0 : ℝ) < d := by exact_mod_cast hd
  set f := floorUnits n d
  set V : ℝ := (n : ℝ) / d with hV
  have hn : (n : ℝ) = V * d := by rw [hV]; field_simp
  have g1 : (magUnits f : ℝ) ≤ V := by rw [hV, le_div_iff₀ hdR]; exact_mod_cast f1
  have g2 : V < magUnits (f + 1) := by rw [hV, div_lt_iff₀ hdR]; exact_mod_cast f2
  have c1 : (b = f ∧ 2 * V ≤ (magUnits f : ℝ) + magUnits (f+1)) ∨
      (b = f + 1 ∧ (magUnits f : ℝ) + magUnits (f+1) ≤ 2 * V) := by
    rcases hc with ⟨h, h2⟩ | ⟨h, h2⟩
    · left; refine ⟨h, ?_⟩
      have : (2 : ℝ) * n ≤ (magUnits f + magUnits (f+1)) * d := by exact_mod_cast h2
      rw [hn] at this; exact le_of_mul_le_mul_right (by linarith) hdR
    · right; refine ⟨h, ?_⟩
      have : ((magUnits f + magUnits (f+1)) * d : ℝ) ≤ 2 * n := by exact_mod_cast h2
      rw [hn] at this; exact le_of_mul_le_mul_right (by linarith) hdR
  have c2 : 2 * V = (magUnits f : ℝ) + magUnits (f+1) → b % 2 = 0 := by
    intro h; apply he
    have : (2 : ℝ) * n = (magUnits f + magUnits (f+1)) * d := by rw [hn]; rw [← h]; ring
    exact_mod_cast this
  have hinf : (magUnits f64InfBits : ℝ) = 2 ^ 2098 := by exact_mod_cast magUnits_inf
  have hmax : (magUnits (f64InfBits - 1) : ℝ) + 2 ^ 2045 = 2 ^ 2098 := by exact_mod_cast magUnits_max
  have h45 : (2 : ℝ) ^ 2045 = 2 * 2 ^ 2044 := by rw [← pow_succ']
  have hp : (0 : ℝ) < 2 ^ 2044 := by positivity
  have mono : ∀ {u v}, u ≤ v → (magUnits u : ℝ) ≤ magUnits v := fun h => by exact_mod_cast magUnits_le_iff.mpr h
  have hI : f64InfBits = (f64InfBits - 1) + 1 := by decide
  have hodd : (f64InfBits - 1) % 2 = 1 := by decide
  generalize hG : f64InfBits - 1 = G at *
  generalize (2 : ℝ) ^ 2098 = PA at *
  generalize (2 : ℝ) ^ 2045 = PB at *
  generalize (2 : ℝ) ^ 2044 = PC at *
  have near : ∀ c, |(magUnits b : ℝ) - V| ≤ |(magUnits c : ℝ) - V| ∧
      (|(magUnits c : ℝ) - V| = |(magUnits b : ℝ) - V| → c ≠ b → b % 2 = 0) := by
    intro c
    by_cases hcf : c ≤ f
    · have m1 := mono hcf
      rw [abs_of_nonpos (by linarith : (magUnits c : ℝ) - V ≤ 0)]
      rcases c1 with ⟨rfl, h⟩ | ⟨rfl, h⟩
      · rw [abs_of_nonpos (by linarith : (magUnits f : ℝ) - V ≤ 0)]
        refine ⟨by linarith, fun he hne => ?_⟩
        have : magUnits c = magUnits f := by exact_mod_cast (by linarith : (magUnits c : ℝ) = magUnits f)
        exact absurd (magUnits_strictMono.injective this) hne
      · rw [abs_of_nonneg (by linarith : 0 ≤ (magUnits (f+1) : ℝ) - V)]
        refine ⟨by linarith, fun he hne => c2 (by linarith)⟩
    · have m1 := mono (show f + 1 ≤ c by omega)
      rw [abs_of_nonneg (by linarith : 0 ≤ (magUnits c : ℝ) - V)]
      rcases c1 with ⟨rfl, h⟩ | ⟨rfl, h⟩
      · rw [abs_of_nonpos (by linarith : (magUnits f : ℝ) - V ≤ 0)]
        refine ⟨by linarith, fun he hne => c2 (by linarith)⟩
      · rw [abs_of_nonneg (by linarith : 0 ≤ (magUnits (f+1) : ℝ) - V)]
        refine ⟨by linarith, fun he hne => ?_⟩
        have : magUnits c = magUnits (f+1) := by exact_mod_cast (by linarith : (magUnits c : ℝ) = magUnits (f+1))
        exact absurd (magUnits_strictMono.injective this) hne
  constructor
  · intro hlt
    have hbl : b < f64InfBits := by
      by_contra hge
      rcases c1 with ⟨rfl, h⟩ | ⟨rfl, h⟩
      · have := mono (not_lt.mp hge); linarith
      · rcases Nat.lt_or_ge f f64InfBits with h6 | h6
        · have h7 : f = G := by omega
          rw [h7, ← hI] at h; linarith
        · have := mono h6; linarith
    rw [hb, min_eq_left hbl.le]
    exact ⟨hbl, near⟩
  · intro hge
    rw [hb, min_eq_right]
    by_contra hlt
    rw [not_le] at hlt
    rcases c1 with ⟨rfl, h⟩ | ⟨rfl, h⟩
    · by_cases h7 : f = G
      · rw [h7, ← hI] at h
        have := c2 (by rw [h7, ← hI]; rw [h7] at g1; linarith)
        omega
      · have := mono (show f + 1 ≤ G by omega); linarith
    · have := mono (show f + 1 ≤ G by omega); linarith

/-- The sum of two finite values. -/
theorem fadd_fin {x y : F64} (hx : f64IsFinite x = true) (hy : f64IsFinite y = true) :
    fadd x y = if f64Value x + f64Value y = 0 then f64Pack (f64Sign x && f64Sign y) 0
      else f64Pack (decide (f64Value x + f64Value y < 0)) (roundUnits (f64Value x + f64Value y).natAbs 1) := by
  unfold fadd
  rw [if_neg (by simp [isNaN_of_finite hx, isNaN_of_finite hy]), if_neg (by simp [isInf_of_finite hx]),
    if_neg (by simp [isInf_of_finite hy])]

/-- Whole numbers up to 2^53 are converted exactly. -/
theorem cvt_spec (n : Nat) (h : n ≤ 2 ^ 53) :
    f64Sign (cvt n) = false ∧ f64IsFinite (cvt n) = true ∧ f64Units (cvt n) = n * 2 ^ 1074 := by
  obtain ⟨b, hb⟩ := magUnits_repr n 1074 h
  have hbI : b < f64InfBits := by
    rw [← magUnits_lt_iff, hb, magUnits_inf]
    calc n * 2 ^ 1074 ≤ 2 ^ 53 * 2 ^ 1074 := Nat.mul_le_mul_right _ h
      _ < 2 ^ 2098 := by rw [← pow_add]; exact Nat.pow_lt_pow_right (by norm_num) (by norm_num)
  have e : roundUnits (n * 2 ^ 1074) 1 = b := roundUnits_exact (by norm_num) (by rw [hb, mul_one]) hbI.le
  have hlt : b < 2 ^ 63 := lt_trans hbI (by decide)
  unfold cvt; rw [e]
  refine ⟨f64Sign_pack hlt, ?_, ?_⟩
  · rw [finite_iff_mag, f64Mag_pack hlt]; exact hbI
  · rw [f64Units_eq, f64Mag_pack hlt, hb]

end Sys2Proof.Machine
end

