-- ==== Sys2Proof/Laws/Memory.lean ====
section
/-! SUPPORT. The laws of one register array: read after write, the canonical form is kept by every operation, and two arrays in
canonical form that read alike are equal. -/

namespace Sys2Proof.Machine

@[simp] theorem Memory.read_nil (i : Nat) : Memory.read [] i = 0#8 := rfl

theorem Memory.read_erase (A : Memory) (i j : Nat) : (A.erase i).read j = if i = j then 0#8 else A.read j := by
  induction A with
  | nil => simp [Memory.erase, Memory.read]
  | cons c rest ih =>
    obtain ⟨k, w⟩ := c
    unfold Memory.erase at ih ⊢
    by_cases hk : k = i
    · subst hk
      simp only [List.filter_cons, bne_self_eq_false, Bool.false_eq_true, if_false, ih, Memory.read]
      by_cases h : k = j <;> simp [h]
    · simp only [List.filter_cons, bne_iff_ne, ne_eq, hk, not_false_eq_true, if_true, Memory.read, ih]
      by_cases h : k = j
      · subst h; simp [Ne.symm hk]
      · simp [h]

theorem Memory.read_insert (A : Memory) (i j : Nat) (v : Byte) (h : ∀ c ∈ A, c.1 ≠ i) :
    (A.insert i v).read j = if i = j then v else A.read j := by
  induction A with
  | nil => simp [Memory.insert, Memory.read]
  | cons c rest ih =>
    obtain ⟨k, w⟩ := c
    simp only [Memory.insert]
    have hk : k ≠ i := h (k, w) (by simp)
    by_cases hlt : i < k
    · simp [hlt, Memory.read]
    · simp only [hlt, if_false, Memory.read, ih (fun c hc => h c (by simp [hc]))]
      by_cases hj : k = j
      · subst hj; simp [Ne.symm hk]
      · simp [hj]

theorem Memory.erase_ne (A : Memory) (i : Nat) : ∀ c ∈ A.erase i, c.1 ≠ i := by
  intro c hc
  simp only [Memory.erase, List.mem_filter, bne_iff_ne, ne_eq] at hc
  exact hc.2

/-- Read after write, for every array. -/
theorem Memory.read_write (A : Memory) (i j : Nat) (v : Byte) : (A.write i v).read j = if i = j then v else A.read j := by
  unfold Memory.write
  by_cases hv : v = 0#8
  · simp [hv, Memory.read_erase]
  · rw [if_neg hv, Memory.read_insert _ _ _ _ (A.erase_ne i), Memory.read_erase]
    by_cases h : i = j <;> simp [h]

@[simp] theorem Memory.read_write_same (A : Memory) (i : Nat) (v : Byte) : (A.write i v).read i = v := by
  simp [Memory.read_write]

theorem Memory.read_write_other (A : Memory) {i j : Nat} (v : Byte) (h : i ≠ j) : (A.write i v).read j = A.read j := by
  simp [Memory.read_write, h]

theorem Memory.mem_insert {A : Memory} {i : Nat} {v : Byte} {c : Host.Cell} :
    c ∈ A.insert i v ↔ c = (i, v) ∨ c ∈ A := by
  induction A with
  | nil => simp [Memory.insert]
  | cons d rest ih =>
    obtain ⟨k, w⟩ := d
    simp only [Memory.insert]
    split
    · simp
    · simp only [List.mem_cons, ih]
      tauto

theorem Memory.mem_write {A : Memory} {i : Nat} {v : Byte} {c : Host.Cell} (h : c ∈ A.write i v) :
    c = (i, v) ∨ c ∈ A := by
  unfold Memory.write at h
  split at h
  · exact .inr (List.mem_filter.mp h).1
  · rcases Memory.mem_insert.mp h with h | h
    · exact .inl h
    · exact .inr (List.mem_filter.mp h).1

theorem Memory.wf_nil : Memory.wf [] := by simp [Memory.wf]

theorem Memory.wf_erase {A : Memory} (h : A.wf) (i : Nat) : (A.erase i).wf :=
  ⟨h.1.sublist List.filter_sublist, fun c hc => h.2 c (List.mem_filter.mp hc).1⟩

theorem Memory.wf_insert {A : Memory} (h : A.wf) {i : Nat} {v : Byte} (hv : v ≠ 0#8) (hne : ∀ c ∈ A, c.1 ≠ i) :
    (A.insert i v).wf := by
  refine ⟨?_, fun c hc => ?_⟩
  · induction A with
    | nil => simp [Memory.insert]
    | cons d rest ih =>
      obtain ⟨k, w⟩ := d
      have hp := List.pairwise_cons.mp h.1
      simp only [Memory.insert]
      by_cases hlt : i < k
      · simp only [hlt, if_true, List.pairwise_cons]
        refine ⟨fun c hc => ?_, hp⟩
        rcases List.mem_cons.mp hc with rfl | hc
        · exact hlt
        · exact lt_trans hlt (hp.1 c hc)
      · simp only [hlt, if_false, List.pairwise_cons]
        refine ⟨fun c hc => ?_, ih ⟨hp.2, fun c hc => h.2 c (by simp [hc])⟩ (fun c hc => hne c (by simp [hc]))⟩
        rcases Memory.mem_insert.mp hc with rfl | hc
        · exact lt_of_le_of_ne (not_lt.mp hlt) (hne (k, w) (by simp))
        · exact hp.1 c hc
  · rcases Memory.mem_insert.mp hc with rfl | hc
    · exact hv
    · exact h.2 c hc

/-- Every write keeps the canonical form. -/
theorem Memory.wf_write {A : Memory} (h : A.wf) (i : Nat) (v : Byte) : (A.write i v).wf := by
  unfold Memory.write
  split
  · exact Memory.wf_erase h i
  · exact Memory.wf_insert (Memory.wf_erase h i) (by assumption) (A.erase_ne i)

theorem Memory.below_nil (n : Nat) : Memory.below [] n := by simp [Memory.below]

/-- A write inside the array keeps every listed index inside the array. -/
theorem Memory.below_write {A : Memory} {n : Nat} (h : A.below n) {i : Nat} (hi : i < n) (v : Byte) :
    (A.write i v).below n := fun c hc => by
  rcases Memory.mem_write hc with rfl | hc
  · exact hi
  · exact h c hc

theorem Memory.le_of_mem_ofBytes {bs : List Byte} {i : Nat} {c : Host.Cell} (h : c ∈ Memory.ofBytes i bs) :
    i ≤ c.1 ∧ c.1 < i + bs.length ∧ c.2 ≠ 0#8 := by
  induction bs generalizing i with
  | nil => simp [Memory.ofBytes] at h
  | cons v vs ih =>
    simp only [Memory.ofBytes] at h
    split at h
    · have := ih h; simp only [List.length_cons]; exact ⟨by omega, by omega, this.2.2⟩
    · rcases List.mem_cons.mp h with rfl | h
      · simp only [List.length_cons]; exact ⟨le_refl _, by omega, by assumption⟩
      · have := ih h; simp only [List.length_cons]; exact ⟨by omega, by omega, this.2.2⟩

theorem Memory.wf_ofBytes (bs : List Byte) (i : Nat) : (Memory.ofBytes i bs).wf := by
  refine ⟨?_, fun c hc => (Memory.le_of_mem_ofBytes hc).2.2⟩
  induction bs generalizing i with
  | nil => simp [Memory.ofBytes]
  | cons v vs ih =>
    simp only [Memory.ofBytes]
    split
    · exact ih (i + 1)
    · exact List.pairwise_cons.mpr ⟨fun c hc => (Memory.le_of_mem_ofBytes hc).1, ih (i + 1)⟩

theorem Memory.below_ofBytes (bs : List Byte) : (Memory.ofBytes 0 bs).below bs.length := fun c hc => by
  have := Memory.le_of_mem_ofBytes hc
  omega

theorem Memory.read_of_not_mem {A : Memory} {i : Nat} (h : ∀ c ∈ A, c.1 ≠ i) : A.read i = 0#8 := by
  induction A with
  | nil => rfl
  | cons c rest ih =>
    simp only [Memory.read, h c (by simp), if_false]
    exact ih (fun d hd => h d (by simp [hd]))

theorem Memory.read_of_mem {A : Memory} (hA : A.wf) {c : Host.Cell} (h : c ∈ A) : A.read c.1 = c.2 := by
  induction A with
  | nil => simp at h
  | cons d rest ih =>
    have hp := List.pairwise_cons.mp hA.1
    rcases List.mem_cons.mp h with rfl | h
    · simp [Memory.read]
    · have hne : d.1 ≠ c.1 := (hp.1 c h).ne
      simp only [Memory.read, hne, if_false]
      exact ih ⟨hp.2, fun e he => hA.2 e (by simp [he])⟩ h

/-- Reading the array built from bytes. -/
theorem Memory.read_ofBytes (bs : List Byte) (i j : Nat) :
    (Memory.ofBytes i bs).read j = if i ≤ j then bs.getD (j - i) 0#8 else 0#8 := by
  induction bs generalizing i with
  | nil => simp [Memory.ofBytes]
  | cons v vs ih =>
    have key : ∀ (_ : i ≠ j), (Memory.ofBytes (i + 1) vs).read j = if i ≤ j then (v :: vs).getD (j - i) 0#8 else 0#8 := by
      intro hne
      rw [ih]
      by_cases hle : i ≤ j
      · have h1 : i + 1 ≤ j := by omega
        have h2 : j - i = (j - (i + 1)) + 1 := by omega
        simp only [hle, h1, if_true, h2, List.getD_cons_succ]
      · simp [hle, show ¬ i + 1 ≤ j by omega]
    simp only [Memory.ofBytes]
    by_cases hij : i = j
    · subst hij
      split
      · rename_i hv
        rw [Memory.read_of_not_mem]
        · simp [hv]
        · intro c hc; have := Memory.le_of_mem_ofBytes hc; omega
      · simp [Memory.read]
    · split
      · exact key hij
      · simp only [Memory.read, hij, if_false]; exact key hij

/-- An element beyond a bounded array reads 0. -/
theorem Memory.read_beyond {A : Memory} {n i : Nat} (h : A.below n) (hi : n ≤ i) : A.read i = 0#8 :=
  Memory.read_of_not_mem fun c hc => by have := h c hc; omega

/-- Two arrays in canonical form that read alike everywhere are the same list. -/
theorem Memory.ext {A B : Memory} (hA : A.wf) (hB : B.wf) (h : ∀ i, A.read i = B.read i) : A = B := by
  have sub : ∀ {A B : Memory}, A.wf → B.wf → (∀ i, A.read i = B.read i) → ∀ c ∈ A, c ∈ B := by
    intro A B hA hB h c hc
    have hr := Memory.read_of_mem hA hc
    by_contra hn
    have hz : B.read c.1 ≠ 0#8 := by rw [← h, hr]; exact hA.2 c hc
    apply hz
    apply Memory.read_of_not_mem
    intro d hd he
    apply hn
    have hr' := Memory.read_of_mem hB hd
    have : d = c := Prod.ext he (by rw [← hr', he, ← h, hr])
    exact this ▸ hd
  have nodup : ∀ {A : Memory}, A.wf → A.Nodup := fun hA =>
    hA.1.imp (fun hlt he => by rw [he] at hlt; exact lt_irrefl _ hlt)
  have hperm : A.Perm B :=
    (List.perm_ext_iff_of_nodup (nodup hA) (nodup hB)).mpr
      fun c => ⟨sub hA hB h c, sub hB hA (fun i => (h i).symm) c⟩
  exact hperm.eq_of_pairwise (fun a b _ _ h1 h2 => absurd (lt_trans h1 h2) (lt_irrefl _)) hA.1 hB.1

/-- A bounded array in canonical form is fixed by its elements below the bound. -/
theorem Memory.ext_below {A B : Memory} {n : Nat} (hA : A.wf) (hB : B.wf) (hAn : A.below n) (hBn : B.below n)
    (h : ∀ i < n, A.read i = B.read i) : A = B :=
  Memory.ext hA hB fun i => by
    by_cases hi : i < n
    · exact h i hi
    · rw [Memory.read_beyond hAn (not_lt.mp hi), Memory.read_beyond hBn (not_lt.mp hi)]

@[simp] theorem Memory.length_elements (A : Memory) (n i : Nat) : (A.elements n i).length = n := by
  induction n generalizing i with
  | zero => rfl
  | succ n ih => simp [Memory.elements, ih]

/-- The listing of n elements from index i on. -/
theorem Memory.getElem?_elements (A : Memory) (n i j : Nat) :
    (A.elements n i)[j]? = if j < n then some (A.read (i + j)) else none := by
  induction n generalizing i j with
  | zero => simp [Memory.elements]
  | succ n ih =>
    cases j with
    | zero => simp [Memory.elements]
    | succ j =>
      have hij : i + 1 + j = i + (j + 1) := by omega
      simp only [Memory.elements, List.getElem?_cons_succ, ih, Nat.add_lt_add_iff_right, hij]

/-- An array rebuilt from its own listing. -/
theorem Memory.ofBytes_elements {A : Memory} {n : Nat} (hA : A.wf) (hn : A.below n) :
    Memory.ofBytes 0 (A.elements n 0) = A := by
  refine Memory.ext (Memory.wf_ofBytes _ _) hA fun j => ?_
  rw [Memory.read_ofBytes]
  simp only [Nat.zero_le, if_true, Nat.sub_zero, List.getD_eq_getElem?_getD, Memory.getElem?_elements, Nat.zero_add]
  by_cases hj : j < n
  · simp [hj]
  · simp [hj, Memory.read_beyond hn (not_lt.mp hj)]

end Sys2Proof.Machine
end

