-- ==== Sys2Proof/Laws/State.lean ====
section
/-! SUPPORT. One lemma per field of State for each of its updates, so that no proof unfolds a record update. -/

namespace Sys2Proof.Machine

variable (s : State) (st : Status) (v u : Word64) (a b : Nat) (x : Slot) (rest : List HostAction) (w : Word64)
variable (n : Nat) (bs : List Byte) (src : Source) (plan : SinkPlan)

@[simp] theorem setRsp_slots : (s.setRsp st v u).slots = s.slots := rfl
@[simp] theorem setRsp_rsp : (s.setRsp st v u).rsp = { status := st.code, value := v, aux := u } := rfl
@[simp] theorem setRsp_mergeOp : (s.setRsp st v u).mergeOp = s.mergeOp := rfl
@[simp] theorem setRsp_alphaTable : (s.setRsp st v u).alphaTable = s.alphaTable := rfl
@[simp] theorem setRsp_pending : (s.setRsp st v u).pending = s.pending := rfl
@[simp] theorem setRsp_source : (s.setRsp st v u).source = s.source := rfl
@[simp] theorem setRsp_sinkPlan : (s.setRsp st v u).sinkPlan = s.sinkPlan := rfl
@[simp] theorem setRsp_sinkOut : (s.setRsp st v u).sinkOut = s.sinkOut := rfl
@[simp] theorem setRsp_nInst : (s.setRsp st v u).nInst = s.nInst := rfl
@[simp] theorem setRsp_live : (s.setRsp st v u).live a = s.live a := rfl
@[simp] theorem setRsp_alphamm : (s.setRsp st v u).alphamm a = s.alphamm a := rfl

@[simp] theorem setSlot_slots : (s.setSlot a x).slots = s.slots.set a x := rfl
@[simp] theorem setSlot_rsp : (s.setSlot a x).rsp = s.rsp := rfl
@[simp] theorem setSlot_mergeOp : (s.setSlot a x).mergeOp = s.mergeOp := rfl
@[simp] theorem setSlot_alphaTable : (s.setSlot a x).alphaTable = s.alphaTable := rfl
@[simp] theorem setSlot_pending : (s.setSlot a x).pending = s.pending := rfl
@[simp] theorem setSlot_source : (s.setSlot a x).source = s.source := rfl
@[simp] theorem setSlot_sinkPlan : (s.setSlot a x).sinkPlan = s.sinkPlan := rfl
@[simp] theorem setSlot_sinkOut : (s.setSlot a x).sinkOut = s.sinkOut := rfl
@[simp] theorem setSlot_alphamm : (s.setSlot a x).alphamm b = s.alphamm b := rfl
@[simp] theorem setSlot_nInst : (s.setSlot a x).nInst = s.nInst := by simp [State.nInst]

@[simp] theorem withPending_slots : (s.withPending rest).slots = s.slots := rfl
@[simp] theorem withPending_rsp : (s.withPending rest).rsp = s.rsp := rfl
@[simp] theorem withPending_mergeOp : (s.withPending rest).mergeOp = s.mergeOp := rfl
@[simp] theorem withPending_alphaTable : (s.withPending rest).alphaTable = s.alphaTable := rfl
@[simp] theorem withPending_pending : (s.withPending rest).pending = rest := rfl
@[simp] theorem withPending_source : (s.withPending rest).source = s.source := rfl
@[simp] theorem withPending_sinkPlan : (s.withPending rest).sinkPlan = s.sinkPlan := rfl
@[simp] theorem withPending_sinkOut : (s.withPending rest).sinkOut = s.sinkOut := rfl
@[simp] theorem withPending_nInst : (s.withPending rest).nInst = s.nInst := rfl
@[simp] theorem withPending_live : (s.withPending rest).live a = s.live a := rfl

@[simp] theorem presenting_slots : (s.presenting w).slots = s.slots := rfl
@[simp] theorem presenting_rsp : (s.presenting w).rsp = s.rsp := rfl
@[simp] theorem presenting_mergeOp : (s.presenting w).mergeOp = s.mergeOp := rfl
@[simp] theorem presenting_alphaTable : (s.presenting w).alphaTable = s.alphaTable := rfl
@[simp] theorem presenting_pending : (s.presenting w).pending = .command w :: s.pending := rfl
@[simp] theorem presenting_source : (s.presenting w).source = s.source := rfl
@[simp] theorem presenting_sinkPlan : (s.presenting w).sinkPlan = s.sinkPlan := rfl
@[simp] theorem presenting_sinkOut : (s.presenting w).sinkOut = s.sinkOut := rfl
@[simp] theorem presenting_withPending : (s.presenting w).withPending s.pending = s := rfl

@[simp] theorem resetEngine_slots : s.resetEngine.slots = List.replicate s.slots.length Slot.reset := rfl
@[simp] theorem resetEngine_rsp : s.resetEngine.rsp = Response.reset := rfl
@[simp] theorem resetEngine_mergeOp : s.resetEngine.mergeOp = s.mergeOp := rfl
@[simp] theorem resetEngine_alphaTable : s.resetEngine.alphaTable = s.alphaTable := rfl
@[simp] theorem resetEngine_pending : s.resetEngine.pending = s.pending := rfl
@[simp] theorem resetEngine_source : s.resetEngine.source = s.source := rfl
@[simp] theorem resetEngine_sinkPlan : s.resetEngine.sinkPlan = s.sinkPlan := rfl
@[simp] theorem resetEngine_sinkOut : s.resetEngine.sinkOut = s.sinkOut := rfl
@[simp] theorem resetEngine_nInst : s.resetEngine.nInst = s.nInst := by simp [State.nInst]

@[simp] theorem consume_slots : (s.consume n).slots = s.slots := rfl
@[simp] theorem consume_rsp : (s.consume n).rsp = s.rsp := rfl
@[simp] theorem consume_mergeOp : (s.consume n).mergeOp = s.mergeOp := rfl
@[simp] theorem consume_alphaTable : (s.consume n).alphaTable = s.alphaTable := rfl
@[simp] theorem consume_pending : (s.consume n).pending = s.pending := rfl
@[simp] theorem consume_source : (s.consume n).source = { bytes := s.source.bytes.drop n, ending := s.source.ending } := rfl
@[simp] theorem consume_sinkPlan : (s.consume n).sinkPlan = s.sinkPlan := rfl
@[simp] theorem consume_sinkOut : (s.consume n).sinkOut = s.sinkOut := rfl
@[simp] theorem consume_nInst : (s.consume n).nInst = s.nInst := rfl
@[simp] theorem consume_live : (s.consume n).live a = s.live a := rfl
@[simp] theorem consume_alphamm : (s.consume n).alphamm a = s.alphamm a := rfl

@[simp] theorem emit_slots : (s.emit bs).slots = s.slots := rfl
@[simp] theorem emit_rsp : (s.emit bs).rsp = s.rsp := rfl
@[simp] theorem emit_mergeOp : (s.emit bs).mergeOp = s.mergeOp := rfl
@[simp] theorem emit_alphaTable : (s.emit bs).alphaTable = s.alphaTable := rfl
@[simp] theorem emit_pending : (s.emit bs).pending = s.pending := rfl
@[simp] theorem emit_source : (s.emit bs).source = s.source := rfl
@[simp] theorem emit_sinkPlan : (s.emit bs).sinkPlan = s.sinkPlan := rfl
@[simp] theorem emit_sinkOut : (s.emit bs).sinkOut = s.sinkOut ++ bs := rfl
@[simp] theorem emit_nInst : (s.emit bs).nInst = s.nInst := rfl
@[simp] theorem emit_live : (s.emit bs).live a = s.live a := rfl
@[simp] theorem emit_alphamm : (s.emit bs).alphamm a = s.alphamm a := rfl

@[simp] theorem bindSource_slots : (s.bindSource src).slots = s.slots := rfl
@[simp] theorem bindSource_rsp : (s.bindSource src).rsp = s.rsp := rfl
@[simp] theorem bindSource_mergeOp : (s.bindSource src).mergeOp = s.mergeOp := rfl
@[simp] theorem bindSource_alphaTable : (s.bindSource src).alphaTable = s.alphaTable := rfl
@[simp] theorem bindSource_pending : (s.bindSource src).pending = s.pending := rfl
@[simp] theorem bindSource_source : (s.bindSource src).source = src := rfl
@[simp] theorem bindSource_sinkPlan : (s.bindSource src).sinkPlan = s.sinkPlan := rfl
@[simp] theorem bindSource_sinkOut : (s.bindSource src).sinkOut = s.sinkOut := rfl
@[simp] theorem bindSource_nInst : (s.bindSource src).nInst = s.nInst := rfl
@[simp] theorem bindSource_live : (s.bindSource src).live a = s.live a := rfl
@[simp] theorem bindSource_alphamm : (s.bindSource src).alphamm a = s.alphamm a := rfl

@[simp] theorem bindSink_slots : (s.bindSink plan).slots = s.slots := rfl
@[simp] theorem bindSink_rsp : (s.bindSink plan).rsp = s.rsp := rfl
@[simp] theorem bindSink_mergeOp : (s.bindSink plan).mergeOp = s.mergeOp := rfl
@[simp] theorem bindSink_alphaTable : (s.bindSink plan).alphaTable = s.alphaTable := rfl
@[simp] theorem bindSink_pending : (s.bindSink plan).pending = s.pending := rfl
@[simp] theorem bindSink_source : (s.bindSink plan).source = s.source := rfl
@[simp] theorem bindSink_sinkPlan : (s.bindSink plan).sinkPlan = plan := rfl
@[simp] theorem bindSink_sinkOut : (s.bindSink plan).sinkOut = s.sinkOut := rfl
@[simp] theorem bindSink_nInst : (s.bindSink plan).nInst = s.nInst := rfl
@[simp] theorem bindSink_live : (s.bindSink plan).live a = s.live a := rfl
@[simp] theorem bindSink_alphamm : (s.bindSink plan).alphamm a = s.alphamm a := rfl

theorem consume_consume (m : Nat) : (s.consume n).consume m = s.consume (n + m) := by
  simp [State.consume, List.drop_drop]

theorem emit_emit (cs : List Byte) : (s.emit bs).emit cs = s.emit (bs ++ cs) := by
  simp [State.emit]

@[simp] theorem consume_zero : s.consume 0 = s := rfl

@[simp] theorem emit_nil : s.emit [] = s := by simp [State.emit]

/-- What a live slot is: a slot of the list that holds an instance. -/
theorem live_eq_some_iff : s.live a = some x ↔ s.slots[a]? = some x ∧ x.valid = true := by
  unfold State.live
  cases h : s.slots[a]? with
  | none => simp
  | some y =>
    by_cases hy : y.valid = true
    · simp only [hy, if_true, Option.some.injEq]
      exact ⟨fun e => ⟨e, e ▸ hy⟩, fun e => e.1⟩
    · simp only [hy, Option.some.injEq]
      exact ⟨fun e => by simp at e, fun e => absurd (e.1 ▸ e.2) hy⟩

theorem live_lt (h : s.live a = some x) : a < s.slots.length := by
  have := ((live_eq_some_iff s a x).mp h).1
  exact (List.getElem?_eq_some_iff.mp this).1

/-- Reading a slot after writing one. -/
theorem setSlot_getElem? : (s.setSlot a x).slots[b]? = if a = b ∧ a < s.slots.length then some x else s.slots[b]? := by
  simp only [setSlot_slots, List.getElem?_set]
  by_cases h : a = b
  · subst h
    by_cases ha : a < s.slots.length
    · simp [ha]
    · simp [ha]
  · simp [h]

/-- The instance in slot a after slot a, which is a slot, was given a valid instance. -/
theorem live_setSlot_same (ha : a < s.slots.length) (hx : x.valid = true) : (s.setSlot a x).live a = some x := by
  rw [live_eq_some_iff]
  simp [ha, hx]

theorem live_setSlot_other (h : a ≠ b) : (s.setSlot a x).live b = s.live b := by
  unfold State.live
  simp [h]

theorem live_valid {s : State} {a x} (h : s.live a = some x) : x.valid = true := ((live_eq_some_iff s a x).mp h).2

/-- The instance in slot a after slot a, which held one, was given a valid instance. -/
theorem live_setSlot_live {s : State} {a x y} (h : s.live a = some x) (hy : y.valid = true) : (s.setSlot a y).live a = some y :=
  live_setSlot_same _ _ _ (live_lt _ _ _ h) hy

/-- Writing back what a slot holds. -/
theorem setSlot_same {s : State} {a x} (h : s.live a = some x) : s.setSlot a x = s := by
  have hs := ((live_eq_some_iff s a x).mp h).1
  have : s.slots.set a x = s.slots := by
    apply List.ext_getElem?; intro b
    rw [List.getElem?_set]
    by_cases hab : a = b
    · subst hab; simp [live_lt _ _ _ h]; rw [List.getElem?_eq_getElem (live_lt _ _ _ h)] at hs; exact (Option.some.inj hs).symm
    · simp [hab]
  simp [State.setSlot, this]

theorem live_of_slots {s t : State} {a} (h : t.slots[a]? = s.slots[a]?) : t.live a = s.live a := by
  unfold State.live; rw [h]

end Sys2Proof.Machine
end

