-- ==== Sys2Proof/Laws/Commands.lean ====
section
/-! SUPPORT. One lemma for each operation the commands share, saying everything it can do. -/

namespace Sys2Proof.Machine

theorem checkSlot_live {a : Nat} {s : State} {body : Slot → Result} {x : Slot} (h : s.live a = some x) :
    checkSlot a s body = body x := by simp [checkSlot, h]

theorem checkSlot_dead {a : Nat} {s : State} {body : Slot → Result} (h : s.live a = none) :
    checkSlot a s body = .next (s.setRsp .noInstance 0#64 0#64) := by simp [checkSlot, h, raise]

/-- Everything the slot check can do. -/
theorem checkSlot_cases {a : Nat} {s : State} {body : Slot → Result} {r : Result} (h : checkSlot a s body = r) :
    (∃ x, s.live a = some x ∧ body x = r) ∨ (s.live a = none ∧ r = .next (s.setRsp .noInstance 0#64 0#64)) := by
  cases hl : s.live a with
  | none => exact .inr ⟨rfl, by rw [← h, checkSlot_dead hl]⟩
  | some x => exact .inl ⟨x, rfl, by rw [← h, checkSlot_live hl]⟩

theorem respond_next {v u : Word64} {s t : State} : respond v u s = .next t ↔ t = s.setRsp .ok v u := by
  simp [respond, eq_comm]

theorem raise_next {e : Status} {v u : Word64} {s t : State} : raise e v u s = .next t ↔ t = s.setRsp e v u := by
  simp [raise, eq_comm]

/-- Every element of a merged array. -/
theorem read_mergeFrom (op : MergeOp) (B : Memory) (n i : Nat) (A : Memory) (j : Nat) :
    (mergeFrom op B n i A).read j =
      if i ≤ j ∧ j < i + n ∧ A.read j < B.read j then combine op (A.read j) (B.read j) else A.read j := by
  induction n generalizing i A with
  | zero => simp [mergeFrom]; omega
  | succ n ih =>
    have hel : ∀ k, (mergeElement op A B i).read k =
        if i = k ∧ A.read i < B.read i then combine op (A.read i) (B.read i) else A.read k := by
      intro k
      unfold mergeElement
      by_cases hlt : A.read i < B.read i
      · simp [hlt, Memory.read_write]
      · simp [hlt]
    simp only [mergeFrom, ih, hel]
    by_cases hij : i = j
    · subst hij
      by_cases hlt : A.read i < B.read i <;> simp [hlt]
    · by_cases h1 : i + 1 ≤ j
      · simp [hij, h1, show i ≤ j by omega, show i + 1 + n = i + (n + 1) by omega]
      · simp [hij, h1, show ¬ i ≤ j by omega]

theorem mergeFrom_wf {op : MergeOp} {B : Memory} {n i : Nat} {A : Memory} (h : A.wf) : (mergeFrom op B n i A).wf := by
  induction n generalizing i A with
  | zero => exact h
  | succ n ih =>
    refine ih ?_
    unfold mergeElement
    split
    · exact Memory.wf_write h _ _
    · exact h

theorem mergeFrom_below {op : MergeOp} {B : Memory} {n i m : Nat} {A : Memory} (h : A.below m) (hm : i + n ≤ m) :
    (mergeFrom op B n i A).below m := by
  induction n generalizing i A with
  | zero => exact h
  | succ n ih =>
    refine ih ?_ (by omega)
    unfold mergeElement
    split
    · exact Memory.below_write h (by omega) _
    · exact h

theorem raiseTo_wf {A : Memory} (h : A.wf) (i r : Nat) : (A.raiseTo i r).wf := by
  unfold Memory.raiseTo
  split
  · exact Memory.wf_write h _ _
  · exact h

theorem raiseTo_below {A : Memory} {m i : Nat} (h : A.below m) (hi : i < m) (r : Nat) : (A.raiseTo i r).below m := by
  unfold Memory.raiseTo
  split
  · exact Memory.below_write h hi _
  · exact h

/-- The element ADD touches, and every other one. -/
theorem read_raiseTo (A : Memory) (i r j : Nat) :
    (A.raiseTo i r).read j = if i = j ∧ (A.read i).toNat < r then BitVec.ofNat 8 r else A.read j := by
  unfold Memory.raiseTo
  by_cases h : (A.read i).toNat < r
  · simp [h, Memory.read_write]
  · simp [h]

theorem protectedCopy_wf {A : Memory} (h : A.wf) (m t : Nat) : (protectedCopy A m t).wf := by
  unfold protectedCopy replaceMin
  split
  · split
    · exact Memory.wf_write h _ _
    · exact h
  · exact h

/-- The positions a scan holds are indices it was given or has visited. -/
theorem scanFrom_positions (A : Memory) (m : Nat) (n i : Nat) (t : MinScan) (hin : i + n ≤ m)
    (h1 : ∀ p, t.p1 = some p → p < m) (h2 : ∀ p, t.p2 = some p → p < m) :
    (∀ p, (scanFrom A n i t).p1 = some p → p < m) ∧ (∀ p, (scanFrom A n i t).p2 = some p → p < m) := by
  induction n generalizing i t with
  | zero => exact ⟨h1, h2⟩
  | succ n ih =>
    refine ih (i + 1) _ (by omega) ?_ ?_
    · intro p hp
      unfold MinScan.visit at hp
      split at hp
      · simp only [Option.some.injEq] at hp; omega
      · split at hp <;> exact h1 p hp
    · intro p hp
      unfold MinScan.visit at hp
      split at hp
      · exact h1 p hp
      · split at hp
        · simp only [Option.some.injEq] at hp; omega
        · exact h2 p hp

theorem protectedCopy_below {A : Memory} {m : Nat} (h : A.below m) (t : Nat) : (protectedCopy A m t).below m := by
  have hp := (scanFrom_positions A m m 0 MinScan.start (by omega) (by simp [MinScan.start]) (by simp [MinScan.start])).1
  unfold protectedCopy replaceMin
  split
  · rename_i p1 _ h1 _
    split
    · exact Memory.below_write h (hp p1 h1) _
    · exact h
  · exact h

theorem SinkPlan.takes_eq (plan : SinkPlan) (n : Nat) :
    plan.takes n = true ↔ ∀ k, plan.accept = some k → n < k := by
  unfold SinkPlan.takes
  cases plan.accept <;> simp

/-- A dump whose bytes the sink all accepts. -/
theorem dumpBytes_all (vs : List Byte) (n : Nat) (s : State) (h : ∀ k, s.sinkPlan.accept = some k → n + vs.length ≤ k) :
    dumpBytes vs n s = respond (BitVec.ofNat 64 (n + vs.length)) 0#64 (s.emit vs) := by
  induction vs generalizing n s with
  | nil => simp [dumpBytes]
  | cons v vs ih =>
    have ht : s.sinkPlan.takes n = true := (SinkPlan.takes_eq _ _).mpr fun k hk => by
      have := h k hk; simp only [List.length_cons] at this; omega
    simp only [dumpBytes, sinkWrite, ht, if_true]
    rw [ih]
    · simp only [emit_emit, List.length_cons, List.singleton_append, show n + 1 + vs.length = n + (vs.length + 1) by omega]
    · intro k hk
      have := h k (by simpa using hk)
      simp only [List.length_cons] at this
      omega

/-- A dump that the sink stops after k bytes. -/
theorem dumpBytes_short (vs : List Byte) (n k : Nat) (s : State) (hk : s.sinkPlan.accept = some k) (h1 : n ≤ k)
    (h2 : k < n + vs.length) :
    dumpBytes vs n s =
      match s.sinkPlan.ending with
      | .fails => raise .ioError (BitVec.ofNat 64 k) 0#64 (s.emit (vs.take (k - n)))
      | .unanswered => .fault .sinkUnanswered := by
  induction vs generalizing n s with
  | nil => simp at h2; omega
  | cons v vs ih =>
    by_cases hn : n = k
    · subst hn
      have ht : s.sinkPlan.takes n = false := by simp [SinkPlan.takes, hk]
      simp only [dumpBytes, sinkWrite, ht, Nat.sub_self, List.take_zero, emit_nil]
      cases s.sinkPlan.ending <;> rfl
    · have ht : s.sinkPlan.takes n = true := by simp [SinkPlan.takes, hk]; omega
      simp only [dumpBytes, sinkWrite, ht, if_true]
      rw [ih (n + 1) (s.emit [v]) (by simpa using hk) (by omega) (by simp only [List.length_cons] at h2; omega)]
      have hd : k - n = (k - (n + 1)) + 1 := by omega
      simp only [emit_sinkPlan, emit_emit, hd, List.take_succ_cons, List.singleton_append]

/-- A restore that finds all its bytes. -/
theorem stageBytes_enough (left : Nat) (staged : List Byte) (n : Nat) (s : State)
    (commit : List Byte → Nat → State → Result) (h : left ≤ s.source.bytes.length) :
    stageBytes left staged n s commit = commit (staged ++ s.source.bytes.take left) (n + left) (s.consume left) := by
  induction left generalizing staged n s with
  | zero => simp [stageBytes]
  | succ left ih =>
    cases hb : s.source.bytes with
    | nil => simp [hb] at h
    | cons v rest =>
      simp only [stageBytes, srcRead, hb]
      rw [ih]
      · simp only [consume_source, hb, List.drop_succ_cons, List.drop_zero, consume_consume, List.take_succ_cons,
          List.append_assoc, List.singleton_append, show n + 1 + left = n + (left + 1) by omega, Nat.add_comm 1 left]
      · simp only [consume_source, hb, List.drop_succ_cons, List.drop_zero]
        simp only [hb, List.length_cons] at h
        omega

/-- A restore that runs out of bytes. -/
theorem stageBytes_short (left : Nat) (staged : List Byte) (n : Nat) (s : State)
    (commit : List Byte → Nat → State → Result) (h : s.source.bytes.length < left) :
    stageBytes left staged n s commit =
      match s.source.ending with
      | .fails => raise .ioError (BitVec.ofNat 64 (n + s.source.bytes.length)) 0#64 (s.consume s.source.bytes.length)
      | .unanswered => .fault .sourceUnanswered := by
  induction left generalizing staged n s with
  | zero => omega
  | succ left ih =>
    cases hb : s.source.bytes with
    | nil =>
      simp only [stageBytes, srcRead, hb, List.length_nil, Nat.add_zero, consume_zero]
      cases s.source.ending <;> rfl
    | cons v rest =>
      simp only [stageBytes, srcRead, hb]
      have hl : (s.consume 1).source.bytes = rest := by simp [hb]
      rw [ih]
      · simp only [hl, consume_consume, List.length_cons, show n + 1 + rest.length = n + (rest.length + 1) by omega,
          Nat.add_comm 1 rest.length]
        cases he : s.source.ending <;> simp [he]
      · rw [hl]
        simp only [hb, List.length_cons] at h
        omega

end Sys2Proof.Machine
end

