-- ==== Sys2Proof/Laws/Decode.lean ====
section
/-! SUPPORT. The command word taken apart and put together: the fields of a packed word, a word from its fields, and the must-be-zero
test of each row in terms of the fields. -/

namespace Sys2Proof

theorem fieldOpcode_packWord (o : BitVec 8) (a b : BitVec 4) (i r : BitVec 8) (m : BitVec 32) :
    fieldOpcode (packWord o a b i r m) = o := by
  apply BitVec.eq_of_getLsbD_eq
  intro k hk
  simp only [fieldOpcode, packWord, BitVec.getLsbD_extractLsb', BitVec.getLsbD_append]
  simp [hk, show ¬ 56 + k < 56 by omega, show 56 + k - 56 = k by omega]

theorem fieldA_packWord (o : BitVec 8) (a b : BitVec 4) (i r : BitVec 8) (m : BitVec 32) :
    fieldA (packWord o a b i r m) = a := by
  apply BitVec.eq_of_getLsbD_eq
  intro k hk
  simp only [fieldA, packWord, BitVec.getLsbD_extractLsb', BitVec.getLsbD_append]
  simp [hk, show 52 + k < 56 by omega, show ¬ 52 + k < 52 by omega, show 52 + k - 52 = k by omega]

theorem fieldB_packWord (o : BitVec 8) (a b : BitVec 4) (i r : BitVec 8) (m : BitVec 32) :
    fieldB (packWord o a b i r m) = b := by
  apply BitVec.eq_of_getLsbD_eq
  intro k hk
  simp only [fieldB, packWord, BitVec.getLsbD_extractLsb', BitVec.getLsbD_append]
  simp [hk, show 48 + k < 56 by omega, show 48 + k < 52 by omega, show ¬ 48 + k < 48 by omega, show 48 + k - 48 = k by omega]

theorem fieldImm8_packWord (o : BitVec 8) (a b : BitVec 4) (i r : BitVec 8) (m : BitVec 32) :
    fieldImm8 (packWord o a b i r m) = i := by
  apply BitVec.eq_of_getLsbD_eq
  intro k hk
  simp only [fieldImm8, packWord, BitVec.getLsbD_extractLsb', BitVec.getLsbD_append]
  simp [hk, show 40 + k < 56 by omega, show 40 + k < 52 by omega, show 40 + k < 48 by omega, show ¬ 40 + k < 40 by omega,
    show 40 + k - 40 = k by omega]

theorem fieldImm32_packWord (o : BitVec 8) (a b : BitVec 4) (i r : BitVec 8) (m : BitVec 32) :
    fieldImm32 (packWord o a b i r m) = m := by
  apply BitVec.eq_of_getLsbD_eq
  intro k hk
  simp only [fieldImm32, packWord, BitVec.getLsbD_extractLsb', BitVec.getLsbD_append]
  simp [hk, show k < 56 by omega, show k < 52 by omega, show k < 48 by omega, show k < 40 by omega]

/-- `rsvd`, bits 39:32. -/
def fieldRsvd (w : Word64) : BitVec 8 := w.extractLsb' 32 8

theorem fieldRsvd_packWord (o : BitVec 8) (a b : BitVec 4) (i r : BitVec 8) (m : BitVec 32) :
    fieldRsvd (packWord o a b i r m) = r := by
  apply BitVec.eq_of_getLsbD_eq
  intro k hk
  simp only [fieldRsvd, packWord, BitVec.getLsbD_extractLsb', BitVec.getLsbD_append]
  simp [hk, show 32 + k < 56 by omega, show 32 + k < 52 by omega, show 32 + k < 48 by omega, show 32 + k < 40 by omega,
    show ¬ 32 + k < 32 by omega, show 32 + k - 32 = k by omega]

/-- Every word is the packing of its fields: no bit is lost. -/
theorem packWord_fields (w : Word64) :
    packWord (fieldOpcode w) (fieldA w) (fieldB w) (fieldImm8 w) (fieldRsvd w) (fieldImm32 w) = w := by
  apply BitVec.eq_of_getLsbD_eq
  intro k hk
  simp only [packWord, fieldOpcode, fieldA, fieldB, fieldImm8, fieldRsvd, fieldImm32, BitVec.getLsbD_extractLsb',
    BitVec.getLsbD_append]
  by_cases h1 : k < 32
  · simp [h1, show k < 40 by omega, show k < 48 by omega, show k < 52 by omega, show k < 56 by omega]
  by_cases h2 : k < 40
  · simp [h1, h2, show k < 48 by omega, show k < 52 by omega, show k < 56 by omega, show k - 32 < 8 by omega,
      show 32 + (k - 32) = k by omega]
  by_cases h3 : k < 48
  · simp [h2, h3, show k < 52 by omega, show k < 56 by omega, show k - 40 < 8 by omega, show 40 + (k - 40) = k by omega]
  by_cases h4 : k < 52
  · simp [h3, h4, show k < 56 by omega, show k - 48 < 4 by omega, show 48 + (k - 48) = k by omega]
  by_cases h5 : k < 56
  · simp [h4, h5, show k - 52 < 4 by omega, show 52 + (k - 52) = k by omega]
  · simp [h5, show k - 56 < 8 by omega, show 56 + (k - 56) = k by omega]

theorem packWord_and (o o' : BitVec 8) (a b a' b' : BitVec 4) (i r i' r' : BitVec 8) (m m' : BitVec 32) :
    packWord o a b i r m &&& packWord o' a' b' i' r' m' =
      packWord (o &&& o') (a &&& a') (b &&& b') (i &&& i') (r &&& r') (m &&& m') := by
  apply BitVec.eq_of_getLsbD_eq
  intro k _
  simp only [packWord, BitVec.getLsbD_and, BitVec.getLsbD_append]
  split_ifs <;> rfl

theorem packWord_inj (o o' : BitVec 8) (a b a' b' : BitVec 4) (i r i' r' : BitVec 8) (m m' : BitVec 32) :
    packWord o a b i r m = packWord o' a' b' i' r' m' ↔
      o = o' ∧ a = a' ∧ b = b' ∧ i = i' ∧ r = r' ∧ m = m' := by
  constructor
  · intro h
    refine ⟨?_, ?_, ?_, ?_, ?_, ?_⟩
    · simpa only [fieldOpcode_packWord] using congrArg fieldOpcode h
    · simpa only [fieldA_packWord] using congrArg fieldA h
    · simpa only [fieldB_packWord] using congrArg fieldB h
    · simpa only [fieldImm8_packWord] using congrArg fieldImm8 h
    · simpa only [fieldRsvd_packWord] using congrArg fieldRsvd h
    · simpa only [fieldImm32_packWord] using congrArg fieldImm32 h
  · rintro ⟨rfl, rfl, rfl, rfl, rfl, rfl⟩
    rfl

/-- The parts of a row's mask between the opcode byte and the end: `a` is never masked, `b`, `imm8`, `imm32` as the row says. -/
def Opcode.maskB : Opcode → BitVec 4
  | .merge => 0#4
  | _ => 15#4

def Opcode.maskImm8 : Opcode → BitVec 8
  | .create => 0#8
  | .counter | .estimate => 0xFE#8
  | .flipbit => 0xF8#8
  | _ => 0xFF#8

def Opcode.maskImm32 : Opcode → BitVec 32
  | .counter | .flipbit | .add | .protect => 0#32
  | _ => 0xFFFFFFFF#32

theorem mask_eq_packWord (op : Opcode) :
    op.mask = packWord 0xFF#8 0#4 op.maskB op.maskImm8 0xFF#8 op.maskImm32 := by cases op <;> decide

theorem pattern_eq_packWord (op : Opcode) : op.pattern = packWord op.byte 0#4 0#4 0#8 0#8 0#32 := by cases op <;> decide

/-- The test `(w & mask) == match` of a row, in terms of the fields. -/
theorem and_mask_eq_pattern (w : Word64) (op : Opcode) :
    w &&& op.mask = op.pattern ↔
      fieldOpcode w = op.byte ∧ fieldB w &&& op.maskB = 0#4 ∧ fieldImm8 w &&& op.maskImm8 = 0#8 ∧
        fieldRsvd w = 0#8 ∧ fieldImm32 w &&& op.maskImm32 = 0#32 := by
  have h8 : ∀ x : BitVec 8, x &&& 0xFF#8 = x := fun x => by decide +revert
  rw [← packWord_fields w, mask_eq_packWord, pattern_eq_packWord, packWord_and, packWord_inj]
  simp only [fieldOpcode_packWord, fieldB_packWord, fieldImm8_packWord, fieldRsvd_packWord, fieldImm32_packWord, h8,
    BitVec.and_zero, true_and]

theorem opcodeOf_byte (op : Opcode) : opcodeOf op.byte = some op := by cases op <;> decide

theorem opcodeOf_eq_some {b : BitVec 8} {op : Opcode} : opcodeOf b = some op ↔ b = op.byte := by
  constructor
  · intro h
    have := List.find?_some h
    exact (by simpa using this : op.byte = b).symm
  · rintro rfl
    exact opcodeOf_byte op

theorem opcodeOf_eq_none {b : BitVec 8} : opcodeOf b = none ↔ ∀ op : Opcode, b ≠ op.byte := by
  constructor
  · intro h op he
    rw [he, opcodeOf_byte] at h
    exact absurd h (by simp)
  · intro h
    cases ho : opcodeOf b with
    | none => rfl
    | some op => exact absurd (opcodeOf_eq_some.mp ho) (h op)

/-- What the decoder accepts: exactly the words that match a row, read by that row. -/
theorem decode_eq_ok_iff (w : Word64) (i : Instr) :
    decode w = .ok i ↔ ∃ op, w &&& op.mask = op.pattern ∧ operandsOf w op = i := by
  unfold decode
  constructor
  · intro h
    cases ho : opcodeOf (fieldOpcode w) with
    | none => simp [ho] at h
    | some op =>
      simp only [ho] at h
      by_cases hm : w &&& op.mask = op.pattern
      · simp only [hm, if_true, Except.ok.injEq] at h
        exact ⟨op, hm, h⟩
      · simp [hm] at h
  · rintro ⟨op, hm, rfl⟩
    have ho : opcodeOf (fieldOpcode w) = some op := opcodeOf_eq_some.mpr ((and_mask_eq_pattern w op).mp hm).1
    simp [ho, hm]

theorem operandsOf_opcode (w : Word64) (op : Opcode) : (operandsOf w op).opcode = op := by cases op <;> rfl

/-- A word that matches a row decodes to a command of that row. -/
theorem decode_of_match {w : Word64} {op : Opcode} (h : w &&& op.mask = op.pattern) : decode w = .ok (operandsOf w op) :=
  (decode_eq_ok_iff w _).mpr ⟨op, h, rfl⟩

/-- A row's word built by the encoder has the row's opcode and a zero reserved field. -/
theorem commandWord_match (op : Opcode) (a b : Nat) (imm8 : BitVec 8) (imm32 : BitVec 32)
    (hb : BitVec.ofNat 4 b &&& op.maskB = 0#4) (h8 : imm8 &&& op.maskImm8 = 0#8) (h32 : imm32 &&& op.maskImm32 = 0#32) :
    commandWord op a b imm8 imm32 &&& op.mask = op.pattern := by
  rw [and_mask_eq_pattern]
  simp only [commandWord, fieldOpcode_packWord, fieldB_packWord, fieldImm8_packWord, fieldRsvd_packWord, fieldImm32_packWord]
  exact ⟨trivial, hb, h8, trivial, h32⟩

theorem selOf_selBits (sel : ArraySel) : selOf (selBits sel) = sel := by cases sel <;> decide

/-! A word as bytes (20_memory R33). -/

theorem length_bytesLE (n v : Nat) : (bytesLE n v).length = n := by induction n generalizing v <;> simp [bytesLE, *]

theorem getElem?_bytesLE {n k : Nat} (v : Nat) (h : k < n) : (bytesLE n v)[k]? = some (BitVec.ofNat 8 (v / 256 ^ k)) := by
  induction n generalizing v k with
  | zero => omega
  | succ n ih =>
    cases k with
    | zero => simp [bytesLE]
    | succ k =>
      simp only [bytesLE, List.getElem?_cons_succ]
      rw [ih _ (by omega), Nat.div_div_eq_div_mul, pow_succ, mul_comm]

theorem ofBytesLE_bytesLE (n v : Nat) : ofBytesLE (bytesLE n v) = v % 256 ^ n := by
  induction n generalizing v with
  | zero => simp [bytesLE, ofBytesLE, Nat.mod_one]
  | succ n ih =>
    simp only [bytesLE, ofBytesLE, ih, BitVec.toNat_ofNat]
    rw [show 256 ^ (n + 1) = 256 * 256 ^ n by ring, Nat.mod_mul]

theorem wordBytes_length (w : Word64) : (wordBytes w).length = 8 := length_bytesLE 8 _

theorem ofBytesLE_wordBytes (w : Word64) : ofBytesLE (wordBytes w) = w.toNat := by
  rw [wordBytes, ofBytesLE_bytesLE]
  exact Nat.mod_eq_of_lt w.isLt

theorem tableWord_toNat {w : Nat} (h : w < 2 ^ 64) : (tableWord 64 w).toNat = w := by
  simp [tableWord]
  omega

end Sys2Proof
end

