-- ==== Sys2Proof/Laws/Ln.lean ====
section
/-! SUPPORT. What the logarithm's enclosure is worth (42_estimate R105 (L4)): the series bounds are bounds of artanh, the rational
bounds enclose the real logarithm, they are so close that at most one binary64 value lies between them, and each of the two
candidates is then one of the two binary64 values that bracket the real number. -/

namespace Sys2Proof.Machine

open Finset in
/-- The sum over j < n of q^j / (2(i+j)+1). -/
noncomputable def seriesReal (q : ℝ) (n i : ℕ) : ℝ := ∑ j ∈ range n, q ^ j / (2 * ((i : ℝ) + j) + 1)

theorem seriesReal_zero (q : ℝ) (i : ℕ) : seriesReal q 0 i = 0 := by simp [seriesReal]

theorem seriesReal_succ (q : ℝ) (n i : ℕ) :
    seriesReal q (n + 1) i = 1 / (2 * (i : ℝ) + 1) + q * seriesReal q n (i + 1) := by
  unfold seriesReal
  rw [Finset.sum_range_succ', Finset.mul_sum, add_comm]
  congr 1
  · simp
  · refine Finset.sum_congr rfl fun j _ => ?_
    push_cast
    rw [pow_succ]
    ring_nf

theorem natDiv_le_real (x y : ℕ) : ((x / y : ℕ) : ℝ) ≤ (x : ℝ) / y := Nat.cast_div_le

theorem real_lt_natDiv (x y : ℕ) : (x : ℝ) / y < ((x / y : ℕ) : ℝ) + 1 := by
  have h := Nat.lt_floor_add_one ((x : ℝ) / y)
  rwa [Nat.floor_div_eq_div] at h

theorem seriesLow_le (a b n i : ℕ) :
    (seriesLow a b n i : ℝ) ≤ 2 ^ lnPlaces * seriesReal ((a : ℝ) ^ 2 / (b : ℝ) ^ 2) n i := by
  induction n generalizing i with
  | zero => simp [seriesLow, seriesReal_zero]
  | succ n ih =>
    rw [seriesReal_succ, seriesLow]
    push_cast
    have h1 := natDiv_le_real (2 ^ lnPlaces) (2 * i + 1)
    have h2 := natDiv_le_real (a * a * seriesLow a b n (i + 1)) (b * b)
    push_cast at h1 h2
    have h3 : (a : ℝ) * a * seriesLow a b n (i + 1) / (b * b) ≤
        (a : ℝ) ^ 2 / (b : ℝ) ^ 2 * (2 ^ lnPlaces * seriesReal ((a : ℝ) ^ 2 / (b : ℝ) ^ 2) n (i + 1)) := by
      rw [show (a : ℝ) * a * seriesLow a b n (i + 1) / (b * b) = (a : ℝ) ^ 2 / (b : ℝ) ^ 2 * seriesLow a b n (i + 1) by ring]
      exact mul_le_mul_of_nonneg_left (ih (i + 1)) (by positivity)
    calc _ ≤ (2 : ℝ) ^ lnPlaces / (2 * i + 1) + _ := add_le_add h1 (le_trans h2 h3)
      _ = _ := by ring

theorem le_seriesHigh (a b n i : ℕ) :
    2 ^ lnPlaces * (seriesReal ((a : ℝ) ^ 2 / (b : ℝ) ^ 2) n i + 2 * ((a : ℝ) ^ 2 / (b : ℝ) ^ 2) ^ n) ≤ (seriesHigh a b n i : ℝ) := by
  induction n generalizing i with
  | zero => simp [seriesHigh, seriesReal_zero, pow_succ]
  | succ n ih =>
    rw [seriesReal_succ, seriesHigh]
    push_cast
    have h1 := (real_lt_natDiv (2 ^ lnPlaces) (2 * i + 1)).le
    have h2 := (real_lt_natDiv (a * a * seriesHigh a b n (i + 1)) (b * b)).le
    push_cast at h1 h2
    have h3 : (a : ℝ) ^ 2 / (b : ℝ) ^ 2 * (2 ^ lnPlaces * (seriesReal ((a : ℝ) ^ 2 / (b : ℝ) ^ 2) n (i + 1) +
        2 * ((a : ℝ) ^ 2 / (b : ℝ) ^ 2) ^ n)) ≤ (a : ℝ) * a * seriesHigh a b n (i + 1) / (b * b) := by
      rw [show (a : ℝ) * a * seriesHigh a b n (i + 1) / (b * b) = (a : ℝ) ^ 2 / (b : ℝ) ^ 2 * seriesHigh a b n (i + 1) by ring]
      exact mul_le_mul_of_nonneg_left (ih (i + 1)) (by positivity)
    calc _ = (2 : ℝ) ^ lnPlaces / (2 * i + 1) + (a : ℝ) ^ 2 / (b : ℝ) ^ 2 * (2 ^ lnPlaces *
          (seriesReal ((a : ℝ) ^ 2 / (b : ℝ) ^ 2) n (i + 1) + 2 * ((a : ℝ) ^ 2 / (b : ℝ) ^ 2) ^ n)) := by
            rw [pow_succ]; ring
      _ ≤ _ := add_le_add h1 (le_trans h3 h2)

theorem sum_odd_eq (x : ℝ) (n : ℕ) :
    ∑ i ∈ Finset.range n, x ^ (2 * i + 1) / (2 * (i : ℝ) + 1) = x * seriesReal (x ^ 2) n 0 := by
  unfold seriesReal
  rw [Finset.mul_sum]
  refine Finset.sum_congr rfl fun i _ => ?_
  rw [pow_succ, pow_mul]
  push_cast
  ring_nf

/-- The series bounds, scaled by t, enclose artanh t = ln((1+t)/(1-t)) / 2, for t = a/b of square at most 1/2. -/
theorem series_encloses {a b : ℕ} (hb : 0 < b) (h : 2 * (a * a) ≤ b * b) (n : ℕ) :
    (a : ℝ) / b * (seriesLow a b n 0 : ℝ) ≤ 2 ^ lnPlaces * (1 / 2 * Real.log ((1 + (a : ℝ) / b) / (1 - (a : ℝ) / b))) ∧
      2 ^ lnPlaces * (1 / 2 * Real.log ((1 + (a : ℝ) / b) / (1 - (a : ℝ) / b))) ≤ (a : ℝ) / b * (seriesHigh a b n 0 : ℝ) := by
  have hbR : (0 : ℝ) < b := by exact_mod_cast hb
  have hx0 : (0 : ℝ) ≤ (a : ℝ) / b := by positivity
  have hq : ((a : ℝ) / b) ^ 2 = (a : ℝ) ^ 2 / (b : ℝ) ^ 2 := by rw [div_pow]
  have hq2 : ((a : ℝ) / b) ^ 2 ≤ 1 / 2 := by
    rw [hq, div_le_div_iff₀ (by positivity) (by norm_num)]
    have : (2 : ℝ) * (a * a) ≤ b * b := by exact_mod_cast h
    nlinarith
  have hx1 : (a : ℝ) / b < 1 := by nlinarith
  have hp : (0 : ℝ) < 2 ^ lnPlaces := by positivity
  have e := sum_odd_eq ((a : ℝ) / b) n
  have l1 := Real.sum_range_le_log_div hx0 hx1 n
  have l2 := Real.log_div_le_sum_range_add hx0 hx1 n
  rw [e] at l1 l2
  have lo := seriesLow_le a b n 0
  have hi := le_seriesHigh a b n 0
  rw [← hq] at lo hi
  constructor
  · calc (a : ℝ) / b * (seriesLow a b n 0 : ℝ)
        ≤ (a : ℝ) / b * (2 ^ lnPlaces * seriesReal (((a : ℝ) / b) ^ 2) n 0) := mul_le_mul_of_nonneg_left lo hx0
      _ = 2 ^ lnPlaces * ((a : ℝ) / b * seriesReal (((a : ℝ) / b) ^ 2) n 0) := by ring
      _ ≤ _ := mul_le_mul_of_nonneg_left l1 hp.le
  · have tail : ((a : ℝ) / b) ^ (2 * n + 1) / (1 - ((a : ℝ) / b) ^ 2) ≤ (a : ℝ) / b * (2 * (((a : ℝ) / b) ^ 2) ^ n) := by
      rw [div_le_iff₀ (by linarith), pow_succ, pow_mul]
      have h0 : 0 ≤ (((a : ℝ) / b) ^ 2) ^ n * ((a : ℝ) / b) := by positivity
      nlinarith
    calc _ ≤ 2 ^ lnPlaces * ((a : ℝ) / b * seriesReal (((a : ℝ) / b) ^ 2) n 0 + (a : ℝ) / b * (2 * (((a : ℝ) / b) ^ 2) ^ n)) :=
          mul_le_mul_of_nonneg_left (by linarith) hp.le
      _ = (a : ℝ) / b * (2 ^ lnPlaces * (seriesReal (((a : ℝ) / b) ^ 2) n 0 + 2 * (((a : ℝ) / b) ^ 2) ^ n)) := by ring
      _ ≤ _ := mul_le_mul_of_nonneg_left hi hx0

/-- The two series bounds are within five units of each other, for t of square at most 1/9. -/
theorem series_close {a b : ℕ} (h : 9 * (a * a) ≤ b * b) (n i : ℕ) :
    (seriesHigh a b n i : ℝ) ≤ seriesLow a b n i + 4 + 2 ^ (lnPlaces + 1) / 9 ^ n := by
  induction n generalizing i with
  | zero => simp [seriesHigh, seriesLow]
  | succ n ih =>
    rw [seriesHigh, seriesLow]
    push_cast
    rcases Nat.eq_zero_or_pos b with hb | hb
    · subst hb
      have : (0 : ℝ) ≤ 2 ^ (lnPlaces + 1) / 9 ^ (n + 1) := by positivity
      simp
      linarith
    have hbR : (0 : ℝ) < b := by exact_mod_cast hb
    have h1 := natDiv_le_real (a * a * seriesHigh a b n (i + 1)) (b * b)
    have h2 := (real_lt_natDiv (a * a * seriesLow a b n (i + 1)) (b * b)).le
    push_cast at h1 h2
    have hq : (a : ℝ) * a / (b * b) ≤ 1 / 9 := by
      rw [div_le_div_iff₀ (by positivity) (by norm_num)]
      have : (9 : ℝ) * (a * a) ≤ b * b := by exact_mod_cast h
      linarith
    have hq0 : 0 ≤ (a : ℝ) * a / (b * b) := by positivity
    have hstep : (a : ℝ) * a / (b * b) * (seriesHigh a b n (i + 1) - seriesLow a b n (i + 1)) ≤
        1 / 9 * (4 + 2 ^ (lnPlaces + 1) / 9 ^ n) := by
      have hi := ih (i + 1)
      have h0 : (0 : ℝ) ≤ 4 + 2 ^ (lnPlaces + 1) / 9 ^ n := by positivity
      calc _ ≤ (a : ℝ) * a / (b * b) * (4 + 2 ^ (lnPlaces + 1) / 9 ^ n) := mul_le_mul_of_nonneg_left (by linarith) hq0
        _ ≤ _ := mul_le_mul_of_nonneg_right hq h0
    have e1 : (a : ℝ) * a * seriesHigh a b n (i + 1) / (b * b) = (a : ℝ) * a / (b * b) * seriesHigh a b n (i + 1) := by ring
    have e2 : (a : ℝ) * a * seriesLow a b n (i + 1) / (b * b) = (a : ℝ) * a / (b * b) * seriesLow a b n (i + 1) := by ring
    rw [e1] at h1
    rw [e2] at h2
    have e3 : (2 : ℝ) ^ (lnPlaces + 1) / 9 ^ (n + 1) = 1 / 9 * (2 ^ (lnPlaces + 1) / 9 ^ n) := by rw [pow_succ]; ring
    rw [e3]
    linarith

theorem series_within_five {a b : ℕ} (h : 9 * (a * a) ≤ b * b) :
    (seriesHigh a b lnTerms 0 : ℝ) ≤ seriesLow a b lnTerms 0 + 5 := by
  have := series_close h lnTerms 0
  have h2 : (2 : ℝ) ^ (lnPlaces + 1) / 9 ^ lnTerms ≤ 1 := by
    unfold lnPlaces lnTerms
    norm_num
  linarith

theorem f64Units_eq_mant (x : F64) : f64Units x = lnMant x * 2 ^ (f64Exp x - 1) := by
  unfold f64Units lnMant
  split <;> simp_all

theorem lnMant_pos {x : F64} (h : f64Units x ≠ 0) : 0 < lnMant x := by
  rw [f64Units_eq_mant] at h
  exact Nat.pos_of_ne_zero fun h0 => h (by rw [h0, Nat.zero_mul])

/-- The significand and its power of two are within a factor of two of each other. -/
theorem lnPivot_near {m : ℕ} (hm : 0 < m) : m ≤ 2 * 2 ^ lnPivotLog m ∧ 2 ^ lnPivotLog m ≤ 2 * m := by
  have h1 := Nat.log2_self_le (n := m) (by omega)
  have h2 : m < 2 ^ (m.log2 + 1) := Nat.lt_log2_self
  rw [pow_succ] at h2
  unfold lnPivotLog
  split
  · rw [pow_succ]; omega
  · omega

theorem lnNum_natAbs_le {x : F64} (h : f64Units x ≠ 0) :
    9 * ((lnNum x).natAbs * (lnNum x).natAbs) ≤ lnDen x * lnDen x := by
  obtain ⟨h1, h2⟩ := lnPivot_near (lnMant_pos h)
  have h3 : 3 * (lnNum x).natAbs ≤ lnDen x := by
    unfold lnNum lnDen
    omega
  calc 9 * ((lnNum x).natAbs * (lnNum x).natAbs) = 3 * (lnNum x).natAbs * (3 * (lnNum x).natAbs) := by ring
    _ ≤ _ := Nat.mul_le_mul h3 h3

theorem lnDen_pos (x : F64) : 0 < lnDen x := by
  unfold lnDen
  have : 0 < 2 ^ lnPivotLog (lnMant x) := by positivity
  omega

theorem lnDenom_pos (x : F64) : 0 < lnDenom x := by
  unfold lnDenom
  have := lnDen_pos x
  positivity

/-- The reduction: ln x is scale * ln 2 and the logarithm of the ratio of significand and pivot. -/
theorem log_reduce {x : F64} (hs : f64Sign x = false) (h : f64Units x ≠ 0) :
    Real.log (f64Real x) =
      lnScale x * Real.log 2 + Real.log ((lnMant x : ℝ) / 2 ^ lnPivotLog (lnMant x)) := by
  have hm : (0 : ℝ) < lnMant x := by exact_mod_cast lnMant_pos h
  have e : f64Real x = (2 : ℝ) ^ (lnScale x) * ((lnMant x : ℝ) / 2 ^ lnPivotLog (lnMant x)) := by
    unfold f64Real
    rw [f64Value_nonneg hs, f64Units_eq_mant]
    unfold lnScale
    rw [zpow_sub₀ (by norm_num), zpow_add₀ (by norm_num)]
    push_cast
    simp only [zpow_natCast]
    norm_cast
    field_simp
    push_cast
    ring
  rw [e, Real.log_mul (by positivity) (by positivity), Real.log_zpow]

theorem log_two_bounds :
    2 * (seriesLow 1 3 lnTerms 0 : ℝ) ≤ 3 * 2 ^ lnPlaces * Real.log 2 ∧
      3 * 2 ^ lnPlaces * Real.log 2 ≤ 2 * (seriesHigh 1 3 lnTerms 0 : ℝ) := by
  obtain ⟨h1, h2⟩ := series_encloses (a := 1) (b := 3) (by norm_num) (by norm_num) lnTerms
  have e : (1 + ((1 : ℕ) : ℝ) / ((3 : ℕ) : ℝ)) / (1 - ((1 : ℕ) : ℝ) / ((3 : ℕ) : ℝ)) = 2 := by norm_num
  rw [e] at h1 h2
  push_cast at h1 h2
  constructor <;> linarith

/-- The logarithm of the ratio, between the two series bounds; a ratio below 1 takes the other bound. -/
theorem log_ratio_bounds {x : F64} (h : f64Units x ≠ 0) :
    (6 * scaleBy (lnNum x) (seriesLow (lnNum x).natAbs (lnDen x) lnTerms 0) (seriesHigh (lnNum x).natAbs (lnDen x) lnTerms 0) : ℝ) ≤
        3 * lnDen x * 2 ^ lnPlaces * Real.log ((lnMant x : ℝ) / 2 ^ lnPivotLog (lnMant x)) ∧
      3 * lnDen x * 2 ^ lnPlaces * Real.log ((lnMant x : ℝ) / 2 ^ lnPivotLog (lnMant x)) ≤
        (6 * scaleBy (lnNum x) (seriesHigh (lnNum x).natAbs (lnDen x) lnTerms 0) (seriesLow (lnNum x).natAbs (lnDen x) lnTerms 0) : ℝ) := by
  have hm : (0 : ℝ) < lnMant x := by exact_mod_cast lnMant_pos h
  have hc : (0 : ℝ) < 2 ^ lnPivotLog (lnMant x) := by positivity
  have hb : (0 : ℝ) < lnDen x := by exact_mod_cast lnDen_pos x
  have h9 := lnNum_natAbs_le h
  obtain ⟨h1, h2⟩ := series_encloses (a := (lnNum x).natAbs) (b := lnDen x) (lnDen_pos x) (by omega) lnTerms
  have eb : (lnDen x : ℝ) = lnMant x + 2 ^ lnPivotLog (lnMant x) := by unfold lnDen; push_cast; ring
  have en : (lnNum x : ℝ) = lnMant x - 2 ^ lnPivotLog (lnMant x) := by unfold lnNum; push_cast; ring
  have c1 : ((lnNum x).natAbs : ℝ) * seriesLow (lnNum x).natAbs (lnDen x) lnTerms 0 =
      lnDen x * (((lnNum x).natAbs : ℝ) / lnDen x * seriesLow (lnNum x).natAbs (lnDen x) lnTerms 0) := by field_simp
  have c2 : ((lnNum x).natAbs : ℝ) * seriesHigh (lnNum x).natAbs (lnDen x) lnTerms 0 =
      lnDen x * (((lnNum x).natAbs : ℝ) / lnDen x * seriesHigh (lnNum x).natAbs (lnDen x) lnTerms 0) := by field_simp
  have d1 := mul_le_mul_of_nonneg_left h1 hb.le
  have d2 := mul_le_mul_of_nonneg_left h2 hb.le
  rw [← c1] at d1
  rw [← c2] at d2
  unfold scaleBy
  by_cases hn : 0 ≤ lnNum x
  · have ea : ((lnNum x).natAbs : ℝ) = lnNum x := by
      rw [Nat.cast_natAbs, abs_of_nonneg hn]
    have er : (1 + ((lnNum x).natAbs : ℝ) / lnDen x) / (1 - ((lnNum x).natAbs : ℝ) / lnDen x) =
        (lnMant x : ℝ) / 2 ^ lnPivotLog (lnMant x) := by
      rw [ea, en, eb]
      field_simp
      ring
    rw [er] at d1 d2
    rw [ea] at d1 d2
    rw [if_pos hn, if_pos hn]
    push_cast
    constructor <;> linarith
  · have ea : ((lnNum x).natAbs : ℝ) = -lnNum x := by
      rw [Nat.cast_natAbs, abs_of_neg (not_le.mp hn), Int.cast_neg]
    have er : (1 + ((lnNum x).natAbs : ℝ) / lnDen x) / (1 - ((lnNum x).natAbs : ℝ) / lnDen x) =
        ((lnMant x : ℝ) / 2 ^ lnPivotLog (lnMant x))⁻¹ := by
      rw [ea, en, eb, inv_div]
      have hs : (lnMant x : ℝ) + 2 ^ lnPivotLog (lnMant x) ≠ 0 := by positivity
      have n1 : 1 + -((lnMant x : ℝ) - 2 ^ lnPivotLog (lnMant x)) / (lnMant x + 2 ^ lnPivotLog (lnMant x)) =
          2 * 2 ^ lnPivotLog (lnMant x) / (lnMant x + 2 ^ lnPivotLog (lnMant x)) := by
        field_simp
        ring
      have n2 : 1 - -((lnMant x : ℝ) - 2 ^ lnPivotLog (lnMant x)) / (lnMant x + 2 ^ lnPivotLog (lnMant x)) =
          2 * lnMant x / (lnMant x + 2 ^ lnPivotLog (lnMant x)) := by
        field_simp
        ring
      rw [n1, n2]
      field_simp
    rw [er, Real.log_inv] at d1 d2
    rw [ea] at d1 d2
    rw [if_neg hn, if_neg hn]
    push_cast
    constructor <;> linarith

/-- The rational bounds enclose the real logarithm. -/
theorem ln_enclosed {x : F64} (hs : f64Sign x = false) (h : f64Units x ≠ 0) :
    (lnLow x : ℝ) ≤ lnDenom x * Real.log (f64Real x) ∧ lnDenom x * Real.log (f64Real x) ≤ lnHigh x := by
  obtain ⟨r1, r2⟩ := log_ratio_bounds h
  obtain ⟨t1, t2⟩ := log_two_bounds
  have hb : (0 : ℝ) < lnDen x := by exact_mod_cast lnDen_pos x
  rw [log_reduce hs h]
  unfold lnLow lnHigh lnDenom
  push_cast
  have key : (2 * lnDen x * scaleBy (lnScale x) (seriesLow 1 3 lnTerms 0) (seriesHigh 1 3 lnTerms 0) : ℝ) ≤
        lnDen x * lnScale x * (3 * 2 ^ lnPlaces * Real.log 2) ∧
      lnDen x * lnScale x * (3 * 2 ^ lnPlaces * Real.log 2) ≤
        (2 * lnDen x * scaleBy (lnScale x) (seriesHigh 1 3 lnTerms 0) (seriesLow 1 3 lnTerms 0) : ℝ) := by
    unfold scaleBy
    by_cases hk : 0 ≤ lnScale x
    · have hkR : (0 : ℝ) ≤ lnScale x := by exact_mod_cast hk
      rw [if_pos hk, if_pos hk]
      push_cast
      have hp : (0 : ℝ) ≤ lnDen x * lnScale x := by positivity
      have u1 := mul_le_mul_of_nonneg_left t1 hp
      have u2 := mul_le_mul_of_nonneg_left t2 hp
      constructor <;> linarith
    · have hkR : (lnScale x : ℝ) ≤ 0 := by exact_mod_cast (not_le.mp hk).le
      rw [if_neg hk, if_neg hk]
      push_cast
      have hp : (lnDen x : ℝ) * lnScale x ≤ 0 := mul_nonpos_of_nonneg_of_nonpos hb.le hkR
      have u1 := mul_le_mul_of_nonpos_left t1 hp
      have u2 := mul_le_mul_of_nonpos_left t2 hp
      constructor <;> linarith
  constructor <;> linarith [key.1, key.2]

theorem lnScale_abs {x : F64} (h : f64Units x ≠ 0) : |(lnScale x : ℝ)| ≤ 1100 := by
  have hm := lnMant_pos h
  have hlt : lnMant x < 2 ^ 53 := by
    unfold lnMant f64Frac
    split <;> omega
  have hl : (lnMant x).log2 < 53 := (Nat.log2_lt (by omega)).mpr hlt
  have hp : lnPivotLog (lnMant x) ≤ 53 := by
    unfold lnPivotLog
    split <;> omega
  have he : f64Exp x < 2048 := Nat.mod_lt _ (by norm_num)
  have : |lnScale x| ≤ 1100 := by
    rw [abs_le]
    unfold lnScale
    omega
  exact_mod_cast this

theorem scaleBy_gap (k : ℤ) (c c' : ℕ) (h : c ≤ c') (h5 : (c' : ℝ) ≤ c + 5) :
    (scaleBy k c' c : ℝ) - scaleBy k c c' ≤ 5 * |(k : ℝ)| := by
  have hc : (c : ℝ) ≤ c' := by exact_mod_cast h
  unfold scaleBy
  by_cases hk : 0 ≤ k
  · have hkR : (0 : ℝ) ≤ k := by exact_mod_cast hk
    rw [if_pos hk, if_pos hk, abs_of_nonneg hkR]
    push_cast
    nlinarith
  · have hkR : (k : ℝ) ≤ 0 := by exact_mod_cast (not_le.mp hk).le
    rw [if_neg hk, if_neg hk, abs_of_nonpos hkR]
    push_cast
    nlinarith

theorem seriesLow_le_seriesHigh (a b n i : ℕ) : seriesLow a b n i ≤ seriesHigh a b n i := by
  have h1 := seriesLow_le a b n i
  have h2 := le_seriesHigh a b n i
  have h3 : (0 : ℝ) ≤ 2 ^ lnPlaces * (2 * ((a : ℝ) ^ 2 / (b : ℝ) ^ 2) ^ n) := by positivity
  have : (seriesLow a b n i : ℝ) ≤ seriesHigh a b n i := by linarith
  exact_mod_cast this

/-- The enclosure is narrow: at most 2^(-180) wide. -/
theorem ln_width {x : F64} (h : f64Units x ≠ 0) : ((lnHigh x : ℝ) - lnLow x) * 2 ^ 180 ≤ lnDenom x := by
  have hb : (0 : ℝ) < lnDen x := by exact_mod_cast lnDen_pos x
  have g1 := scaleBy_gap (lnScale x) (seriesLow 1 3 lnTerms 0) (seriesHigh 1 3 lnTerms 0) (seriesLow_le_seriesHigh _ _ _ _)
    (series_within_five (by norm_num))
  have g2 := scaleBy_gap (lnNum x) (seriesLow (lnNum x).natAbs (lnDen x) lnTerms 0)
    (seriesHigh (lnNum x).natAbs (lnDen x) lnTerms 0) (seriesLow_le_seriesHigh _ _ _ _) (series_within_five (lnNum_natAbs_le h))
  have hk := lnScale_abs h
  have hn : |(lnNum x : ℝ)| ≤ lnDen x := by
    have : |lnNum x| ≤ (lnDen x : ℤ) := by
      rw [abs_le]
      unfold lnNum lnDen
      generalize 2 ^ lnPivotLog (lnMant x) = c
      omega
    exact_mod_cast this
  have e : (lnHigh x : ℝ) - lnLow x ≤ 12000 * lnDen x := by
    unfold lnHigh lnLow
    push_cast
    nlinarith
  have e2 : (12000 : ℝ) * 2 ^ 180 ≤ 3 * 2 ^ lnPlaces := by
    unfold lnPlaces
    norm_num
  unfold lnDenom
  push_cast
  nlinarith

/-- The bits b are next to the magnitude V units: the largest at most V, or the smallest at least V. -/
def Brackets (V : ℝ) (b : ℕ) : Prop :=
  ((magUnits b : ℝ) ≤ V ∧ ∀ c, (magUnits c : ℝ) ≤ V → c ≤ b) ∨ (V ≤ magUnits b ∧ ∀ c, V ≤ magUnits c → b ≤ c)

/-- Two magnitudes of 2^(-55) or more are at least 2^(-107) apart. -/
theorem magUnits_gap {b c : ℕ} (h : b < c) (hb : 2 ^ (967 + 52) ≤ magUnits b) : magUnits b + 2 ^ 967 ≤ magUnits c := by
  have h1 : magUnits (b + 1) ≤ magUnits c := magUnits_le_iff.mpr h
  rw [magUnits_succ] at h1
  rw [← magUnits_pow2 967, magUnits_le_iff] at hb
  have h2 : 2 ^ 967 ≤ 2 ^ (b / 2 ^ 52 - 1) := Nat.pow_le_pow_right (by norm_num) (by omega)
  omega

/-- In a narrow interval around V, the largest magnitude at most its upper end and the smallest at least its lower end are each next
to V. -/
theorem brackets_of_enclosed {lo hi d : ℕ} {V : ℝ} (hd : 0 < d) (h1 : (lo : ℝ) ≤ V * d) (h2 : V * d ≤ hi)
    (hlo : 2 ^ (967 + 52) * d ≤ lo) (hw : hi < lo + 2 ^ 967 * d) : Brackets V (floorUnits hi d) ∧ Brackets V (ceilUnits lo d) := by
  have hdR : (0 : ℝ) < d := by exact_mod_cast hd
  have le_hi : ∀ {c}, (magUnits c : ℝ) ≤ V → c ≤ floorUnits hi d := fun {c} hc => by
    rw [le_floorUnits_iff hd]
    have : (magUnits c : ℝ) * d ≤ hi := le_trans (mul_le_mul_of_nonneg_right hc hdR.le) h2
    exact_mod_cast this
  have lo_le : ∀ {c}, V ≤ (magUnits c : ℝ) → ceilUnits lo d ≤ c := fun {c} hc => by
    rw [ceilUnits_le_iff hd]
    have : (lo : ℝ) ≤ magUnits c * d := le_trans h1 (mul_le_mul_of_nonneg_right hc hdR.le)
    exact_mod_cast this
  have apart : ∀ {b c}, b < c → lo ≤ magUnits b * d → magUnits c * d ≤ hi → False := fun {b c} hbc hb hc => by
    have hbig : 2 ^ (967 + 52) ≤ magUnits b := Nat.le_of_mul_le_mul_right (le_trans hlo hb) hd
    have := Nat.mul_le_mul_right d (magUnits_gap hbc hbig)
    rw [add_mul] at this
    omega
  have hfl := (le_floorUnits_iff (n := hi) hd).mp (le_refl _)
  have hce := (ceilUnits_le_iff (n := lo) hd).mp (le_refl _)
  constructor
  · rcases le_or_gt (magUnits (floorUnits hi d) : ℝ) V with h | h
    · exact .inl ⟨h, fun c hc => le_hi hc⟩
    · refine .inr ⟨h.le, fun c hc => ?_⟩
      by_contra hlt
      exact apart (not_le.mp hlt) ((ceilUnits_le_iff hd).mp (lo_le hc)) hfl
  · rcases le_or_gt V (magUnits (ceilUnits lo d) : ℝ) with h | h
    · exact .inr ⟨h, fun c hc => lo_le hc⟩
    · refine .inl ⟨h.le, fun c hc => ?_⟩
      by_contra hlt
      exact apart (not_le.mp hlt) hce ((le_floorUnits_iff hd).mp (le_hi hc))

/-- A positive finite value other than 1 is at least 2^(-53) away from 1. -/
theorem units_away_from_one {x : F64} (hs : f64Sign x = false) (h1 : x ≠ 0x3FF0000000000000#64) :
    f64Units x + 2 ^ 1021 ≤ 2 ^ 1074 ∨ 2 ^ 1074 + 2 ^ 1021 ≤ f64Units x := by
  have hne : f64Mag x ≠ 1023 * 2 ^ 52 := fun he => h1 (by
    rw [f64_eq_pack x, hs, he]
    decide)
  have e1 : magUnits (1023 * 2 ^ 52) = 2 ^ 1074 := by simpa only [Nat.reduceAdd] using magUnits_pow2 1022
  have ebelow : magUnits (1023 * 2 ^ 52 - 1) + 2 ^ 1021 = 2 ^ 1074 := by
    rw [← e1, show 1023 * 2 ^ 52 = (1023 * 2 ^ 52 - 1) + 1 by norm_num, magUnits_succ]
    norm_num
  have eabove : magUnits (1023 * 2 ^ 52 + 1) = 2 ^ 1074 + 2 ^ 1022 := by
    rw [magUnits_succ, e1]
    norm_num
  rw [f64Units_eq]
  rcases lt_or_gt_of_ne hne with h | h
  · left
    have := magUnits_le_iff.mpr (show f64Mag x ≤ 1023 * 2 ^ 52 - 1 by omega)
    omega
  · right
    have := magUnits_le_iff.mpr (show 1023 * 2 ^ 52 + 1 ≤ f64Mag x by omega)
    have h3 : 2 ^ 1021 ≤ 2 ^ 1022 := Nat.pow_le_pow_right (by norm_num) (by norm_num)
    omega

/-- Away from 1 the logarithm is at least 2^(-54) in magnitude. -/
theorem log_away_from_zero {x : F64} (hs : f64Sign x = false) (h : f64Units x ≠ 0) (h1 : x ≠ 0x3FF0000000000000#64) :
    (1 < f64Real x ∧ 1 / 2 ^ 54 ≤ Real.log (f64Real x)) ∨ (f64Real x < 1 ∧ Real.log (f64Real x) ≤ -(1 / 2 ^ 54)) := by
  have hu : (0 : ℝ) < f64Units x := by exact_mod_cast Nat.pos_of_ne_zero h
  have e : f64Real x = (f64Units x : ℝ) / 2 ^ 1074 := by
    unfold f64Real
    rw [f64Value_nonneg hs]
    push_cast
    rfl
  have hx : 0 < f64Real x := by rw [e]; positivity
  rcases units_away_from_one hs h1 with hle | hge
  · right
    have hR : (f64Units x : ℝ) + 2 ^ 1021 ≤ 2 ^ 1074 := by exact_mod_cast hle
    have h2 : f64Real x ≤ 1 - 1 / 2 ^ 53 := by
      rw [e, div_le_iff₀ (by positivity)]
      have hpow : (2 : ℝ) ^ 1074 = 2 ^ 53 * 2 ^ 1021 := by rw [← pow_add]
      rw [hpow] at hR ⊢
      linarith
    have h3 := Real.log_le_sub_one_of_pos hx
    have h4 : (1 : ℝ) / 2 ^ 54 ≤ 1 / 2 ^ 53 := by norm_num
    have h5 : (0 : ℝ) < 1 / 2 ^ 53 := by positivity
    exact ⟨by linarith, by linarith⟩
  · left
    have hR : (2 : ℝ) ^ 1074 + 2 ^ 1021 ≤ f64Units x := by exact_mod_cast hge
    have h2 : 1 + 1 / 2 ^ 53 ≤ f64Real x := by
      rw [e, le_div_iff₀ (by positivity)]
      have hpow : (2 : ℝ) ^ 1074 = 2 ^ 53 * 2 ^ 1021 := by rw [← pow_add]
      rw [hpow] at hR ⊢
      linarith
    have h3 := Real.one_sub_inv_le_log_of_pos hx
    have h4 : (f64Real x)⁻¹ ≤ (1 + 1 / 2 ^ 53 : ℝ)⁻¹ := inv_anti₀ (by positivity) h2
    have h5 : (1 + 1 / 2 ^ 53 : ℝ)⁻¹ ≤ 1 - 1 / 2 ^ 54 := by norm_num
    have h6 : (0 : ℝ) < 1 / 2 ^ 53 := by positivity
    exact ⟨by linarith, by linarith⟩

/-- A magnitude next to V units, with the sign of the real number it stands for, is a faithful rounding of that number and has its sign. -/
theorem faithful_of_brackets (V : ℝ) (sgn : Bool) (b : ℕ) (hV : 0 < V) (hVmax : V ≤ magUnits (f64InfBits - 1))
    (h : Brackets V b) (h1 : 1 ≤ V) :
    Faithful ((if sgn then -1 else 1) * (V / 2 ^ 1074)) (f64Pack sgn b) ∧ 0 < (if sgn then -1 else 1) * f64Real (f64Pack sgn b) := by
  have hbI : b < f64InfBits := by
    have : b ≤ f64InfBits - 1 := by
      rcases h with ⟨h, -⟩ | ⟨-, h⟩
      · rw [← magUnits_le_iff]; exact_mod_cast le_trans h hVmax
      · exact h _ hVmax
    have : 0 < f64InfBits := by unfold f64InfBits; norm_num
    omega
  have hb0 : 0 < b := by
    rcases h with ⟨-, h⟩ | ⟨h, -⟩
    · have := h 1 (by rw [show magUnits 1 = 1 by decide]; exact_mod_cast h1); omega
    · rcases Nat.eq_zero_or_pos b with h0 | h0
      · rw [h0] at h; simp at h; linarith
      · exact h0
  have hlt : b < 2 ^ 63 := lt_trans hbI (by decide)
  have mr := f64Real_eq_mag
  have hP : (0 : ℝ) < 2 ^ 1074 := by positivity
  generalize (2 : ℝ) ^ 1074 = P at *
  have hu0 : (0 : ℝ) < magUnits b := by
    have : magUnits 0 < magUnits b := magUnits_lt_iff.mpr hb0
    rw [magUnits_zero] at this; exact_mod_cast this
  have rr : f64Real (f64Pack sgn b) = (if sgn then -1 else 1) * ((magUnits b : ℝ) / P) := by
    rw [mr, f64Sign_pack hlt, f64Mag_pack hlt]
  constructor
  · refine ⟨by rw [finite_iff_mag, f64Mag_pack hlt]; exact hbI, ?_⟩
    rw [rr]
    have dn : ∀ d : F64, (0 : ℝ) ≤ (magUnits (f64Mag d) : ℝ) / P := fun d => div_nonneg (Nat.cast_nonneg _) hP.le
    have hVP : 0 < V / P := div_pos hV hP
    have hbP : 0 < (magUnits b : ℝ) / P := div_pos hu0 hP
    cases sgn
    · simp only [Bool.false_eq_true, if_false, one_mul]
      rcases h with ⟨h1, h2⟩ | ⟨h1, h2⟩
      · left
        refine ⟨by gcongr, fun d _ hd => ?_⟩
        rw [mr] at hd ⊢
        split at hd <;> rename_i hs
        · rw [if_pos hs]; linarith [dn d]
        · rw [if_neg hs, one_mul] at *
          rw [div_le_div_iff_of_pos_right hP] at hd ⊢
          exact_mod_cast magUnits_le_iff.mpr (h2 _ hd)
      · right
        refine ⟨by gcongr, fun d _ hd => ?_⟩
        rw [mr] at hd ⊢
        split at hd <;> rename_i hs
        · linarith [dn d]
        · rw [if_neg hs, one_mul] at *
          rw [div_le_div_iff_of_pos_right hP] at hd ⊢
          exact_mod_cast magUnits_le_iff.mpr (h2 _ hd)
    · simp only [if_true, neg_mul, one_mul]
      rcases h with ⟨h1, h2⟩ | ⟨h1, h2⟩
      · right
        refine ⟨by rw [neg_le_neg_iff]; gcongr, fun d _ hd => ?_⟩
        rw [mr] at hd ⊢
        split at hd <;> rename_i hs
        · rw [if_pos hs, neg_mul, one_mul] at *
          rw [neg_le_neg_iff, div_le_div_iff_of_pos_right hP] at hd ⊢
          exact_mod_cast magUnits_le_iff.mpr (h2 _ hd)
        · rw [if_neg hs]; linarith [dn d]
      · left
        refine ⟨by rw [neg_le_neg_iff]; gcongr, fun d _ hd => ?_⟩
        rw [mr] at hd ⊢
        split at hd <;> rename_i hs
        · rw [if_pos hs, neg_mul, one_mul] at *
          rw [neg_le_neg_iff, div_le_div_iff_of_pos_right hP] at hd ⊢
          exact_mod_cast magUnits_le_iff.mpr (h2 _ hd)
        · linarith [dn d]
  · rw [rr]
    have : 0 < (magUnits b : ℝ) / P := div_pos hu0 hP
    cases sgn <;> simpa using this

/-- The logarithm of a positive finite value is within the finite range. -/
theorem abs_log_le {x : F64} (hf : f64IsFinite x = true) (hs : f64Sign x = false) (h : f64Units x ≠ 0) :
    |Real.log (f64Real x)| * 2 ^ 1074 ≤ magUnits (f64InfBits - 1) := by
  have hx : f64Real x = (f64Units x : ℝ) / 2 ^ 1074 := by rw [f64Real_eq_units, hs]; simp
  have hu : (1 : ℝ) ≤ f64Units x := by exact_mod_cast Nat.one_le_iff_ne_zero.mpr h
  have hP : (0 : ℝ) < 2 ^ 1074 := by positivity
  have hpos : 0 < f64Real x := by rw [hx]; positivity
  have hmag : f64Mag x ≤ f64InfBits - 1 := by rw [finite_iff_mag] at hf; omega
  have hum : (f64Units x : ℝ) ≤ magUnits (f64InfBits - 1) := by rw [f64Units_eq]; exact_mod_cast magUnits_le_iff.mpr hmag
  rcases le_total 0 (Real.log (f64Real x)) with hl | hl
  · rw [abs_of_nonneg hl]
    have h1 := Real.log_le_sub_one_of_pos hpos
    have h2 : Real.log (f64Real x) ≤ f64Real x := by linarith
    have h3 : f64Real x * 2 ^ 1074 = f64Units x := by rw [hx, div_mul_cancel₀ _ hP.ne']
    have h4 : Real.log (f64Real x) * 2 ^ 1074 ≤ f64Real x * 2 ^ 1074 := mul_le_mul_of_nonneg_right h2 hP.le
    rw [h3] at h4
    exact le_trans h4 hum
  · rw [abs_of_nonpos hl]
    have h3 : -Real.log (f64Real x) ≤ 1074 := by
      have : Real.log ((1 : ℝ) / 2 ^ 1074) ≤ Real.log (f64Real x) := by
        apply Real.log_le_log (by positivity)
        rw [hx]; gcongr
      rw [one_div, Real.log_inv, Real.log_pow] at this
      have l2 : Real.log 2 ≤ 1 := by have := Real.log_le_sub_one_of_pos (show (0:ℝ) < 2 by norm_num); linarith
      push_cast at this
      nlinarith
    have h4 : (2 : ℝ) ^ 1074 * 2 ^ 11 ≤ magUnits (f64InfBits - 1) := by
      have : 2 ^ (1085 - 52 + 52) ≤ magUnits (f64InfBits - 1) := by
        rw [← magUnits_pow2, magUnits_le_iff]; decide
      have h5 : ((2 ^ (1085 - 52 + 52) : ℕ) : ℝ) ≤ magUnits (f64InfBits - 1) := by exact_mod_cast this
      rw [← pow_add]; push_cast at h5; exact h5
    have : -Real.log (f64Real x) * 2 ^ 1074 ≤ 2 ^ 11 * 2 ^ 1074 := mul_le_mul_of_nonneg_right (by linarith) hP.le
    rw [mul_comm] at h4
    exact le_trans this h4

/-- L3 of 42_estimate R105. -/
theorem ln_neg {x : F64} (hn : f64IsNaN x = false) (h : f64Value x < 0) : ln x = f64NaN := by
  have hs : f64Sign x = true := by
    by_contra hs; rw [Bool.not_eq_true] at hs; rw [f64Value_nonneg hs] at h; omega
  have hz : f64IsZero x = false := by
    rw [f64IsZero_eq]; simp; intro h0; rw [f64Value_neg hs, f64Units_eq, h0] at h; simp at h
  unfold ln; rw [if_neg (by simp [hn]), if_neg (by simp [hz]), if_pos hs]

end Sys2Proof.Machine
end

