-- ==== Sys2Proof/Laws/Estimate.lean ====
section
/-! SUPPORT. What ESTIMATE computes: the engine's loops as folds over the listing of the array, the range of the sum and of the raw
estimate, and the operations on values whose signs are known. -/

namespace Sys2Proof.Machine

theorem elements_eq_range (A : Memory) (n i : Nat) : A.elements n i = (List.range' i n).map A.read := by
  induction n generalizing i with
  | zero => rfl
  | succ n ih => simp [Memory.elements, ih, List.range'_succ]

/-- The listing said without the loop. -/
theorem elementsOf_eq (A : Memory) (n : Nat) : elementsOf A n = A.elements n 0 := by
  rw [elements_eq_range, elementsOf, List.range_eq_range']

/-- The sum as a fold. -/
theorem sumFrom_eq (A : Memory) (n i : Nat) (z : F64) :
    sumFrom A n i z = (A.elements n i).foldl (fun acc v => fadd acc (pow2neg v)) z := by
  induction n generalizing i z with
  | zero => rfl
  | succ n ih => simp [sumFrom, Memory.elements, ih]

/-- The number of zeros as a count. -/
theorem zerosFrom_eq (A : Memory) (n i : Nat) : zerosFrom A n i = ((A.elements n i).filter (fun v => v == 0#8)).length := by
  induction n generalizing i with
  | zero => rfl
  | succ n ih =>
    simp only [zerosFrom, Memory.elements, ih, List.filter_cons]
    by_cases h : A.read i = 0#8 <;> simp [h]; omega

theorem zerosFrom_le (A : Memory) (n i : Nat) : zerosFrom A n i ≤ n := by
  induction n generalizing i with
  | zero => rfl
  | succ n ih => have := ih (i+1); simp only [zerosFrom]; split <;> omega

/-- The range of an ALPHAMM value (42_estimate R103). -/
theorem alphaOk_facts {v : F64} (h : alphaOk v = true) :
    f64IsFinite v = true ∧ f64Sign v = false ∧ 2 ^ 52 ≤ f64Units v ∧ f64Units v ≤ 2 ^ 1134 := by
  unfold alphaOk at h
  simp only [Bool.and_eq_true, Bool.not_eq_true', bne_iff_ne, decide_eq_true_eq] at h
  obtain ⟨⟨h1, h2⟩, h3⟩ := h
  have hm := toNat_eq_sign_mag v
  rw [h1] at hm; simp at hm
  rw [f64Exp_eq] at h2
  have l1 : (0 + 1) * 2 ^ 52 ≤ f64Mag v := by omega
  have l2 : f64Mag v ≤ (1082 + 1) * 2 ^ 52 := by omega
  refine ⟨?_, h1, ?_, ?_⟩
  · rw [finite_iff_mag]; unfold f64InfBits; omega
  · rw [f64Units_eq]; have := magUnits_le_iff.mpr l1; rw [magUnits_pow2] at this; exact this
  · rw [f64Units_eq]; have := magUnits_le_iff.mpr l2; rw [magUnits_pow2] at this; exact this

/-- The sum of a value that is not negative and a positive one. -/
theorem fadd_pos {x y : F64} (hx : f64IsFinite x = true) (hy : f64IsFinite y = true)
    (sx : f64Sign x = false) (sy : f64Sign y = false) (hu : f64Units y ≠ 0) :
    fadd x y = f64Pack false (roundUnits (f64Units x + f64Units y) 1) := by
  rw [fadd_fin hx hy, f64Value_nonneg sx, f64Value_nonneg sy, if_neg (by omega)]
  rw [show decide (((f64Units x : ℤ) + f64Units y) < 0) = false by simp; omega,
    show ((f64Units x : ℤ) + f64Units y).natAbs = f64Units x + f64Units y by omega]

/-- The quotient of two values that are not negative. -/
theorem fdiv_pos {x y : F64} (hx : f64IsFinite x = true) (hy : f64IsFinite y = true)
    (sx : f64Sign x = false) (sy : f64Sign y = false) (hu : f64Units y ≠ 0) :
    fdiv x y = f64Pack false (roundUnits (f64Units x * 2 ^ 1074) (f64Units y)) := by
  have hz : f64IsZero y = false := by
    rw [f64IsZero_eq]; simp; intro h; apply hu; rw [f64Units_eq, h]; rfl
  unfold fdiv
  rw [if_neg (by simp [isNaN_of_finite hx, isNaN_of_finite hy]), if_neg (by simp [isInf_of_finite hx]),
    if_neg (by simp [isInf_of_finite hy]), if_neg (by simp [hz])]
  unfold f64SignXor; rw [sx, sy]; rfl

theorem fmul_nan (x : F64) : fmul x f64NaN = f64NaN := by
  unfold fmul; rw [if_pos (by simp [show f64IsNaN f64NaN = true by decide])]

/-- The sign of a product that is not a NaN. -/
theorem fmul_sign {x y : F64} (h : f64IsNaN (fmul x y) = false) :
    f64Sign (fmul x y) = Bool.xor (f64Sign x) (f64Sign y) := by
  unfold fmul at *
  have hn : f64IsNaN f64NaN = true := by decide
  split at h
  · rw [hn] at h; simp at h
  · split at h
    · split at h
      · rw [hn] at h; simp at h
      · rename_i h1 h2 h3; rw [if_neg h1, if_pos h2, if_neg h3]; exact f64Sign_pack (by unfold f64InfBits; norm_num)
    · rename_i h1 h2; rw [if_neg h1, if_neg h2]; exact f64Sign_pack (roundUnits_lt _ _)

end Sys2Proof.Machine
end

