-- ==== Sys2Proof/Laws/Exec.lean ====
section
/-! SUPPORT. For each command, one lemma that says once everything it can do: if its meaning answers a next state, then one of the
listed cases holds, and each case gives that state. -/

namespace Sys2Proof.Machine

variable {s t : State} {a : Nat}

theorem validPrecision_iff {p : Nat} : validPrecision p = true ↔ 4 ≤ p ∧ p ≤ 30 := by simp [validPrecision]

theorem execCreate_next {p : Nat} (h : execCreate a p s = .next t) :
    (s.nInst ≤ a ∧ t = s.setRsp .noInstance 0#64 0#64) ∨
    (a < s.nInst ∧ validPrecision p = false ∧ t = s.setRsp .invalidArgument 0#64 0#64) ∨
    (a < s.nInst ∧ validPrecision p = true ∧ t = (s.setSlot a (s.freshSlot p)).setRsp .ok 0#64 0#64) := by
  unfold execCreate checkSlotId at h
  split at h
  · rename_i ha
    split at h
    · exact .inr (.inr ⟨ha, by assumption, respond_next.mp h⟩)
    · exact .inr (.inl ⟨ha, by simpa using ‹¬ validPrecision p = true›, raise_next.mp h⟩)
  · exact .inl ⟨not_lt.mp ‹_›, raise_next.mp h⟩

theorem checkSlot_next {body : Slot → Result} (h : checkSlot a s body = .next t) :
    (s.live a = none ∧ t = s.setRsp .noInstance 0#64 0#64) ∨ (∃ x, s.live a = some x ∧ body x = .next t) := by
  rcases checkSlot_cases h with ⟨x, hx, hb⟩ | ⟨hn, he⟩
  · exact .inr ⟨x, hx, hb⟩
  · exact .inl ⟨hn, by simpa using he⟩

theorem execDestroy_next (h : execDestroy a s = .next t) :
    (s.live a = none ∧ t = s.setRsp .noInstance 0#64 0#64) ∨
    (∃ x, s.live a = some x ∧ t = (s.setSlot a { x with valid := false }).setRsp .ok 0#64 0#64) := by
  rcases checkSlot_next h with h | ⟨x, hx, hb⟩
  · exact .inl h
  · exact .inr ⟨x, hx, respond_next.mp hb⟩

theorem execClear_next (h : execClear a s = .next t) :
    (s.live a = none ∧ t = s.setRsp .noInstance 0#64 0#64) ∨
    (∃ x, s.live a = some x ∧ t = (s.setSlot a { x with M := [] }).setRsp .ok 0#64 0#64) := by
  rcases checkSlot_next h with h | ⟨x, hx, hb⟩
  · exact .inl h
  · exact .inr ⟨x, hx, respond_next.mp hb⟩

theorem execRegcount_next (h : execRegcount a s = .next t) :
    (s.live a = none ∧ t = s.setRsp .noInstance 0#64 0#64) ∨
    (∃ x, s.live a = some x ∧ t = s.setRsp .ok (BitVec.ofNat 64 x.m) 0#64) := by
  rcases checkSlot_next h with h | ⟨x, hx, hb⟩
  · exact .inl h
  · exact .inr ⟨x, hx, respond_next.mp hb⟩

theorem execCounter_next {sel : ArraySel} {index : Nat} (h : execCounter a sel index s = .next t) :
    (s.live a = none ∧ t = s.setRsp .noInstance 0#64 0#64) ∨
    (∃ x, s.live a = some x ∧
      ((x.m ≤ index ∧ t = s.setRsp .indexOutOfRange 0#64 0#64) ∨
       (index < x.m ∧ t = s.setRsp .ok (((x.array sel).read index).setWidth 64) 0#64))) := by
  rcases checkSlot_next h with h | ⟨x, hx, hb⟩
  · exact .inl h
  · refine .inr ⟨x, hx, ?_⟩
    split at hb
    · exact .inl ⟨by assumption, raise_next.mp hb⟩
    · exact .inr ⟨not_le.mp ‹_›, respond_next.mp hb⟩

theorem execFlipbit_next {index bit : Nat} (h : execFlipbit a index bit s = .next t) :
    (s.live a = none ∧ t = s.setRsp .noInstance 0#64 0#64) ∨
    (∃ x, s.live a = some x ∧
      ((x.m ≤ index ∧ t = s.setRsp .indexOutOfRange 0#64 0#64) ∨
       (index < x.m ∧
        t = (s.setSlot a { x with M := x.M.write index (x.M.read index ^^^ (1#8 <<< bit)) }).setRsp .ok 0#64 0#64))) := by
  rcases checkSlot_next h with h | ⟨x, hx, hb⟩
  · exact .inl h
  · refine .inr ⟨x, hx, ?_⟩
    split at hb
    · exact .inl ⟨by assumption, raise_next.mp hb⟩
    · exact .inr ⟨not_le.mp ‹_›, respond_next.mp hb⟩

theorem execAdd_next {hash : Word32} (h : execAdd a hash s = .next t) :
    (s.live a = none ∧ t = s.setRsp .noInstance 0#64 0#64) ∨
    (∃ x, s.live a = some x ∧
      t = (s.setSlot a { x with M := x.M.raiseTo (hashIndex x.prec hash) (hashRank x.prec hash) }).setRsp .ok 0#64 0#64) := by
  rcases checkSlot_next h with h | ⟨x, hx, hb⟩
  · exact .inl h
  · exact .inr ⟨x, hx, respond_next.mp hb⟩

theorem execEstimate_next {sel : ArraySel} (h : execEstimate a sel s = .next t) :
    (s.live a = none ∧ t = s.setRsp .noInstance 0#64 0#64) ∨
    (∃ x, s.live a = some x ∧ t = s.setRsp .ok (estimateOf x.alphaMM (x.array sel) x.m) 0#64) := by
  rcases checkSlot_next h with h | ⟨x, hx, hb⟩
  · exact .inl h
  · exact .inr ⟨x, hx, respond_next.mp hb⟩

theorem execProtect_next {threshold : Nat} (h : execProtect a threshold s = .next t) :
    (s.live a = none ∧ t = s.setRsp .noInstance 0#64 0#64) ∨
    (∃ x, s.live a = some x ∧ t = (s.setSlot a { x with P := protectedCopy x.M x.m threshold }).setRsp .ok 0#64 0#64) := by
  rcases checkSlot_next h with h | ⟨x, hx, hb⟩
  · exact .inl h
  · exact .inr ⟨x, hx, respond_next.mp hb⟩

theorem execMerge_next {b : Nat} (h : execMerge a b s = .next t) :
    ((s.live a = none ∨ s.live b = none) ∧ t = s.setRsp .noInstance 0#64 0#64) ∨
    (∃ x y, s.live a = some x ∧ s.live b = some y ∧
      ((x.m ≠ y.m ∧ t = s.setRsp .sizeMismatch 0#64 (sizesAux x.m y.m)) ∨
       (x.m = y.m ∧ t = (s.setSlot a { x with M := mergeFrom s.mergeOp y.M x.m 0 x.M }).setRsp .ok 0#64 0#64))) := by
  rcases checkSlot_next h with ⟨h1, h2⟩ | ⟨x, hx, hb⟩
  · exact .inl ⟨.inl h1, h2⟩
  · rcases checkSlot_next hb with ⟨h1, h2⟩ | ⟨y, hy, hb⟩
    · exact .inl ⟨.inr h1, h2⟩
    · refine .inr ⟨x, y, hx, hy, ?_⟩
      split at hb
      · exact .inl ⟨by assumption, raise_next.mp hb⟩
      · exact .inr ⟨not_not.mp ‹_›, respond_next.mp hb⟩

@[simp] theorem length_layout (x : Slot) : (layout x).length = 1 + x.m := by
  simp [layout, Nat.add_comm]

/-- Everything a dump of a live slot can do. -/
theorem execDump_live {x : Slot} (hx : s.live a = some x) :
    (∃ k, s.sinkPlan.accept = some k ∧ k < 1 + x.m ∧
      execDump a s =
        match s.sinkPlan.ending with
        | .fails => .next ((s.emit ((layout x).take k)).setRsp .ioError (BitVec.ofNat 64 k) 0#64)
        | .unanswered => .fault .sinkUnanswered) ∨
    ((∀ k, s.sinkPlan.accept = some k → 1 + x.m ≤ k) ∧
      execDump a s = .next ((s.emit (layout x)).setRsp .ok (BitVec.ofNat 64 (1 + x.m)) 0#64)) := by
  unfold execDump
  rw [checkSlot_live hx]
  by_cases h : ∀ k, s.sinkPlan.accept = some k → 1 + x.m ≤ k
  · refine .inr ⟨h, ?_⟩
    rw [dumpBytes_all _ _ _ (by simpa using h)]
    simp [respond]
  · push Not at h
    obtain ⟨k, hk, hlt⟩ := h
    refine .inl ⟨k, hk, hlt, ?_⟩
    rw [dumpBytes_short _ 0 k s hk (Nat.zero_le k) (by simpa using hlt)]
    cases s.sinkPlan.ending <;> simp [raise]

theorem execDump_next (h : execDump a s = .next t) :
    (s.live a = none ∧ t = s.setRsp .noInstance 0#64 0#64) ∨
    (∃ x, s.live a = some x ∧
      ((∃ k, s.sinkPlan.accept = some k ∧ k < 1 + x.m ∧ s.sinkPlan.ending = .fails ∧
          t = (s.emit ((layout x).take k)).setRsp .ioError (BitVec.ofNat 64 k) 0#64) ∨
       ((∀ k, s.sinkPlan.accept = some k → 1 + x.m ≤ k) ∧
          t = (s.emit (layout x)).setRsp .ok (BitVec.ofNat 64 (1 + x.m)) 0#64))) := by
  cases hl : s.live a with
  | none =>
    unfold execDump at h
    rw [checkSlot_dead hl] at h
    exact .inl ⟨rfl, by simpa [eq_comm] using h⟩
  | some x =>
    refine .inr ⟨x, rfl, ?_⟩
    rcases execDump_live hl with ⟨k, hk, hlt, he⟩ | ⟨hk, he⟩
    · left
      rw [he] at h
      cases hen : s.sinkPlan.ending with
      | fails =>
        rw [hen] at h
        exact ⟨k, hk, hlt, rfl, by simpa [eq_comm] using h⟩
      | unanswered => rw [hen] at h; simp at h
    · right
      rw [he] at h
      exact ⟨hk, by simpa [eq_comm] using h⟩

/-- Everything a restore into a live slot can do. -/
theorem execRestore_live {x : Slot} (hx : s.live a = some x) :
    (s.source.bytes = [] ∧
      execRestore a s =
        match s.source.ending with
        | .fails => .next (s.setRsp .ioError 0#64 0#64)
        | .unanswered => .fault .sourceUnanswered) ∨
    (∃ q rest, s.source.bytes = q :: rest ∧
      ((validPrecision q.toNat = false ∧
          execRestore a s = .next ((s.consume 1).setRsp .invalidArgument 1#64 0#64)) ∨
       (validPrecision q.toNat = true ∧ rest.length < 2 ^ q.toNat ∧
          execRestore a s =
            match s.source.ending with
            | .fails => .next ((s.consume (1 + rest.length)).setRsp .ioError (BitVec.ofNat 64 (1 + rest.length)) 0#64)
            | .unanswered => .fault .sourceUnanswered) ∨
       (validPrecision q.toNat = true ∧ 2 ^ q.toNat ≤ rest.length ∧
          execRestore a s =
            .next (((s.consume (1 + 2 ^ q.toNat)).setSlot a (s.restoredSlot q.toNat (rest.take (2 ^ q.toNat)))).setRsp .ok
              (BitVec.ofNat 64 (1 + 2 ^ q.toNat)) 0#64)))) := by
  unfold execRestore
  rw [checkSlot_live hx]
  cases hb : s.source.bytes with
  | nil =>
    refine .inl ⟨rfl, ?_⟩
    simp only [srcRead, hb]
    cases s.source.ending <;> rfl
  | cons q rest =>
    refine .inr ⟨q, rest, rfl, ?_⟩
    have hr : (s.consume 1).source.bytes = rest := by simp [hb]
    simp only [srcRead, hb]
    cases hv : validPrecision q.toNat with
    | false => exact .inl ⟨rfl, by simp [raise]⟩
    | true =>
      right
      by_cases hlen : 2 ^ q.toNat ≤ rest.length
      · refine .inr ⟨rfl, hlen, ?_⟩
        rw [if_pos rfl, stageBytes_enough _ _ _ _ _ (by rw [hr]; exact hlen)]
        simp only [hr, consume_consume, List.nil_append, respond]
        rfl
      · refine .inl ⟨rfl, not_le.mp hlen, ?_⟩
        rw [if_pos rfl, stageBytes_short _ _ _ _ _ (by rw [hr]; exact not_le.mp hlen)]
        rw [hr, consume_consume]
        cases he : s.source.ending <;> simp [he, raise]

theorem execRestore_next (h : execRestore a s = .next t) :
    (s.live a = none ∧ t = s.setRsp .noInstance 0#64 0#64) ∨
    (∃ x, s.live a = some x ∧
      ((s.source.bytes = [] ∧ t = s.setRsp .ioError 0#64 0#64) ∨
       (∃ q rest, s.source.bytes = q :: rest ∧
         ((validPrecision q.toNat = false ∧ t = (s.consume 1).setRsp .invalidArgument 1#64 0#64) ∨
          (validPrecision q.toNat = true ∧ rest.length < 2 ^ q.toNat ∧
             t = (s.consume (1 + rest.length)).setRsp .ioError (BitVec.ofNat 64 (1 + rest.length)) 0#64) ∨
          (validPrecision q.toNat = true ∧ 2 ^ q.toNat ≤ rest.length ∧
             t = ((s.consume (1 + 2 ^ q.toNat)).setSlot a (s.restoredSlot q.toNat (rest.take (2 ^ q.toNat)))).setRsp .ok
               (BitVec.ofNat 64 (1 + 2 ^ q.toNat)) 0#64))))) := by
  cases hl : s.live a with
  | none =>
    unfold execRestore at h
    rw [checkSlot_dead hl] at h
    exact .inl ⟨rfl, by simpa [eq_comm] using h⟩
  | some x =>
    refine .inr ⟨x, rfl, ?_⟩
    rcases execRestore_live hl with ⟨hb, he⟩ | ⟨q, rest, hb, ⟨hv, he⟩ | ⟨hv, hlen, he⟩ | ⟨hv, hlen, he⟩⟩
    · left
      rw [he] at h
      cases hen : s.source.ending <;> rw [hen] at h
      · exact ⟨hb, by simpa [eq_comm] using h⟩
      · simp at h
    · rw [he] at h
      exact .inr ⟨q, rest, hb, .inl ⟨hv, by simpa [eq_comm] using h⟩⟩
    · rw [he] at h
      cases hen : s.source.ending <;> rw [hen] at h
      · exact .inr ⟨q, rest, hb, .inr (.inl ⟨hv, hlen, by simpa [eq_comm] using h⟩)⟩
      · simp at h
    · rw [he] at h
      exact .inr ⟨q, rest, hb, .inr (.inr ⟨hv, hlen, by simpa [eq_comm] using h⟩)⟩

end Sys2Proof.Machine
end

