-- ==== Sys2Proof/Laws/PerInstr.lean ====
section
/-! SUPPORT. What holds of every command as syntax, one lemma per command: the word of a well-formed command matches the command's
own row of the opcode map (30_encoding R53). -/

namespace Sys2Proof.Laws.OpcodeRow

/-- The word of a well-formed command passes the test `(w & mask) == match` of its row, and of no other row. -/
def Statement (i : Instr) : Prop :=
  WellFormed i = true → ∀ op : Opcode, encode i &&& op.mask = op.pattern ↔ op = i.opcode

theorem of_match {i : Instr} (h : encode i &&& i.opcode.mask = i.opcode.pattern) (op : Opcode) :
    encode i &&& op.mask = op.pattern ↔ op = i.opcode := by
  constructor
  · intro h'
    have e1 := ((and_mask_eq_pattern _ _).mp h).1
    have e2 := ((and_mask_eq_pattern _ _).mp h').1
    exact Option.some.inj (by rw [← opcodeOf_byte op, ← opcodeOf_byte i.opcode, ← e1, ← e2])
  · rintro rfl
    exact h

theorem create (a precision : Nat) : Statement (.create a precision) := fun _ =>
  of_match (commandWord_match .create _ _ _ _ (by decide) (BitVec.and_zero) (by decide))

theorem destroy (a : Nat) : Statement (.destroy a) := fun _ =>
  of_match (commandWord_match .destroy _ _ _ _ (by decide) (by decide) (by decide))

theorem clear (a : Nat) : Statement (.clear a) := fun _ =>
  of_match (commandWord_match .clear _ _ _ _ (by decide) (by decide) (by decide))

theorem regcount (a : Nat) : Statement (.regcount a) := fun _ =>
  of_match (commandWord_match .regcount _ _ _ _ (by decide) (by decide) (by decide))

theorem counter (a : Nat) (sel : ArraySel) (index : Nat) : Statement (.counter a sel index) := fun _ =>
  of_match (commandWord_match .counter _ _ _ _ (by decide) (by cases sel <;> decide) (BitVec.and_zero))

theorem flipbit (a index bit : Nat) : Statement (.flipbit a index bit) := fun h => by
  have hb : bit < 8 := by
    simp only [WellFormed, bitPositionOk, Bool.and_eq_true, decide_eq_true_eq] at h
    exact h.2
  refine of_match (commandWord_match .flipbit _ _ _ _ (by decide) ?_ (BitVec.and_zero))
  clear h
  decide +revert

theorem add (a : Nat) (hash : Word32) : Statement (.add a hash) := fun _ =>
  of_match (commandWord_match .add _ _ _ _ (by decide) (by decide) (BitVec.and_zero))

theorem estimate (a : Nat) (sel : ArraySel) : Statement (.estimate a sel) := fun _ =>
  of_match (commandWord_match .estimate _ _ _ _ (by decide) (by cases sel <;> decide) (by decide))

theorem protect (a threshold : Nat) : Statement (.protect a threshold) := fun _ =>
  of_match (commandWord_match .protect _ _ _ _ (by decide) (by decide) (BitVec.and_zero))

theorem merge (a b : Nat) : Statement (.merge a b) := fun _ =>
  of_match (commandWord_match .merge _ _ _ _ (BitVec.and_zero) (by decide) (by decide))

theorem dump (a : Nat) : Statement (.dump a) := fun _ =>
  of_match (commandWord_match .dump _ _ _ _ (by decide) (by decide) (by decide))

theorem restore (a : Nat) : Statement (.restore a) := fun _ =>
  of_match (commandWord_match .restore _ _ _ _ (by decide) (by decide) (by decide))

end Sys2Proof.Laws.OpcodeRow
end

