-- ==== Sys2Proof/Laws/Protect.lean ====
section
/-! SUPPORT. The scan of PROTECT: what its temporaries are after any number of elements. -/

namespace Sys2Proof.Machine

/-- The temporaries after the elements below i: nothing, the first element, or the two smallest by position (43_protect R124). -/
def ScanState (A : Memory) (i : Nat) (t : MinScan) : Prop :=
  (i = 0 ∧ t = MinScan.start) ∨ (i = 1 ∧ t = { min1 := (A.read 0).toNat, p1 := some 0, min2 := 256, p2 := none }) ∨
  (2 ≤ i ∧ ∃ p1 p2, t.p1 = some p1 ∧ t.p2 = some p2 ∧
      p1 < i ∧ p2 < i ∧ p1 ≠ p2 ∧
      t.min1 = (A.read p1).toNat ∧ t.min2 = (A.read p2).toNat ∧
      (∀ k, k < i → (A.read p1).toNat ≤ (A.read k).toNat) ∧ (∀ k, k < p1 → (A.read p1).toNat < (A.read k).toNat) ∧
      (∀ k, k < i → k ≠ p1 → (A.read p2).toNat ≤ (A.read k).toNat) ∧
      (∀ k, k < p2 → k ≠ p1 → (A.read p2).toNat < (A.read k).toNat))

theorem scanState_visit (A : Memory) (i : Nat) (t : MinScan) (h : ScanState A i t) :
    ScanState A (i+1) (t.visit i (A.read i).toNat) := by
  have hlt := (A.read i).isLt
  rcases h with ⟨rfl, rfl⟩ | ⟨rfl, rfl⟩ | ⟨hi, p1, p2, e1, e2, l1, l2, hne, m1, m2, a1, a2, a3, a4⟩
  · right; left
    refine ⟨rfl, ?_⟩
    unfold MinScan.visit MinScan.start
    rw [if_pos hlt]
  · right; right
    refine ⟨le_refl _, ?_⟩
    unfold MinScan.visit
    by_cases h : (A.read 1).toNat < (A.read 0).toNat
    · rw [if_pos h]
      refine ⟨1, 0, rfl, rfl, by omega, by omega, by omega, rfl, rfl, ?_, ?_, ?_, ?_⟩
      · intro k hk; have : k = 0 ∨ k = 1 := by omega
        rcases this with rfl | rfl <;> omega
      · intro k hk; have : k = 0 := by omega
        subst this; omega
      · intro k hk hn; have : k = 0 := by omega
        subst this; omega
      · intro k hk; omega
    · rw [if_neg h]; simp only; rw [if_pos hlt]
      refine ⟨0, 1, rfl, rfl, by omega, by omega, by omega, rfl, rfl, ?_, ?_, ?_, ?_⟩
      · intro k hk; have : k = 0 ∨ k = 1 := by omega
        rcases this with rfl | rfl <;> omega
      · intro k hk; omega
      · intro k hk hn; have : k = 1 := by omega
        subst this; omega
      · intro k hk; omega
  · right; right
    refine ⟨by omega, ?_⟩
    unfold MinScan.visit
    have c1 := a1 p2 l2
    by_cases h : (A.read i).toNat < t.min1
    · rw [if_pos h]
      refine ⟨i, p1, rfl, e1, by omega, by omega, by omega, rfl, m1, ?_, ?_, ?_, ?_⟩
      · intro k hk; by_cases hki : k = i
        · subst hki; omega
        · have := a1 k (by omega); omega
      · intro k hk; have := a1 k (by omega); omega
      · intro k hk hn; exact a1 k (by omega)
      · intro k hk hn; exact a2 k hk
    · rw [if_neg h]
      by_cases h' : (A.read i).toNat < t.min2
      · rw [if_pos h']
        refine ⟨p1, i, e1, rfl, by omega, by omega, by omega, m1, rfl, ?_, a2, ?_, ?_⟩
        · intro k hk; by_cases hki : k = i
          · subst hki; omega
          · have := a1 k (by omega); omega
        · intro k hk hn; by_cases hki : k = i
          · subst hki; omega
          · have := a3 k (by omega) hn; omega
        · intro k hk hn; have := a3 k (by omega) hn; omega
      · rw [if_neg h']
        refine ⟨p1, p2, e1, e2, by omega, by omega, hne, m1, m2, ?_, a2, ?_, a4⟩
        · intro k hk; by_cases hki : k = i
          · subst hki; omega
          · have := a1 k (by omega); omega
        · intro k hk hn; by_cases hki : k = i
          · subst hki; omega
          · exact a3 k (by omega) hn

theorem scanState_scanFrom (A : Memory) (n i : Nat) (t : MinScan) (h : ScanState A i t) : ScanState A (i + n) (scanFrom A n i t) := by
  induction n generalizing i t with
  | zero => exact h
  | succ n ih => rw [show i + (n+1) = (i+1) + n by omega]; exact ih _ _ (scanState_visit A i t h)

end Sys2Proof.Machine
end

