-- ==== Sys2Proof/Laws/Update.lean ====
section
/-! SUPPORT. What ADD computes: the remainder as a number, the raised element as a number, and a run of several ADDs. -/

namespace Sys2Proof.Machine

/-- The remainder of a hash as a number (41_add R92). -/
theorem hashRemainder_toNat (p : Nat) (hash : Word32) (h : p ≤ 30) :
    (hashRemainder p hash).toNat = hash.toNat % 2 ^ (32 - p) * 2 ^ p := by
  unfold hashRemainder
  rw [BitVec.toNat_shiftLeft, Nat.shiftLeft_eq]
  rw [show 2 ^ 32 = 2 ^ (32 - p) * 2 ^ p by rw [← pow_add]; congr 1; omega, Nat.mul_mod_mul_right]

theorem log2_mul_pow (v p : Nat) (h : v ≠ 0) : Nat.log2 (v * 2 ^ p) = Nat.log2 v + p := by
  rw [Nat.log2_eq_iff (by positivity)]
  have h1 := Nat.log2_self_le h
  have h2 := Nat.lt_log2_self (n := v)
  constructor
  · rw [pow_add]; exact Nat.mul_le_mul_right _ h1
  · rw [show v.log2 + p + 1 = v.log2 + 1 + p by ring, pow_add]; exact Nat.mul_lt_mul_of_pos_right h2 (by positivity)

/-- A rank fits a byte. -/
theorem hashRank_lt (p : Nat) (h) : hashRank p h < 256 := by unfold hashRank; omega

/-- The element ADD touches, and every other one, as numbers. -/
theorem read_raiseTo_toNat (A : Memory) (i r j : Nat) (h : r < 256) :
    ((A.raiseTo i r).read j).toNat = if j = i then max (A.read j).toNat r else (A.read j).toNat := by
  rw [read_raiseTo]
  by_cases hij : i = j
  · subst hij
    by_cases hlt : (A.read i).toNat < r
    · simp [hlt]; omega
    · simp [hlt]; omega
  · simp [hij, Ne.symm hij]

/-- One ADD on a register array of precision p. -/
def addM (p : Nat) (A : Memory) (h : Word32) : Memory := A.raiseTo (hashIndex p h) (hashRank p h)

theorem wf_foldl_addM (p : Nat) (hs : List Word32) (A : Memory) (h : A.wf) : (hs.foldl (addM p) A).wf := by
  induction hs generalizing A with
  | nil => exact h
  | cons x hs ih => exact ih _ (raiseTo_wf h _ _)

/-- Every element after a run of ADDs: the maximum of its start value and the ranks of the hashes that select it. -/
theorem read_foldl_addM (p : Nat) (hs : List Word32) (A : Memory) (i : Nat) :
    ((hs.foldl (addM p) A).read i).toNat =
      ((hs.filter (fun h => hashIndex p h == i)).map (hashRank p)).foldl max (A.read i).toNat := by
  induction hs generalizing A with
  | nil => rfl
  | cons h hs ih =>
    simp only [List.foldl_cons, ih, addM, read_raiseTo_toNat _ _ _ _ (hashRank_lt p h)]
    by_cases hi : hashIndex p h = i
    · simp [hi]
    · simp [hi, Ne.symm hi]

/-- A run of two lists is the run of the second after the run of the first. -/
theorem runAll_append (is js : List Instr) (s : State) :
    runAll (is ++ js) s =
      match runAll is s with
      | .next t => runAll js t
      | .fault f => .fault f
      | .refused r => .refused r := by
  induction is generalizing s with
  | nil => rfl
  | cons i is ih => simp only [List.cons_append, runAll]; cases exec i s <;> simp [ih]

end Sys2Proof.Machine
end

