-- ==== Sys2Proof/Tests/Slice0.lean ====
section
/-! SUPPORT. Tests: every operand check refuses an ill-formed command, words written out bit by bit from 30_encoding R53 and R59 decode
to what they stand for, single steps give what the vectors of 95_test_vectors give, and every statement with premises has a state and
operands that meet them. Every expected value is the spec's. -/

namespace Sys2Proof.Tests

open Sys2Proof Sys2Proof.Machine

/-! Well-formedness: one ill-formed command for each check (30_encoding R52). -/

theorem test_wellFormed_slotId : WellFormed (.regcount 15) = true ∧ WellFormed (.regcount 16) = false := by decide

theorem test_wellFormed_slotId_everywhere :
    [Instr.create 16 4, .destroy 16, .clear 16, .regcount 16, .counter 16 .registers 0, .flipbit 16 0 0, .add 16 0#32,
      .estimate 16 .registers, .protect 16 0, .merge 16 0, .dump 16, .restore 16].all (fun i => !WellFormed i) = true := by decide

theorem test_wellFormed_merge_b : WellFormed (.merge 0 15) = true ∧ WellFormed (.merge 0 16) = false := by decide

theorem test_wellFormed_precision : WellFormed (.create 0 255) = true ∧ WellFormed (.create 0 256) = false := by decide

theorem test_wellFormed_bitPosition : WellFormed (.flipbit 0 0 7) = true ∧ WellFormed (.flipbit 0 0 8) = false := by decide

theorem test_wellFormed_index :
    WellFormed (.counter 0 .registers 0xFFFFFFFF) = true ∧ WellFormed (.counter 0 .registers 0x100000000) = false ∧
      WellFormed (.flipbit 0 0x100000000 0) = false := by decide

theorem test_wellFormed_threshold :
    WellFormed (.protect 0 0xFFFFFFFF) = true ∧ WellFormed (.protect 0 0x100000000) = false := by decide

/-! Decoding: a word for each command, its bits written as the row of the opcode table has them: opcode, a, b, imm8, rsvd, imm32. -/

theorem test_decode_create :
    decode 0b00000001_0000_0000_00001110_00000000_00000000000000000000000000000000#64 = .ok (.create 0 14) := by decide

theorem test_decode_destroy :
    decode 0b00000010_0001_0000_00000000_00000000_00000000000000000000000000000000#64 = .ok (.destroy 1) := by decide

theorem test_decode_clear :
    decode 0b00000011_1111_0000_00000000_00000000_00000000000000000000000000000000#64 = .ok (.clear 15) := by decide

theorem test_decode_regcount :
    decode 0b00000100_0000_0000_00000000_00000000_00000000000000000000000000000000#64 = .ok (.regcount 0) := by decide

theorem test_decode_counter :
    decode 0b00000101_0000_0000_00000001_00000000_00000000000000000000000000000011#64 =
        .ok (.counter 0 .protectedRegisters 3) ∧
      decode 0b00000101_0000_0000_00000000_00000000_11111111111111111111111111111111#64 =
        .ok (.counter 0 .registers 0xFFFFFFFF) := by decide

theorem test_decode_flipbit :
    decode 0b00000110_0000_0000_00000111_00000000_00000000000000000000000000000011#64 = .ok (.flipbit 0 3 7) := by decide

theorem test_decode_add :
    decode 0b00010000_0001_0000_00000000_00000000_11011110101011011011111011101111#64 = .ok (.add 1 0xDEADBEEF#32) := by decide

theorem test_decode_estimate :
    decode 0b00100000_0000_0000_00000001_00000000_00000000000000000000000000000000#64 =
        .ok (.estimate 0 .protectedRegisters) ∧
      decode 0b00100000_0010_0000_00000000_00000000_00000000000000000000000000000000#64 = .ok (.estimate 2 .registers) := by
  decide

theorem test_decode_protect :
    decode 0b00110000_0000_0000_00000000_00000000_11111111111111111111111111111111#64 = .ok (.protect 0 0xFFFFFFFF) := by decide

theorem test_decode_merge :
    decode 0b01000000_0000_0001_00000000_00000000_00000000000000000000000000000000#64 = .ok (.merge 0 1) := by decide

theorem test_decode_dump :
    decode 0b01010000_0000_0000_00000000_00000000_00000000000000000000000000000000#64 = .ok (.dump 0) := by decide

theorem test_decode_restore :
    decode 0b01010001_0001_0000_00000000_00000000_00000000000000000000000000000000#64 = .ok (.restore 1) := by decide

/-- 95_test_vectors V-DEC-1 to V-DEC-5: reserved opcodes. -/
theorem test_decode_reserved :
    [0x0000000000000000#64, 0xFFFFFFFFFFFFFFFF#64, 0x0700000000000000#64, 0x5200000000000000#64, 0x1100000000000000#64].all
      (fun w => decide (decode w = .error .reservedOpcode)) = true := by decide

/-- V-DEC-7 to -10, -12, -14, -16, -18, -19, -23, -26: must-be-zero bits. -/
theorem test_decode_mustBeZero :
    [0x0401000000000000#64, 0x0400000100000000#64, 0x0400000000000001#64, 0x0400010000000000#64, 0x0500020000000003#64,
      0x0600080000000003#64, 0x10000100FFFFFFFF#64, 0x2000000000000001#64, 0x2000020000000000#64, 0x4001000000000001#64,
      0x10F1000012345678#64].all (fun w => decide (decode w = .error .mustBeZero)) = true := by decide

/-- Fewer than eight bytes are no command word (20_memory R33). -/
theorem test_decode_truncated : decodeBytes [0x00#8, 0x04#8] = .error .truncated := by decide

/-- 20_memory R33: `REGCOUNT 0` on a byte bus, bits 7:0 first. -/
theorem test_decode_bytes :
    decodeBytes [0x00#8, 0x00#8, 0x00#8, 0x00#8, 0x00#8, 0x00#8, 0x00#8, 0x04#8, 0xAA#8] = .ok (.regcount 0, [0xAA#8]) := by decide

/-- 30_encoding R59: the syntax table's three examples. -/
theorem test_assemble :
    (assemble "ADD" [1, 0xDEADBEEF]).map encode = some 0x10100000DEADBEEF#64 ∧
      (assemble "CREATE" [0, 14]).map encode = some 0x01000E0000000000#64 ∧
      (assemble "MERGE" [0, 1]).map encode = some 0x4001000000000000#64 := by decide

/-! Small states for the steps below. -/

/-- An instance of precision p with the given registers and an all-zero protected array. -/
def slotWith (p : Nat) (registers : List Byte) : Slot :=
  { valid := true, prec := p, alphaMM := alphaOf defaultAlphaTable p, M := Memory.ofBytes 0 registers, P := [] }

/-- An engine after reset whose two slots hold the given contents. -/
def engineWith (x y : Slot) : State := { State.reset with slots := [x, y] }

/-- An instance of precision 4 with register 1 at 28 and register 10 at 20 (program P1). -/
def slotA : Slot := slotWith 4 [0#8, 28#8, 0#8, 0#8, 0#8, 0#8, 0#8, 0#8, 0#8, 0#8, 20#8]

/-- An instance of precision 4 with registers 1, 10, 15 at 1, 28, 29 (program P3). -/
def slotB : Slot := slotWith 4 [0#8, 1#8, 0#8, 0#8, 0#8, 0#8, 0#8, 0#8, 0#8, 0#8, 28#8, 0#8, 0#8, 0#8, 0#8, 29#8]

/-- A fresh instance of precision 5. -/
def slotC : Slot := slotWith 5 []

/-- Slot 0 holds slotA, slot 1 none. -/
def lone : State := engineWith slotA Slot.reset

/-- Two instances of one precision. -/
def pair : State := engineWith slotA slotB

/-- Two instances of different precisions. -/
def mixed : State := engineWith slotA slotC

/-- What a step's answer is tested for. -/
def answers (r : Result) (test : State → Bool) : Bool :=
  match r with
  | .next t => test t
  | _ => false

/-- The step answers with this response. -/
def responds (r : Result) (status : BitVec 8) (value aux : Word64) : Bool :=
  answers r (fun t => decide (t.rsp = { status := status, value := value, aux := aux }))

/-- The step leaves register i of slot a at v. -/
def leaves (r : Result) (a i : Nat) (v : Byte) : Bool :=
  answers r (fun t => decide ((t.slots[a]?).map (fun x => x.M.read i) = some v))

/-! Register store (95_test_vectors 2.2). -/

/-- V-RS-4: the new instance of precision 5 has 32 registers, all zero. -/
theorem test_create :
    answers (exec (.create 1 5) State.reset) (fun t => decide (t.live 1 = some slotC) && decide (t.live 0 = none)) = true := by
  decide

/-- S1 rows 8 and 10: precisions 31 and 255. -/
theorem test_create_bad_precision :
    responds (exec (.create 0 31) lone) 0x01#8 0#64 0#64 = true ∧ responds (exec (.create 0 255) lone) 0x01#8 0#64 0#64 = true := by
  decide

/-- V-RS-24 and V-RS-26: the second destroy fails. -/
theorem test_destroy :
    answers (exec (.destroy 0) pair) (fun t => responds (exec (.destroy 0) t) 0x06#8 0#64 0#64 && decide (t.live 1 = some slotB)) =
      true := by decide

/-- V-RS-18: every register 0. -/
theorem test_clear : answers (exec (.clear 0) lone) (fun t => decide (t.live 0 = some (slotWith 4 []))) = true := by decide

/-- S1 row 7: the largest register count, 2^30. -/
theorem test_regcount : responds (exec (.regcount 0) (engineWith (slotWith 30 []) slotC)) 0x00#8 0x0000000040000000#64 0#64 = true := by
  decide

/-- P1 steps 8 and 11: register 1 is 28; index 16 is m. -/
theorem test_counter :
    responds (exec (.counter 0 .registers 1) lone) 0x00#8 28#64 0#64 = true ∧
      responds (exec (.counter 0 .registers 16) lone) 0x04#8 0#64 0#64 = true := by decide

/-- V-RS-15: the protected array is another array. -/
theorem test_counter_protected : responds (exec (.counter 0 .protectedRegisters 1) lone) 0x00#8 0#64 0#64 = true := by decide

/-- V-RS-11 and V-RS-13: 7 becomes 135 by bit 7, 135 becomes 131 by bit 2. -/
theorem test_flipbit :
    leaves (exec (.flipbit 0 3 7) (engineWith (slotWith 5 [0#8, 0#8, 0#8, 7#8]) slotC)) 0 3 135#8 = true ∧
      leaves (exec (.flipbit 0 3 2) (engineWith (slotWith 5 [0#8, 0#8, 0#8, 135#8]) slotC)) 0 3 131#8 = true := by decide

/-- V-ERR-6: index m. -/
theorem test_flipbit_index : responds (exec (.flipbit 0 16 7) lone) 0x04#8 0#64 0#64 = true := by decide

/-! ADD (95_test_vectors 2.3). -/

/-- V-ADD-1, -4, -6, -9, -13, -15, -17, -20: index and rank. -/
theorem test_hash_index_and_rank :
    (hashIndex 4 0x00000000#32 = 0 ∧ hashRank 4 0x00000000#32 = 29) ∧
      (hashIndex 4 0x00000001#32 = 0 ∧ hashRank 4 0x00000001#32 = 28) ∧
      (hashIndex 30 0x00000000#32 = 0 ∧ hashRank 30 0x00000000#32 = 3) ∧
      (hashIndex 30 0xFFFFFFFC#32 = 1073741823 ∧ hashRank 30 0xFFFFFFFC#32 = 3) ∧
      (hashIndex 4 0xA0000100#32 = 10 ∧ hashRank 4 0xA0000100#32 = 20) ∧
      (hashIndex 14 0x12345678#32 = 1165 ∧ hashRank 14 0x12345678#32 = 4) ∧
      (hashIndex 14 0xFFFC0000#32 = 16383 ∧ hashRank 14 0xFFFC0000#32 = 19) ∧
      hashIndex 14 0x00000001#32 = 0 ∧ hashRank 14 0x00000001#32 = 18 := by decide

/-- V-ADD-28 and V-ADD-27: 28 becomes 29, and is never lowered to 2. -/
theorem test_add :
    leaves (exec (.add 0 0x10000000#32) lone) 0 1 29#8 = true ∧ leaves (exec (.add 0 0x14000000#32) lone) 0 1 28#8 = true := by decide

/-- V-ADD-30: 29 is not above 135, compared as unsigned numbers. -/
theorem test_add_unsigned :
    leaves (exec (.add 0 0x10000000#32) (engineWith (slotWith 4 [0#8, 135#8]) slotC)) 0 1 135#8 = true := by decide

/-! ESTIMATE (95_test_vectors 2.4; 42_estimate R103, R113). -/

/-- The default table at p = 7, 14 and 30 is what the formula of R103 gives in binary64. -/
theorem test_alpha_table :
    [(7, 128), (14, 16384), (30, 1073741824)].all (fun c =>
      decide (fmul (fmul (fdiv 0x3FE714E3BCD35A86#64 (fadd fone (fdiv 0x3FF14395810624DD#64 (cvt c.2)))) (cvt c.2)) (cvt c.2) =
        alphaOf defaultAlphaTable c.1)) = true := by decide +kernel

/-- R113: the constants are what their real values round to: 5/2, 2^32, -2^32, 2^32/30. -/
theorem test_estimate_constants :
    fdiv (cvt 5) (cvt 2) = twoAndHalf ∧ cvt (2 ^ 32) = pow2_32 ∧ fsub 0#64 (cvt (2 ^ 32)) = neg2_32 ∧
      fdiv (cvt (2 ^ 32)) (cvt 30) = largeT ∧ cvt 1 = fone := by decide +kernel

/-- V-EST-14 (mid range), V-EST-5 (small range, no zero), V-EST-9 (NaN above 2^32). -/
theorem test_estimate :
    responds (exec (.estimate 0 .registers)
        (engineWith (slotWith 4 ([5#8, 5#8, 5#8, 0#8] ++ List.replicate 12 5#8)) slotC)) 0x00#8 0x405D535BA3196767#64 0#64 = true ∧
      responds (exec (.estimate 0 .registers) (engineWith (slotWith 4 (List.replicate 16 1#8)) slotC))
        0x00#8 0x403589374BC6A7F0#64 0#64 = true ∧
      responds (exec (.estimate 0 .registers) (engineWith (slotWith 4 (List.replicate 16 29#8)) slotC))
        0x00#8 0x7FF8000000000000#64 0#64 = true := by decide +kernel

/-- P1 steps 3 and 13: an all-zero array estimates 0; `ESTIMATE.P` reads the protected array. -/
theorem test_estimate_protected :
    responds (exec (.estimate 0 .protectedRegisters) lone) 0x00#8 0#64 0#64 = true := by decide +kernel

/-- V-EST-3 and V-EST-4 (LN): 16 ln(16/14) with the lower or the upper neighbour of the logarithm. -/
theorem test_ln_small_range :
    0x4001178E8227E47A#64 ∈ [fmul (cvt 16) (lnBelow (fdiv (cvt 16) (cvt 14))), fmul (cvt 16) (lnAbove (fdiv (cvt 16) (cvt 14)))] := by
  decide +kernel

/-- V-EST-12 (LN): the large-range correction of raw = 180657061.888. -/
theorem test_ln_large_range :
    0x41A60085FD8643D6#64 ∈ [lnBelow, lnAbove].map (fun f =>
      fmul neg2_32 (f (fsub fone (fdiv 0x41A589374BC6A7F0#64 pow2_32)))) := by decide +kernel

/-! PROTECT (95_test_vectors 2.5). -/

/-- The protected array that `PROTECT 0, threshold` leaves for the given sixteen registers. -/
def protectedBy (registers : List Byte) (threshold : Nat) : Option (List Byte) :=
  match exec (.protect 0 threshold) (engineWith (slotWith 4 registers) slotC) with
  | .next t => (t.live 0).map (fun x => x.P.elements 16 0)
  | _ => none

/-- V-PRO-8: a descending run; the last minimum demotes the one before it. -/
theorem test_protect :
    protectedBy [9#8, 8#8, 7#8, 6#8, 5#8, 4#8, 3#8, 2#8, 1#8, 10#8, 11#8, 12#8, 13#8, 14#8, 15#8, 16#8] 1 =
      some [9#8, 8#8, 7#8, 6#8, 5#8, 4#8, 3#8, 2#8, 2#8, 10#8, 11#8, 12#8, 13#8, 14#8, 15#8, 16#8] := by decide

/-- V-PRO-3, V-PRO-2, V-PRO-10: gap equal to the threshold, gap below it, minimum twice. -/
theorem test_protect_threshold :
    protectedBy ([5#8, 5#8, 5#8, 0#8] ++ List.replicate 12 5#8) 5 = some (List.replicate 16 5#8) ∧
      protectedBy ([5#8, 5#8, 5#8, 0#8] ++ List.replicate 12 5#8) 6 = some ([5#8, 5#8, 5#8, 0#8] ++ List.replicate 12 5#8) ∧
      protectedBy ([4#8, 1#8, 4#8, 1#8] ++ List.replicate 12 6#8) 1 = some ([4#8, 1#8, 4#8, 1#8] ++ List.replicate 12 6#8) := by
  decide

/-! MERGE (95_test_vectors 2.6). -/

/-- V-MRG-1 and V-MRG-4: register 3 of [3,0,7,1] and [1,4,7,2] under either configuration. -/
theorem test_merge :
    let s := engineWith (slotWith 4 [3#8, 0#8, 7#8, 1#8]) (slotWith 4 [1#8, 4#8, 7#8, 2#8])
    answers (exec (.merge 0 1) s) (fun t => decide (t.live 0 = some (slotWith 4 [3#8, 4#8, 7#8, 2#8]))) = true ∧
      answers (exec (.merge 0 1) { s with mergeOp := .orIfLess })
        (fun t => decide (t.live 0 = some (slotWith 4 [3#8, 4#8, 7#8, 3#8]))) = true := by decide

/-- V-MRG-6 and V-MRG-7: the two sizes in aux. -/
theorem test_merge_sizes :
    responds (exec (.merge 0 1) mixed) 0x02#8 0#64 0x0000002000000010#64 = true ∧
      responds (exec (.merge 1 0) mixed) 0x02#8 0#64 0x0000001000000020#64 = true := by decide

/-! DUMP and RESTORE (95_test_vectors 2.7). -/

/-- V-PER-7 and V-PER-5: seventeen bytes, and the first three of them. -/
theorem test_dump :
    answers (exec (.dump 0) { lone with sinkPlan := ⟨some 17, .fails⟩ })
        (fun t => decide (t.rsp = ⟨0x00#8, 17#64, 0#64⟩) && decide (t.sinkOut =
          [4#8, 0#8, 28#8, 0#8, 0#8, 0#8, 0#8, 0#8, 0#8, 0#8, 0#8, 20#8, 0#8, 0#8, 0#8, 0#8, 0#8])) = true ∧
      answers (exec (.dump 0) { lone with sinkPlan := ⟨some 3, .fails⟩ })
        (fun t => decide (t.rsp = ⟨0x03#8, 3#64, 0#64⟩) && decide (t.sinkOut = [4#8, 0#8, 28#8])) = true := by decide

/-- V-PER-14: the bytes are not validated, and the two bytes after them stay in the source. -/
theorem test_restore :
    answers (exec (.restore 0) { lone with source := ⟨4#8 :: (List.replicate 16 0xFF#8 ++ [0xAA#8, 0xBB#8]), .fails⟩ })
      (fun t => decide (t.live 0 = some (slotWith 4 (List.replicate 16 0xFF#8))) &&
        decide (t.source.bytes = [0xAA#8, 0xBB#8]) && decide (t.rsp = ⟨0x00#8, 17#64, 0#64⟩)) = true := by decide

/-- V-PER-10 and V-PER-11: one byte short; precision 3. The slot keeps its instance. -/
theorem test_restore_fails :
    answers (exec (.restore 0) { lone with source := ⟨4#8 :: List.replicate 15 0#8, .fails⟩ })
        (fun t => decide (t.live 0 = some slotA) && decide (t.source.bytes = []) && decide (t.rsp = ⟨0x03#8, 16#64, 0#64⟩)) = true ∧
      answers (exec (.restore 0) { lone with source := ⟨[3#8, 1#8, 2#8, 3#8], .fails⟩ })
        (fun t => decide (t.live 0 = some slotA) && decide (t.source.bytes = [1#8, 2#8, 3#8]) &&
          decide (t.rsp = ⟨0x01#8, 1#64, 0#64⟩)) = true := by decide

/-! The port and errors (95_test_vectors 2.8). -/

/-- The next step takes the word that `withFetchWord` presents: `CREATE 0, 4` as the first command after reset. -/
theorem test_step_first_command :
    answers (step (State.reset.withFetchWord 64 0x0100040000000000)) (fun t => decide (t.live 0 = some (slotWith 4 []))) = true := by
  decide

/-- V-ERR-1 to V-ERR-5: which status is reported when several checks would fail. -/
theorem test_error_priority :
    responds (step (lone.presenting 0x0590000100000010#64)) 0x05#8 0#64 0#64 = true ∧
      responds (step (lone.presenting 0x0190630000000000#64)) 0x06#8 0#64 0#64 = true ∧
      responds (step (lone.presenting 0x4001000000000000#64)) 0x06#8 0#64 0#64 = true ∧
      responds (step (lone.presenting 0x4017000000000000#64)) 0x06#8 0#64 0#64 = true ∧
      responds (step (lone.presenting 0x0510000000000063#64)) 0x06#8 0#64 0#64 = true := by decide

/-! Witnesses: for every statement with premises, a state and operands that meet all of them, clause by clause, at boundary values. -/

theorem witness_DecodeEncodeRoundTrip : WellFormed (.flipbit 15 0xFFFFFFFF 7) = true ∧ WellFormed (.create 15 255) = true := by decide

theorem witness_EncodeDecodeRoundTrip : decode 0x4001000000000000#64 = .ok (.merge 0 1) := by decide

theorem witness_ReservedOpcodesAreIllegal :
    (lone.presenting 0x0700000000000000#64).pending = .command 0x0700000000000000#64 :: lone.pending ∧
      (0x0700000000000000#64).extractLsb' 56 8 ∉
        [0x01#8, 0x02#8, 0x03#8, 0x04#8, 0x05#8, 0x06#8, 0x10#8, 0x20#8, 0x30#8, 0x40#8, 0x50#8, 0x51#8] ∧
      (lone.presenting 0#64).pending = .command 0#64 :: lone.pending ∧
      (lone.presenting 0xFFFFFFFFFFFFFFFF#64).pending = .command 0xFFFFFFFFFFFFFFFF#64 :: lone.pending := by decide

/-- One word for each kind of must-be-zero bit. -/
theorem witness_MustBeZeroBitsAreIllegal :
    (lone.presenting 0x0400000100000000#64).pending = .command 0x0400000100000000#64 :: lone.pending ∧
      (0x0400000100000000#64).extractLsb' 56 8 = 0x04#8 ∧ (0x0400000100000000#64).extractLsb' 32 8 ≠ 0#8 ∧
      ((0x0401000000000000#64).extractLsb' 56 8 ≠ 0x40#8 ∧ (0x0401000000000000#64).extractLsb' 48 4 ≠ 0#4) ∧
      ((0x4000010000000000#64).extractLsb' 56 8 = 0x40#8 ∧ (0x4000010000000000#64).extractLsb' 40 8 ≠ 0#8) ∧
      ((0x2000020000000000#64).extractLsb' 56 8 = 0x20#8 ∧ (0x2000020000000000#64).extractLsb' 41 7 ≠ 0#7) ∧
      ((0x0600080000000003#64).extractLsb' 56 8 = 0x06#8 ∧ (0x0600080000000003#64).extractLsb' 43 5 ≠ 0#5) ∧
      ((0x2000000000000001#64).extractLsb' 56 8 = 0x20#8 ∧ (0x2000000000000001#64).extractLsb' 0 32 ≠ 0#32) := by decide

theorem witness_ByteOrderIsLittleEndian :
    7 < 8 ∧ decode 0x0500010000000003#64 = .ok (.counter 0 .protectedRegisters 3) ∧
      decode 0xFFFFFFFFFFFFFFFF#64 = .error .reservedOpcode ∧ decode 0x0500020000000003#64 = .error .mustBeZero := by decide

theorem witness_StepRunsDecodedCommand :
    (lone.presenting 0x3000000000000003#64).pending = .command 0x3000000000000003#64 :: lone.pending ∧
      decode 0x3000000000000003#64 = .ok (.protect 0 3) := by decide

theorem witness_HostActionsBetweenCommands :
    lone.pending = [] ∧
      ({ lone with pending := [.bindSource ⟨[4#8], .fails⟩] } : State).pending = .bindSource ⟨[4#8], .fails⟩ :: [] ∧
      ({ lone with pending := [.bindSink ⟨some 3, .fails⟩] } : State).pending = .bindSink ⟨some 3, .fails⟩ :: [] := by decide

theorem witness_ResetLeavesNoInstance : ({ pair with pending := [.reset] } : State).pending = .reset :: [] := by decide

theorem witness_CreateBuildsFreshInstance :
    (1 < lone.nInst ∧ 4 ≤ 4 ∧ 4 ≤ 30) ∧ (1 < lone.nInst ∧ 4 ≤ 30 ∧ 30 ≤ 30) ∧ lone.nInst ≤ 2 ∧
      (0 < lone.nInst ∧ (3 < 4 ∨ 30 < 3)) ∧ (0 < lone.nInst ∧ (31 < 4 ∨ 30 < 31)) := by decide

theorem witness_DestroyReleasesInstance : lone.live 0 = some slotA ∧ lone.live 1 = none ∧ lone.live 2 = none := by decide

theorem witness_ClearZeroesRegisters : lone.live 0 = some slotA ∧ lone.live 1 = none := by decide

theorem witness_RegcountAnswersRegisterCount :
    (lone.live 0 = some slotA ∧ 4 ≤ slotA.prec ∧ slotA.prec ≤ 30) ∧
      ((engineWith (slotWith 30 []) slotC).live 0 = some (slotWith 30 []) ∧ 4 ≤ 30 ∧ 30 ≤ 30) ∧ lone.live 1 = none := by decide

theorem witness_CounterReadsElement :
    (lone.live 0 = some slotA ∧ 15 < 2 ^ slotA.prec) ∧ (lone.live 0 = some slotA ∧ 2 ^ slotA.prec ≤ 16) ∧ lone.live 1 = none := by
  decide

theorem witness_FlipbitTogglesOneBit :
    7 < 8 ∧ (lone.live 0 = some slotA ∧ 15 < 2 ^ slotA.prec) ∧ (lone.live 0 = some slotA ∧ 2 ^ slotA.prec ≤ 16) ∧
      lone.live 1 = none := by decide

theorem witness_FlipbitTwiceRestores : lone.live 0 = some slotA ∧ 15 < 2 ^ slotA.prec ∧ slotA.M.wf := by decide

theorem witness_HashIndexAndRankInRange :
    (4 ≤ 4 ∧ 4 ≤ 30) ∧ (4 ≤ 30 ∧ 30 ≤ 30) ∧ hashRemainder 4 0x00000001#32 ≠ 0#32 ∧ hashRemainder 4 0xF0000000#32 = 0#32 := by decide

theorem witness_RankClosedForm : (4 ≤ 4 ∧ 4 ≤ 30) ∧ 4 ≤ 30 ∧ 30 ≤ 30 := by decide

theorem witness_AddRaisesSelectedRegister :
    (lone.live 0 = some slotA ∧ 4 ≤ slotA.prec ∧ slotA.prec ≤ 30) ∧ lone.live 1 = none := by decide

theorem witness_AddIsIdempotent : ∃ t, exec (.add 0 0x10000000#32) lone = .next t := ⟨_, rfl⟩

theorem witness_AddOrderIndependent :
    lone.live 0 = some slotA ∧ 4 ≤ slotA.prec ∧ slotA.prec ≤ 30 ∧ slotA.M.wf ∧
      [0x10000001#32, 0x18000000#32].Perm [0x18000000#32, 0x10000001#32] := by decide

/-- The premises of the first clause only name values, so every live slot meets them. -/
theorem witness_EstimateFollowsFormula : lone.live 0 = some slotA ∧ lone.live 1 = none := by decide

theorem witness_EmptyArrayEstimatesZero :
    lone.live 0 = some slotA ∧ 4 ≤ slotA.prec ∧ slotA.prec ≤ 30 ∧ slotA.alphaMM = alphaOf defaultAlphaTable slotA.prec ∧
      ∀ i, i < 2 ^ slotA.prec → slotA.P.read i = 0#8 :=
  ⟨by decide, by decide, by decide, rfl, fun _ _ => rfl⟩

/-- The bound p + K = 53 is reached, by an all-zero array and by one whose largest element is K. -/
theorem witness_HarmonicSumIsExact :
    (30 ≤ 30 ∧ 30 + 23 ≤ 53 ∧ ∀ i, i < 2 ^ 30 → (Memory.read [] i).toNat ≤ 23) ∧
      4 ≤ 30 ∧ 4 + 49 ≤ 53 ∧ ∀ i, i < 2 ^ 4 → (Memory.read [(3, 49#8)] i).toNat ≤ 49 :=
  ⟨⟨by decide, by decide, fun _ _ => by simp⟩, by decide, by decide, by decide⟩

theorem witness_SumAndRawStayFinite :
    (4 ≤ 4 ∧ 4 ≤ 30 ∧ alphaOk (alphaOf defaultAlphaTable 4) = true) ∧ 4 ≤ 30 ∧ 30 ≤ 30 ∧
      alphaOk (alphaOf defaultAlphaTable 30) = true := by decide

theorem witness_EstimateIsNeverNegative :
    (4 ≤ 4 ∧ 4 ≤ 30 ∧ alphaOk (alphaOf defaultAlphaTable 4) = true) ∧ 4 ≤ 30 ∧ 30 ≤ 30 ∧
      alphaOk (alphaOf defaultAlphaTable 30) = true := by decide

/-- The real number of a pattern with a clear sign bit and known units. -/
theorem real_of_units {x : F64} {n : Nat} (hs : f64Sign x = false) (hn : f64Units x = n) : f64Real x = (n : ℝ) / 2 ^ 1074 := by
  rw [f64Real_eq_units, hs, hn, if_neg (by decide), one_mul]

/-- The first pattern above 2^32. -/
theorem witness_LargeRangeBeyondTwoPow32 :
    f64IsFinite 0x41F0000000000001#64 = true ∧ 2 ^ 32 < f64Real 0x41F0000000000001#64 := by
  refine ⟨by decide, ?_⟩
  rw [real_of_units (by decide) rfl, lt_div_iff₀ (by positivity)]
  exact_mod_cast (by decide +kernel : 2 ^ 32 * 2 ^ 1074 < f64Units 0x41F0000000000001#64)

theorem real_two : f64Real 0x4000000000000000#64 = 2 := by
  rw [real_of_units (n := 2 * 2 ^ 1074) (by decide) (by decide +kernel), Nat.cast_mul, Nat.cast_pow, Nat.cast_ofNat,
    mul_div_assoc, div_self (by positivity), mul_one]

/-- The smallest subnormal and 2. -/
theorem witness_ArithmeticIsCorrectlyRounded :
    f64IsFinite 0x0000000000000001#64 = true ∧ f64IsFinite 0x4000000000000000#64 = true ∧ f64Real 0x4000000000000000#64 ≠ 0 :=
  ⟨by decide, by decide, by rw [real_two]; norm_num⟩

/-- The smallest subnormal over the negative zero; two zeros; inf and -inf, and inf twice; inf times 0 and 0 times -inf; a NaN on either side. -/
theorem witness_DivisionByZeroAndInvalidOperations :
    (f64IsFinite 0x0000000000000001#64 = true ∧ f64IsZero 0x0000000000000001#64 = false ∧
        f64IsZero 0x8000000000000000#64 = true) ∧
      f64IsZero 0#64 = true ∧
      (f64IsInf 0x7FF0000000000000#64 = true ∧ f64IsInf 0xFFF0000000000000#64 = true ∧
        f64Sign 0x7FF0000000000000#64 ≠ f64Sign 0xFFF0000000000000#64) ∧
      f64IsNaN 0x7FF0000000000001#64 = true := by decide

theorem witness_ConversionsAreExact :
    2 ^ 30 ≤ 2 ^ 30 ∧ f64IsFinite 0x0000000000000001#64 = true ∧ f64IsFinite 0x4000000000000000#64 = true := by decide

theorem half_lt_one : 0 < f64Real 0x3FE0000000000000#64 ∧ f64Real 0x3FE0000000000000#64 < 1 := by
  rw [real_of_units (n := 2 ^ 1073) (by decide) (by decide +kernel), Nat.cast_pow, Nat.cast_ofNat]
  refine ⟨by positivity, ?_⟩
  rw [div_lt_one (by positivity)]
  exact pow_lt_pow_right₀ (by norm_num) (by norm_num)

/-- -1, 2 and 1/2. -/
theorem witness_LogarithmMeetsContract :
    (f64IsNaN 0xBFF0000000000000#64 = false ∧ f64Value 0xBFF0000000000000#64 < 0) ∧
      (f64IsFinite 0x4000000000000000#64 = true ∧ 0 < f64Real 0x4000000000000000#64 ∧ f64Real 0x4000000000000000#64 ≠ 1 ∧
        1 < f64Real 0x4000000000000000#64) ∧
      f64IsFinite 0x3FE0000000000000#64 = true ∧ 0 < f64Real 0x3FE0000000000000#64 ∧ f64Real 0x3FE0000000000000#64 ≠ 1 ∧
        f64Real 0x3FE0000000000000#64 < 1 :=
  ⟨⟨by decide, by decide +kernel⟩,
    ⟨by decide, by rw [real_two]; norm_num, by rw [real_two]; norm_num, by rw [real_two]; norm_num⟩,
    by decide, half_lt_one.1, half_lt_one.2.ne, half_lt_one.2⟩

theorem witness_ScanFindsTwoSmallest : 2 ≤ 2 := by decide

theorem witness_ProtectReplacesLoneMinimum :
    (lone.live 0 = some slotA ∧ 4 ≤ slotA.prec ∧ slotA.prec ≤ 30) ∧ lone.live 1 = none := by decide

/-- A threshold of 256, and an array whose minimum, 0, stands at 0 and at 2. -/
theorem witness_ProtectPlainCopyCases :
    lone.live 0 = some slotA ∧
      (∃ t y, exec (.protect 0 256) lone = .next t ∧ t.live 0 = some y) ∧ 4 ≤ slotA.prec ∧ 255 < 256 ∧
      ∃ i j, i < j ∧ j < 2 ^ slotA.prec ∧ slotA.M.read i = slotA.M.read j ∧
        ∀ k, k < 2 ^ slotA.prec → (slotA.M.read i).toNat ≤ (slotA.M.read k).toNat :=
  ⟨by decide, ⟨_, _, rfl, rfl⟩, by decide, by decide, 0, 2, by decide, by decide, by decide, by decide⟩

theorem witness_MergeCombinesElements :
    pair.live 0 = some slotA ∧ pair.live 1 = some slotB ∧ slotA.prec = slotB.prec := by decide

theorem witness_MergeSizeMismatch :
    (mixed.live 0 = some slotA ∧ mixed.live 1 = some slotC ∧ 4 ≤ slotA.prec ∧ slotA.prec ≤ 30 ∧ 4 ≤ slotC.prec ∧
        slotC.prec ≤ 30 ∧ slotA.prec ≠ slotC.prec) ∧
      lone.live 1 = none ∧ lone.live 0 = some slotA := by decide

theorem witness_SelfMergeIsNoOp : pair.live 1 = some slotB := by decide

theorem witness_MergeIsCommutativeAndIdempotent :
    pair.mergeOp = .max ∧ 0 ≠ 1 ∧ pair.live 0 = some slotA ∧ pair.live 1 = some slotB ∧ slotA.prec = slotB.prec := by decide

theorem witness_MergeIsUnion :
    (engineWith (slotWith 4 []) (slotWith 4 [])).mergeOp = .max ∧ 0 ≠ 1 ∧
      (engineWith (slotWith 4 []) (slotWith 4 [])).live 0 = some (slotWith 4 []) ∧
      (engineWith (slotWith 4 []) (slotWith 4 [])).live 1 = some (slotWith 4 []) ∧
      4 ≤ (slotWith 4 []).prec ∧ (slotWith 4 []).prec ≤ 30 ∧ (slotWith 4 []).M = [] := by decide

/-- A sink that takes exactly enough, and one that is one byte short. -/
theorem witness_DumpWritesLayout :
    lone.live 0 = some slotA ∧ 4 ≤ slotA.prec ∧ slotA.prec ≤ 30 ∧
      (∀ k, ({ lone with sinkPlan := ⟨some 17, .fails⟩ } : State).sinkPlan.accept = some k → 1 + 2 ^ slotA.prec ≤ k) ∧
      ({ lone with sinkPlan := ⟨some 16, .fails⟩ } : State).sinkPlan.accept = some 16 ∧ 16 < 1 + 2 ^ slotA.prec ∧
      ({ lone with sinkPlan := ⟨some 16, .fails⟩ } : State).sinkPlan.ending = .fails := by
  refine ⟨by decide, by decide, by decide, fun k hk => ?_, by decide, by decide, by decide⟩
  have : k = 17 := by simpa [eq_comm] using hk
  rw [this]
  decide

/-- Enough bytes and two more; none; one short; precision bytes 3 and 31. -/
theorem witness_RestoreReplacesInstance :
    lone.live 0 = some slotA ∧
      (List.replicate 16 1#8).length = 2 ^ (4#8).toNat ∧ (4 ≤ (4#8).toNat ∧ (4#8).toNat ≤ 30) ∧
      (⟨4#8 :: (List.replicate 16 1#8 ++ [9#8, 9#8]), .fails⟩ : Source).bytes = 4#8 :: (List.replicate 16 1#8 ++ [9#8, 9#8]) ∧
      (lone.source.bytes = [] ∧ lone.source.ending = .fails) ∧
      (List.replicate 15 1#8).length < 2 ^ (4#8).toNat ∧ ((3#8).toNat < 4 ∨ 30 < (3#8).toNat) ∧
      ((31#8).toNat < 4 ∨ 30 < (31#8).toNat) := by decide

/-- A canonical state: what the invariant asks of it. -/
theorem slotWith_ok (s : State) (hs : s.alphaTable = defaultAlphaTable) (p : Nat) (registers : List Byte) (h4 : 4 ≤ p) (h30 : p ≤ 30)
    (hl : registers.length ≤ 2 ^ p) :
    (slotWith p registers).M.wf ∧ (slotWith p registers).P.wf ∧
      ((slotWith p registers).valid = true → (slotWith p registers).instanceOk s) := by
  refine ⟨Memory.wf_ofBytes _ _, Memory.wf_nil, fun _ => ⟨h4, h30, ?_, fun c hc => ?_, Memory.below_nil _⟩⟩
  · rw [State.alphamm, hs]; rfl
  · exact lt_of_lt_of_le (Memory.below_ofBytes registers c hc) hl

theorem pair_inv : pair.Inv := by
  refine ⟨⟨by decide, by decide, by decide, by decide +kernel⟩, by decide, fun x hx => ?_⟩
  rcases List.mem_cons.mp hx with rfl | hx
  · exact slotWith_ok _ rfl _ _ (by decide) (by decide) (by decide)
  · rcases List.mem_cons.mp hx with rfl | hx
    · exact slotWith_ok _ rfl _ _ (by decide) (by decide) (by decide)
    · exact absurd hx (by simp)

theorem witness_DumpRestoreRoundTrip :
    pair.Inv ∧ pair.live 0 = some slotA ∧ pair.live 1 = some slotB ∧
      ∃ t, exec (.dump 0) pair = .next t ∧ t.rsp.status = 0x00#8 :=
  ⟨pair_inv, by decide, by decide, _, rfl, rfl⟩

theorem witness_UnansweredStreamNeverCompletes :
    lone.live 0 = some slotA ∧
      (({ lone with sinkPlan := ⟨some 16, .unanswered⟩ } : State).sinkPlan.accept = some 16 ∧ 16 < 1 + 2 ^ slotA.prec ∧
        ({ lone with sinkPlan := ⟨some 16, .unanswered⟩ } : State).sinkPlan.ending = .unanswered) ∧
      (({ lone with source := ⟨[], .unanswered⟩ } : State).source.bytes = [] ∧
        ({ lone with source := ⟨[], .unanswered⟩ } : State).source.ending = .unanswered) ∧
      ({ lone with source := ⟨[4#8, 1#8], .unanswered⟩ } : State).source.bytes = 4#8 :: [1#8] ∧
      4 ≤ (4#8).toNat ∧ (4#8).toNat ≤ 30 ∧ [1#8].length < 2 ^ (4#8).toNat := by decide

theorem witness_EveryCommandTerminates : pair.source.ending = .fails ∧ pair.sinkPlan.ending = .fails := by decide

theorem witness_ErrorChangesNoSlot :
    (lone.presenting 0x0400000100000000#64).pending = .command 0x0400000100000000#64 :: lone.pending ∧
      (∃ t, step (lone.presenting 0x0400000100000000#64) = .next t ∧ t.rsp.status ≠ 0x00#8) ∧
      (∀ a, decode 0x0400000100000000#64 ≠ .ok (.dump a)) ∧ ∀ a, decode 0x0400000100000000#64 ≠ .ok (.restore a) := by
  have hd : decode 0x0400000100000000#64 = .error .mustBeZero := by decide
  refine ⟨by decide, ⟨_, rfl, by decide⟩, fun a => ?_, fun a => ?_⟩ <;> rw [hd] <;> simp

theorem witness_StatusesOfEachCommand : ∃ t, exec (.merge 0 1) mixed = .next t := ⟨_, rfl⟩

theorem witness_FirstFailingCheckDecides :
    ((lone.presenting 0x0590000100000010#64).pending = .command 0x0590000100000010#64 :: lone.pending ∧
        ∀ i, decode 0x0590000100000010#64 ≠ .ok i) ∧
      lone.nInst ≤ 9 ∧ ((∀ a p, Instr.counter 1 .registers 99 ≠ .create a p) ∧ lone.live (slotOf (.counter 1 .registers 99)) = none) ∧
      lone.live 1 = none ∧
      (lone.live 0 = some slotA ∧ (⟨[3#8, 1#8], .fails⟩ : Source).bytes = 3#8 :: [1#8] ∧ ((3#8).toNat < 4 ∨ 30 < (3#8).toNat)) := by
  have hd : decode 0x0590000100000010#64 = .error .mustBeZero := by decide
  exact ⟨⟨by decide, fun i => by rw [hd]; simp⟩, by decide, ⟨fun _ _ => by simp, by decide⟩, by decide, by decide⟩

theorem witness_OnlyTheNamedSlotChanges :
    (∃ t, exec (.protect 0 3) pair = .next t) ∧ 1 ≠ slotOf (.protect 0 3) ∧ (∀ a, Instr.protect 0 3 ≠ .restore a) ∧
      ∀ a, Instr.protect 0 3 ≠ .dump a :=
  ⟨⟨_, rfl⟩, by decide, fun _ => by simp, fun _ => by simp⟩

theorem witness_ReadingCommandsChangeNoSlot :
    (∃ t, exec (.regcount 0) pair = .next t) ∧ (∃ t, exec (.counter 0 .protectedRegisters 15) pair = .next t) ∧
      (∃ t, exec (.estimate 0 .registers) pair = .next t) ∧ ∃ t, exec (.dump 0) pair = .next t :=
  ⟨⟨_, rfl⟩, ⟨_, rfl⟩, ⟨_, rfl⟩, ⟨_, rfl⟩⟩

/-- An ADD that raises register 1 of slot 0. -/
theorem witness_RegisterStoreFrame :
    ∃ t y, exec (.add 0 0x10000000#32) pair = .next t ∧ pair.slots[0]? = some slotA ∧ t.slots[0]? = some y ∧
      y.M.read 1 ≠ slotA.M.read 1 :=
  ⟨_, _, rfl, rfl, rfl, by decide⟩

theorem witness_ProtectAndLifecycleFrame :
    (∃ t y, pair.slots[1]? = some slotB ∧ t.slots[1]? = some y ∧ exec (.protect 0 3) pair = .next t) ∧
      (∃ t y, pair.slots[1]? = some slotB ∧ t.slots[1]? = some y ∧ exec (.destroy 0) pair = .next t) ∧
      (∃ t y, pair.slots[1]? = some slotB ∧ t.slots[1]? = some y ∧ exec (.create 0 30) pair = .next t) ∧
      ∃ t y, ({ pair with source := ⟨4#8 :: List.replicate 16 1#8, .fails⟩ } : State).slots[1]? = some slotB ∧
        t.slots[1]? = some y ∧ exec (.restore 0) { pair with source := ⟨4#8 :: List.replicate 16 1#8, .fails⟩ } = .next t :=
  ⟨⟨_, _, rfl, rfl, rfl⟩, ⟨_, _, rfl, rfl, rfl⟩, ⟨_, _, rfl, rfl, rfl⟩, ⟨_, _, rfl, rfl, rfl⟩⟩

theorem witness_InvariantKeptByEveryStep : pair.Inv ∧ ∃ t, step pair = .next t := ⟨pair_inv, _, rfl⟩

theorem pair_within : RegistersWithinRank pair := by
  intro a x hx i
  have key : ∀ registers : List Byte, registers.all (fun v => decide (v.toNat ≤ 29)) = true →
      ((slotWith 4 registers).M.read i).toNat ≤ 29 := by
    intro registers h
    simp only [slotWith, Memory.read_ofBytes, Nat.zero_le, if_true, Nat.sub_zero, List.getD_eq_getElem?_getD]
    cases hi : registers[i]? with
    | none => simp
    | some v => simpa using List.all_eq_true.mp h v (List.mem_of_getElem? hi)
  match a, hx with
  | 0, hx => cases hx; exact key _ (by decide)
  | 1, hx => cases hx; exact key _ (by decide)

/-- A MERGE that changes a register. -/
theorem witness_RegistersStayWithinRank :
    pair.Inv ∧ pair.mergeOp = .max ∧ RegistersWithinRank pair ∧ (∀ a index bit, Instr.merge 0 1 ≠ .flipbit a index bit) ∧
      (∀ a, Instr.merge 0 1 ≠ .restore a) ∧ ∃ t, exec (.merge 0 1) pair = .next t :=
  ⟨pair_inv, rfl, pair_within, fun _ _ _ => by simp, fun _ => by simp, _, rfl⟩

theorem witness_AddAndMergeNeverLower :
    (∃ t y, exec (.add 0 0x10000000#32) pair = .next t ∧ pair.slots[0]? = some slotA ∧ t.slots[0]? = some y) ∧
      ∃ t y, exec (.merge 0 1) pair = .next t ∧ pair.slots[0]? = some slotA ∧ t.slots[0]? = some y :=
  ⟨⟨_, _, rfl, rfl, rfl⟩, ⟨_, _, rfl, rfl, rfl⟩⟩

theorem witness_ResponseFeedsNoCommand :
    (lone.presenting 0x0400000000000000#64).pending = .command 0x0400000000000000#64 :: lone.pending := by decide

/-- Two engines that differ in a register of slot 1, which holds no instance; the next step runs a command. -/
theorem witness_InvalidSlotsAreUnobservable :
    SameVisible (lone.presenting 0x0110050000000000#64)
      ((engineWith slotA { slotB with valid := false }).presenting 0x0110050000000000#64) ∧
      (∃ s', step (lone.presenting 0x0110050000000000#64) = .next s') ∧
      lone ≠ engineWith slotA { slotB with valid := false } := by
  refine ⟨⟨rfl, fun a => ?_, rfl, rfl, rfl, rfl, rfl, rfl, rfl⟩, ⟨_, rfl⟩, by decide⟩
  match a with
  | 0 => rfl
  | 1 => rfl
  | _ + 2 => rfl

end Sys2Proof.Tests
end

section
/-! SUPPORT. What a command that completes does to the state, said once for all twelve: the slot it stores, what it takes from or
gives to a stream, and that every other field stays. The frames and the invariants below are derived from `exec_next`. -/

namespace Sys2Proof.Machine

/-- The slot `y` that command `i` puts in place of slot `x` when it completes with status `OK` in state `s`, one constructor for
each command that stores. `hx` says where `x` stands: for `CREATE` any slot (40_register_store R70), else a live one. -/
inductive Stores (s : State) : Instr → Slot → Slot → Prop
  | create {a p : Nat} {x : Slot} (hx : s.slots[a]? = some x) (hp : validPrecision p = true) :
      Stores s (.create a p) x (s.freshSlot p)
  | destroy {a : Nat} {x : Slot} (hx : s.live a = some x) : Stores s (.destroy a) x { x with valid := false }
  | clear {a : Nat} {x : Slot} (hx : s.live a = some x) : Stores s (.clear a) x { x with M := [] }
  | flipbit {a index bit : Nat} {x : Slot} (hx : s.live a = some x) (hindex : index < x.m) :
      Stores s (.flipbit a index bit) x { x with M := x.M.write index (x.M.read index ^^^ (1#8 <<< bit)) }
  | add {a : Nat} {hash : Word32} {x : Slot} (hx : s.live a = some x) :
      Stores s (.add a hash) x { x with M := x.M.raiseTo (hashIndex x.prec hash) (hashRank x.prec hash) }
  | protect {a threshold : Nat} {x : Slot} (hx : s.live a = some x) :
      Stores s (.protect a threshold) x { x with P := protectedCopy x.M x.m threshold }
  | merge {a b : Nat} {x z : Slot} (hx : s.live a = some x) (hz : s.live b = some z) (hm : x.m = z.m) :
      Stores s (.merge a b) x { x with M := mergeFrom s.mergeOp z.M x.m 0 x.M }
  | restore {a q : Nat} {staged : List Byte} {x : Slot} (hx : s.live a = some x) (hq : validPrecision q = true)
      (hlen : staged.length = 2 ^ q) : Stores s (.restore a) x (s.restoredSlot q staged)

/-- The state `u` that command `i` leaves of state `s` when only the streams are looked at: `DUMP` gives bytes to the sink, `RESTORE`
takes bytes from the source, every other command does neither. -/
inductive Streams (s : State) : Instr → State → Prop
  | untouched (i : Instr) : Streams s i s
  | gives (a : Nat) (bs : List Byte) : Streams s (.dump a) (s.emit bs)
  | takes (a n : Nat) : Streams s (.restore a) (s.consume n)

/-- The next state `t` of command `i` in state `s`: a response after what the command did to the streams, and in the slot it names
what it stores. -/
inductive Completes (s : State) (i : Instr) : State → Prop
  | answers {u : State} (hu : Streams s i u) (st : Status) (v w : Word64) : Completes s i (u.setRsp st v w)
  | stores {u : State} {x y : Slot} (hu : Streams s i u) (hy : Stores s i x y) (v w : Word64) :
      Completes s i ((u.setSlot (slotOf i) y).setRsp .ok v w)

variable {s t u : State} {i : Instr} {x y : Slot}

theorem step_idle (h : s.pending = []) : step s = .next s := by simp [step, h]

theorem step_action {action : HostAction} {rest : List HostAction} (h : s.pending = action :: rest) :
    step s = takeAction action (s.withPending rest) := by simp [step, h]

/-- Everything a command can do when it answers a next state. -/
theorem exec_next (h : exec i s = .next t) : Completes s i t := by
  have same := Streams.untouched (s := s) i
  cases i with
  | create a p =>
    obtain ⟨-, rfl⟩ | ⟨-, -, rfl⟩ | ⟨ha, hp, rfl⟩ := execCreate_next h
    · exact .answers same _ _ _
    · exact .answers same _ _ _
    · exact .stores same (.create (List.getElem?_eq_getElem ha) hp) _ _
  | destroy a =>
    obtain ⟨-, rfl⟩ | ⟨x, hx, rfl⟩ := execDestroy_next h
    · exact .answers same _ _ _
    · exact .stores same (.destroy hx) _ _
  | clear a =>
    obtain ⟨-, rfl⟩ | ⟨x, hx, rfl⟩ := execClear_next h
    · exact .answers same _ _ _
    · exact .stores same (.clear hx) _ _
  | regcount a =>
    obtain ⟨-, rfl⟩ | ⟨x, -, rfl⟩ := execRegcount_next h <;> exact .answers same _ _ _
  | counter a sel index =>
    obtain ⟨-, rfl⟩ | ⟨x, -, ⟨-, rfl⟩ | ⟨-, rfl⟩⟩ := execCounter_next h <;> exact .answers same _ _ _
  | flipbit a index bit =>
    obtain ⟨-, rfl⟩ | ⟨x, hx, ⟨-, rfl⟩ | ⟨hindex, rfl⟩⟩ := execFlipbit_next h
    · exact .answers same _ _ _
    · exact .answers same _ _ _
    · exact .stores same (.flipbit hx hindex) _ _
  | add a hash =>
    obtain ⟨-, rfl⟩ | ⟨x, hx, rfl⟩ := execAdd_next h
    · exact .answers same _ _ _
    · exact .stores same (.add hx) _ _
  | estimate a sel =>
    obtain ⟨-, rfl⟩ | ⟨x, -, rfl⟩ := execEstimate_next h <;> exact .answers same _ _ _
  | protect a threshold =>
    obtain ⟨-, rfl⟩ | ⟨x, hx, rfl⟩ := execProtect_next h
    · exact .answers same _ _ _
    · exact .stores same (.protect hx) _ _
  | merge a b =>
    obtain ⟨-, rfl⟩ | ⟨x, z, hx, hz, ⟨-, rfl⟩ | ⟨hm, rfl⟩⟩ := execMerge_next h
    · exact .answers same _ _ _
    · exact .answers same _ _ _
    · exact .stores same (.merge hx hz hm) _ _
  | dump a =>
    obtain ⟨-, rfl⟩ | ⟨x, -, ⟨k, -, -, -, rfl⟩ | ⟨-, rfl⟩⟩ := execDump_next h
    · exact .answers same _ _ _
    · exact .answers (.gives a _) _ _ _
    · exact .answers (.gives a _) _ _ _
  | restore a =>
    obtain ⟨-, rfl⟩ | ⟨x, hx, ⟨-, rfl⟩ | ⟨q, bytes, -, ⟨-, rfl⟩ | ⟨-, -, rfl⟩ | ⟨hq, hlen, rfl⟩⟩⟩ := execRestore_next h
    · exact .answers same _ _ _
    · exact .answers same _ _ _
    · exact .answers (.takes a _) _ _ _
    · exact .answers (.takes a _) _ _ _
    · exact .stores (.takes a _) (.restore hx hq (List.length_take_of_le hlen)) _ _

theorem slots_of_live {a : Nat} (h : s.live a = some x) : s.slots[a]? = some x := ((live_eq_some_iff s a x).mp h).1

/-- The slot a command stores over is the one its field `a` names. -/
theorem Stores.slot (h : Stores s i x y) : s.slots[slotOf i]? = some x := by
  cases h with
  | create hx _ => exact hx
  | destroy hx | clear hx | flipbit hx _ | add hx | protect hx | merge hx _ _ | restore hx _ _ => exact slots_of_live hx

theorem Streams.slots (h : Streams s i u) : u.slots = s.slots := by cases h <;> rfl

theorem Streams.setting (h : Streams s i u) : SameSetting s u := by cases h <;> exact ⟨rfl, rfl, rfl, rfl, rfl⟩

theorem Streams.source (h : Streams s i u) (hi : ∀ a, i ≠ .restore a) : u.source = s.source := by
  cases h with
  | untouched | gives => rfl
  | takes a n => exact absurd rfl (hi a)

theorem Streams.sinkOut (h : Streams s i u) (hi : ∀ a, i ≠ .dump a) : u.sinkOut = s.sinkOut := by
  cases h with
  | untouched | takes => rfl
  | gives a bs => exact absurd rfl (hi a)

theorem Completes.setting (h : Completes s i t) : SameSetting s t := by
  cases h with
  | answers hu => exact hu.setting
  | stores hu =>
    obtain ⟨hn, hop, halpha, hpend, hplan⟩ := hu.setting
    exact ⟨by simpa using hn, hop, halpha, hpend, hplan⟩

theorem Completes.source (h : Completes s i t) (hi : ∀ a, i ≠ .restore a) : t.source = s.source := by
  cases h with
  | answers hu | stores hu => exact hu.source hi

theorem Completes.sinkOut (h : Completes s i t) (hi : ∀ a, i ≠ .dump a) : t.sinkOut = s.sinkOut := by
  cases h with
  | answers hu | stores hu => exact hu.sinkOut hi

theorem Status.code_le (st : Status) : st.code.toNat ≤ 6 := by cases st <;> decide

theorem Completes.status_le (h : Completes s i t) : t.rsp.status.toNat ≤ 6 := by
  cases h with
  | answers | stores => exact Status.code_le _

/-- A slot after a command: as it was, or the slot the command stored. -/
theorem Completes.getElem? (h : Completes s i t) (c : Nat) :
    t.slots[c]? = s.slots[c]? ∨
      c = slotOf i ∧ ∃ x y, Stores s i x y ∧ s.slots[c]? = some x ∧ t.slots[c]? = some y := by
  cases h with
  | answers hu => exact .inl (by simp [hu.slots])
  | @stores u x y hu hy =>
    by_cases hc : c = slotOf i
    · subst hc
      obtain ⟨hlt, -⟩ := List.getElem?_eq_some_iff.mp hy.slot
      exact .inr ⟨rfl, x, y, hy, hy.slot, by simp [hu.slots, hlt]⟩
    · exact .inl (by simp [hu.slots, Ne.symm hc])

/-- A command leaves every slot but the one it names as it was (10_state R22). -/
theorem Completes.other_slot (h : Completes s i t) {c : Nat} (hc : c ≠ slotOf i) : t.slots[c]? = s.slots[c]? :=
  (h.getElem? c).resolve_right fun hs => hc hs.1

/-- Where a slot of the next state comes from. -/
theorem Completes.slot_from (h : Completes s i t) {c : Nat} (hy : t.slots[c]? = some y) :
    s.slots[c]? = some y ∨ c = slotOf i ∧ ∃ x, Stores s i x y ∧ s.slots[c]? = some x := by
  obtain he | ⟨hc, x, y', hs, hx, hy'⟩ := h.getElem? c
  · exact .inl (he ▸ hy)
  · obtain rfl : y = y' := Option.some.inj (hy.symm.trans hy')
    exact .inr ⟨hc, x, hs, hx⟩

/-- A slot before and after a command: the same, or the slot stored over and the slot stored. -/
theorem Completes.slot_pair (h : Completes s i t) {c : Nat} (hx : s.slots[c]? = some x) (hy : t.slots[c]? = some y) :
    y = x ∨ c = slotOf i ∧ Stores s i x y := by
  obtain he | ⟨hc, x', hs, hx'⟩ := h.slot_from hy
  · exact .inl (Option.some.inj (he.symm.trans hx))
  · obtain rfl : x = x' := Option.some.inj (hx.symm.trans hx')
    exact .inr ⟨hc, hs⟩

end Sys2Proof.Machine
end

section
/-! SUPPORT. Invariants of 10_state: the invariant of R18, and the bound on the registers of R20. -/

namespace Sys2Proof.Machine

variable {s t : State} {i : Instr} {x y : Slot}

/-- What `State.Inv` asks of one slot: both arrays in canonical form, and (I-a) to (I-d) of 10_state R18 if it is valid. -/
def State.SlotInv (s : State) (x : Slot) : Prop := x.M.wf ∧ x.P.wf ∧ (x.valid = true → x.instanceOk s)

theorem State.Inv.slotInv_of_mem (h : s.Inv) (hx : x ∈ s.slots) : s.SlotInv x :=
  have ⟨_, _, hslots⟩ := h
  hslots x hx

theorem State.Inv.slotInv {a : Nat} (h : s.Inv) (hx : s.slots[a]? = some x) : s.SlotInv x :=
  h.slotInv_of_mem (List.mem_of_getElem? hx)

theorem State.Inv.instanceOk {a : Nat} (h : s.Inv) (hx : s.live a = some x) : x.instanceOk s :=
  have ⟨_, _, hv⟩ := h.slotInv (slots_of_live hx)
  hv (live_valid hx)

/-- What `CREATE` and `RESTORE` construct meets the invariant of a slot. -/
theorem slotInv_constructed {p : Nat} {A : Memory} (hp : validPrecision p = true) (hw : A.wf) (hb : A.below (2 ^ p)) :
    s.SlotInv { valid := true, prec := p, alphaMM := s.alphamm p, M := A, P := [] } :=
  have ⟨h4, h30⟩ := validPrecision_iff.mp hp
  ⟨hw, Memory.wf_nil, fun _ => ⟨h4, h30, rfl, hb, Memory.below_nil _⟩⟩

/-- The invariant is about the slots, the number of them, the `ALPHAMM` table and the status, and about nothing else. -/
theorem State.Inv.of_slots (h : s.Inv) (hn : t.nInst = s.nInst) (halpha : t.alphaTable = s.alphaTable)
    (hst : t.rsp.status.toNat ≤ 6) (hslots : ∀ y ∈ t.slots, s.SlotInv y) : t.Inv := by
  obtain ⟨⟨hmin, hmax, hlen, hok⟩, -, -⟩ := h
  refine ⟨⟨hn ▸ hmin, hn ▸ hmax, halpha ▸ hlen, halpha ▸ hok⟩, hst, fun y hy => ?_⟩
  obtain ⟨hM, hP, hv⟩ := hslots y hy
  refine ⟨hM, hP, fun hval => ?_⟩
  obtain ⟨h4, h30, hmm, hMm, hPm⟩ := hv hval
  exact ⟨h4, h30, by rw [hmm, State.alphamm, State.alphamm, halpha], hMm, hPm⟩

theorem slotInv_reset : s.SlotInv Slot.reset := ⟨Memory.wf_nil, Memory.wf_nil, by simp [Slot.reset]⟩

/-- New registers in canonical form and within the array keep the invariant of a live slot. -/
theorem slotInv_withM {a : Nat} {A : Memory} (h : s.Inv) (hx : s.live a = some x) (hw : A.wf) (hb : A.below x.m) :
    s.SlotInv { x with M := A } :=
  have ⟨_, hP, _⟩ := h.slotInv (slots_of_live hx)
  have ⟨h4, h30, hmm, _, hPm⟩ := h.instanceOk hx
  ⟨hw, hP, fun _ => ⟨h4, h30, hmm, hb, hPm⟩⟩

/-- The index a hash selects lies within the array (41_add R91). -/
theorem hashIndex_lt {p : Nat} (hp : p ≤ 30) (hash : Word32) : hashIndex p hash < 2 ^ p := by
  have hsplit : 2 ^ 32 = 2 ^ (32 - p) * 2 ^ p := by rw [← pow_add]; congr 1; omega
  rw [hashIndex, BitVec.toNat_ushiftRight, Nat.shiftRight_eq_div_pow]
  exact Nat.div_lt_of_lt_mul (hsplit ▸ hash.isLt)

/-- What a command stores meets the invariant of a slot. -/
theorem Stores.slotInv (h : Stores s i x y) (hs : s.Inv) : s.SlotInv y := by
  obtain ⟨hM, hP, -⟩ := hs.slotInv h.slot
  cases h with
  | create _ hp => exact slotInv_constructed hp Memory.wf_nil (Memory.below_nil _)
  | destroy _ => exact ⟨hM, hP, by simp⟩
  | clear hx => exact slotInv_withM hs hx Memory.wf_nil (Memory.below_nil _)
  | flipbit hx hindex =>
    obtain ⟨-, -, -, hb, -⟩ := hs.instanceOk hx
    exact slotInv_withM hs hx (Memory.wf_write hM _ _) (Memory.below_write hb hindex _)
  | add hx =>
    obtain ⟨-, h30, -, hb, -⟩ := hs.instanceOk hx
    exact slotInv_withM hs hx (raiseTo_wf hM _ _) (raiseTo_below hb (hashIndex_lt h30 _) _)
  | protect hx =>
    obtain ⟨h4, h30, hmm, hb, -⟩ := hs.instanceOk hx
    exact ⟨hM, protectedCopy_wf hM _ _, fun _ => ⟨h4, h30, hmm, hb, protectedCopy_below hb _⟩⟩
  | merge hx _ _ =>
    obtain ⟨-, -, -, hb, -⟩ := hs.instanceOk hx
    exact slotInv_withM hs hx (mergeFrom_wf hM) (mergeFrom_below hb (by omega))
  | restore _ hq hlen =>
    exact slotInv_constructed hq (Memory.wf_ofBytes _ _) (hlen ▸ Memory.below_ofBytes _)

theorem exec_inv (hs : s.Inv) (h : exec i s = .next t) : t.Inv := by
  have hc := exec_next h
  obtain ⟨hn, -, halpha, -, -⟩ := hc.setting
  refine hs.of_slots hn halpha hc.status_le fun y hy => ?_
  obtain ⟨c, hy⟩ := List.mem_iff_getElem?.mp hy
  obtain hx | ⟨-, x, hst, -⟩ := hc.slot_from hy
  · exact hs.slotInv hx
  · exact hst.slotInv hs

theorem runWord_inv {w : Word64} (hs : s.Inv) (h : runWord w s = .next t) : t.Inv := by
  unfold runWord at h
  split at h
  · exact exec_inv hs h
  · obtain rfl := raise_next.mp h
    exact hs.of_slots rfl rfl (Status.code_le _) fun _ hy => hs.slotInv_of_mem hy

theorem takeAction_inv {action : HostAction} (hs : s.Inv) (h : takeAction action s = .next t) : t.Inv := by
  cases action with
  | command w => exact runWord_inv hs h
  | bindSource src => cases h; exact hs
  | bindSink plan => cases h; exact hs
  | reset =>
    cases h
    refine hs.of_slots (resetEngine_nInst s) rfl (Nat.zero_le 6) fun y hy => ?_
    rw [List.eq_of_mem_replicate hy]
    exact slotInv_reset

/-- Settles O52: the host's actions one by one, and for a command the slot it stores (`Stores.slotInv`). -/
theorem invariantKeptByEveryStep : Obligations.InvariantKeptByEveryStep := by
  intro s t hs h
  cases hp : s.pending with
  | nil =>
    rw [step_idle hp] at h
    cases h
    exact hs
  | cons action rest =>
    rw [step_action hp] at h
    exact takeAction_inv (s := s.withPending rest) hs h

/-! ### Registers within the largest rank (10_state R20) -/

theorem hashRank_le {p : Nat} (hp : p ≤ 30) (hash : Word32) : hashRank p hash ≤ 33 - p := by
  unfold hashRank; omega

/-- `ADD` puts no register above the largest rank. -/
theorem read_raiseTo_hashRank_le {A : Memory} {p : Nat} (hp : p ≤ 30) (hA : ∀ k, (A.read k).toNat ≤ 33 - p) (hash : Word32)
    (j k : Nat) : ((A.raiseTo j (hashRank p hash)).read k).toNat ≤ 33 - p := by
  rw [read_raiseTo_toNat _ _ _ _ (hashRank_lt p hash)]
  split
  · exact max_le (hA k) (hashRank_le hp hash)
  · exact hA k

/-- `MERGE` under MAX gives every register a value that one of the two slots held. -/
theorem read_mergeFrom_max_mem (B : Memory) (n j : Nat) (A : Memory) (k : Nat) :
    (mergeFrom .max B n j A).read k = A.read k ∨ (mergeFrom .max B n j A).read k = B.read k := by
  rw [read_mergeFrom]
  split
  · exact .inr rfl
  · exact .inl rfl

/-- Two slots of as many registers have one precision. -/
theorem Slot.prec_eq_of_m_eq (h : x.m = y.m) : x.prec = y.prec := Nat.pow_right_injective (le_refl 2) h

/-- The commands that R20 covers store no register above the largest rank. -/
theorem Stores.within_rank (h : Stores s i x y) (hs : s.Inv) (hop : s.mergeOp = .max) (hr : RegistersWithinRank s)
    (hf : ∀ a index bit, i ≠ .flipbit a index bit) (hres : ∀ a, i ≠ .restore a) (hy : y.valid = true) (k : Nat) :
    (y.M.read k).toNat ≤ 33 - y.prec := by
  cases h with
  | create _ _ => exact Nat.zero_le _
  | destroy _ => simp at hy
  | clear _ => exact Nat.zero_le _
  | flipbit _ _ => exact absurd rfl (hf _ _ _)
  | add hx =>
    obtain ⟨-, h30, -⟩ := hs.instanceOk hx
    exact read_raiseTo_hashRank_le h30 (hr _ _ hx) _ _ k
  | protect hx => exact hr _ _ hx k
  | @merge _ _ _ z hx hz hm =>
    rw [hop]
    obtain he | he := read_mergeFrom_max_mem z.M x.m 0 x.M k
    · exact he ▸ hr _ _ hx k
    · exact he ▸ Slot.prec_eq_of_m_eq hm ▸ hr _ _ hz k
  | restore _ _ _ => exact absurd rfl (hres _)

/-- Settles O54: a live slot of the next state is a live slot of the state before, or one that the command stored. -/
theorem registersStayWithinRank : Obligations.RegistersStayWithinRank := by
  intro s t i hs hop hr hf hres h c y hy k
  obtain ⟨hslot, hv⟩ := (live_eq_some_iff t c y).mp hy
  obtain hx | ⟨-, x, hst, -⟩ := (exec_next h).slot_from hslot
  · exact hr c y ((live_eq_some_iff s c y).mpr ⟨hx, hv⟩) k
  · exact hst.within_rank hs hop hr hf hres hv k

end Sys2Proof.Machine
end

section
/-! SUPPORT. Frames of the commands (10_state R15, R16, R21, R22), read off `exec_next`. -/

namespace Sys2Proof.Machine

variable {s t : State} {i : Instr} {x y : Slot}

/-- Settles O48: `Completes` names the one slot and the one stream a command touches. -/
theorem onlyTheNamedSlotChanges : Obligations.OnlyTheNamedSlotChanges := fun _ _ _ h =>
  have hc := exec_next h
  ⟨fun _ hb => hc.other_slot hb, hc.setting, hc.source, hc.sinkOut⟩

theorem read_raiseTo_ne {A : Memory} {j r k : Nat} (h : (A.raiseTo j r).read k ≠ A.read k) : k = j := by
  rw [read_raiseTo] at h
  split at h
  · rename_i hj
    obtain ⟨hj, -⟩ := hj
    exact hj.symm
  · exact absurd rfl h

/-- A register that `MERGE` changes is one of the array that was below its match. -/
theorem read_mergeFrom_ne {op : MergeOp} {A B : Memory} {n k : Nat} (h : (mergeFrom op B n 0 A).read k ≠ A.read k) :
    k < n ∧ (A.read k).toNat < (B.read k).toNat := by
  rw [read_mergeFrom] at h
  split at h
  · rename_i hk
    obtain ⟨-, hn, hlt⟩ := hk
    exact ⟨by omega, BitVec.lt_def.mp hlt⟩
  · exact absurd rfl h

/-- Settles O50: a slot that changed is the one stored, and the four commands store it with other registers only. -/
theorem registerStoreFrame : Obligations.RegisterStoreFrame := by
  intro s t i h hi c x y hx hy
  obtain rfl | ⟨hc, hst⟩ := (exec_next h).slot_pair hx hy
  · exact ⟨rfl, rfl, rfl, rfl, fun _ hk => absurd rfl hk⟩
  · cases hst with
    | clear _ => exact ⟨rfl, rfl, rfl, rfl, fun _ _ => ⟨hc, trivial⟩⟩
    | flipbit _ _ =>
      refine ⟨rfl, rfl, rfl, rfl, fun k hk => ⟨hc, ?_⟩⟩
      by_contra hne
      exact hk (Memory.read_write_other _ _ (Ne.symm hne))
    | add _ => exact ⟨rfl, rfl, rfl, rfl, fun _ hk => ⟨hc, read_raiseTo_ne hk⟩⟩
    | @merge _ _ _ z _ hz _ =>
      refine ⟨rfl, rfl, rfl, rfl, fun k hk => ⟨hc, ?_⟩⟩
      obtain ⟨hlt, hbelow⟩ := read_mergeFrom_ne hk
      exact ⟨hlt, z, hz, hbelow⟩
    | create _ _ | destroy _ | protect _ | restore _ _ _ => simp at hi

/-- Settles O51: `other` says that no slot but a changes; what `PROTECT` and `DESTROY` keep of slot a is in what they store. -/
theorem protectAndLifecycleFrame : Obligations.ProtectAndLifecycleFrame := by
  intro s t a n c x y hx hy
  have other : ∀ {i}, slotOf i = a → exec i s = .next t → c ≠ a → y = x := fun hi h hca =>
    ((exec_next h).slot_pair hx hy).resolve_right fun hc => hca (hc.1.trans hi)
  refine ⟨fun h => ?_, fun h => ?_, other rfl, other rfl⟩
  · obtain rfl | ⟨hc, hst⟩ := (exec_next h).slot_pair hx hy
    · exact ⟨rfl, rfl, rfl, rfl, fun _ => rfl⟩
    · cases hst
      exact ⟨rfl, rfl, rfl, rfl, absurd hc⟩
  · obtain rfl | ⟨hc, hst⟩ := (exec_next h).slot_pair hx hy
    · exact ⟨rfl, rfl, rfl, rfl, fun _ => rfl⟩
    · cases hst
      exact ⟨rfl, rfl, rfl, rfl, absurd hc⟩

theorem le_read_raiseTo (A : Memory) (j : Nat) {r : Nat} (hr : r < 256) (k : Nat) :
    (A.read k).toNat ≤ ((A.raiseTo j r).read k).toNat := by
  rw [read_raiseTo_toNat _ _ _ _ hr]
  split
  · exact le_max_left _ _
  · exact le_refl _

/-- Both ways of combining two registers give at least the smaller one (44_merge R132). -/
theorem le_combine (op : MergeOp) {v w : Byte} (h : v < w) : v.toNat ≤ (combine op v w).toNat := by
  cases op with
  | max => exact (BitVec.lt_def.mp h).le
  | orIfLess => exact BitVec.toNat_or v w ▸ Nat.left_le_or

theorem le_read_mergeFrom (op : MergeOp) (B : Memory) (n j : Nat) (A : Memory) (k : Nat) :
    (A.read k).toNat ≤ ((mergeFrom op B n j A).read k).toNat := by
  rw [read_mergeFrom]
  split
  · rename_i hk
    obtain ⟨-, -, hlt⟩ := hk
    exact le_combine op hlt
  · exact le_refl _

/-- Settles O55: the conditional writes of `ADD` and `MERGE` only raise a register. -/
theorem addAndMergeNeverLower : Obligations.AddAndMergeNeverLower := by
  intro s t i hi h c x y hx hy k
  obtain rfl | ⟨-, hst⟩ := (exec_next h).slot_pair hx hy
  · exact le_refl _
  · cases hst with
    | add _ => exact le_read_raiseTo _ _ (hashRank_lt _ _) k
    | merge _ _ _ => exact le_read_mergeFrom _ _ _ _ _ k
    | create _ _ | destroy _ | clear _ | flipbit _ _ | protect _ | restore _ _ _ => simp at hi

end Sys2Proof.Machine
end

section
/-! SUPPORT. The response is no input to a command (10_state R17). -/

namespace Sys2Proof.Machine

/-- The state with another response. -/
def State.withRsp (s : State) (r : Response) : State := { s with rsp := r }

variable (s : State) (r : Response)

@[simp] theorem withRsp_live (a : Nat) : (s.withRsp r).live a = s.live a := rfl
@[simp] theorem withRsp_source : (s.withRsp r).source = s.source := rfl
@[simp] theorem withRsp_sinkPlan : (s.withRsp r).sinkPlan = s.sinkPlan := rfl
@[simp] theorem withRsp_consume (n : Nat) : (s.withRsp r).consume n = (s.consume n).withRsp r := rfl
@[simp] theorem withRsp_emit (bs : List Byte) : (s.withRsp r).emit bs = (s.emit bs).withRsp r := rfl

/-- The slot check feeds a command no response, if the command's body looks at none. -/
theorem checkSlot_withRsp (a : Nat) {body body' : Slot → Result} (h : ∀ x, body x = body' x) :
    checkSlot a (s.withRsp r) body = checkSlot a s body' := by
  obtain rfl : body = body' := funext h
  simp only [checkSlot, withRsp_live]
  rfl

theorem dumpBytes_withRsp (vs : List Byte) (n : Nat) : dumpBytes vs n (s.withRsp r) = dumpBytes vs n s := by
  induction vs generalizing n s with
  | nil => rfl
  | cons v vs ih =>
    by_cases ht : s.sinkPlan.takes n = true
    · simp only [dumpBytes, sinkWrite, withRsp_sinkPlan, ht, if_true, withRsp_emit, ih]
    · simp only [dumpBytes, sinkWrite, withRsp_sinkPlan, ht]
      cases s.sinkPlan.ending <;> rfl

theorem stageBytes_withRsp (left : Nat) (staged : List Byte) (n : Nat) {commit commit' : List Byte → Nat → State → Result}
    (h : ∀ bs k u, commit bs k (u.withRsp r) = commit' bs k u) :
    stageBytes left staged n (s.withRsp r) commit = stageBytes left staged n s commit' := by
  induction left generalizing staged n s with
  | zero => exact h staged n s
  | succ left ih =>
    simp only [stageBytes, srcRead, withRsp_source, withRsp_consume]
    cases s.source.bytes with
    | nil => cases s.source.ending <;> rfl
    | cons v bytes => exact ih (s.consume 1) (staged ++ [v]) (n + 1)

theorem execRestore_withRsp (a : Nat) : execRestore a (s.withRsp r) = execRestore a s := by
  refine checkSlot_withRsp s r a fun _ => ?_
  simp only [srcRead, withRsp_source, withRsp_consume]
  cases s.source.bytes with
  | nil => cases s.source.ending <;> rfl
  | cons q bytes =>
    by_cases hq : validPrecision q.toNat = true
    · simp only [if_pos hq]
      exact stageBytes_withRsp _ _ _ _ _ fun _ _ _ => rfl
    · simp only [if_neg hq]
      rfl

/-- No command takes anything from the response, and each that completes overwrites all of it. -/
theorem exec_withRsp (i : Instr) : exec i (s.withRsp r) = exec i s := by
  cases i with
  | create a p => rfl
  | destroy a | clear a | regcount a | counter a _ _ | flipbit a _ _ | add a _ | estimate a _ | protect a _ =>
    exact checkSlot_withRsp s r a fun _ => rfl
  | merge a b => exact checkSlot_withRsp s r a fun _ => checkSlot_withRsp s r b fun _ => rfl
  | dump a => exact checkSlot_withRsp s r a fun x => dumpBytes_withRsp s r (layout x) 0
  | restore a => exact execRestore_withRsp s r a

theorem runWord_withRsp (w : Word64) : runWord w (s.withRsp r) = runWord w s := by
  unfold runWord
  cases decode w with
  | ok i => exact exec_withRsp s r i
  | error e => rfl

/-- Settles O56: a step that takes a command word is `runWord`, which no response enters. -/
theorem responseFeedsNoCommand : Obligations.ResponseFeedsNoCommand := by
  intro s w rest r h
  rw [step_action (s := { s with rsp := r }) h, step_action h]
  exact runWord_withRsp (s.withPending rest) r w

end Sys2Proof.Machine
end

section
/-! SUPPORT. The byte order of a command word on a byte-addressed bus (20_memory R33). -/

namespace Sys2Proof

/-- Byte k of a word on the bus is bits 8k+7 to 8k of the word. -/
theorem getElem?_wordBytes (w : Word64) {k : Nat} (hk : k < 8) : (wordBytes w)[k]? = some (w.extractLsb' (8 * k) 8) := by
  have hpow : 256 ^ k = 2 ^ (8 * k) := (pow_mul 2 8 k).symm
  rw [wordBytes, getElem?_bytesLE _ hk, BitVec.extractLsb', Nat.shiftRight_eq_div_pow, hpow]

/-- Decoding from the bytes of a word is decoding the word, the bytes after it handed back with the command. -/
theorem decodeBytes_wordBytes_append (w : Word64) (rest : List Byte) :
    decodeBytes (wordBytes w ++ rest) = (decode w).map fun i => (i, rest) := by
  have hlen := wordBytes_length w
  have hword : BitVec.ofNat 64 (ofBytesLE ((wordBytes w ++ rest).take 8)) = w := by
    rw [List.take_left' hlen, ofBytesLE_wordBytes, BitVec.ofNat_toNat, BitVec.setWidth_eq]
  have hnot : ¬ (wordBytes w ++ rest).length < 8 := by simp [hlen]
  rw [decodeBytes, if_neg hnot, hword, List.drop_left' hlen]
  cases decode w <;> rfl

/-- Settles O6: byte k by `getElem?_wordBytes`; legal or not, the bytes decode as the word does. -/
theorem byteOrderIsLittleEndian : Obligations.ByteOrderIsLittleEndian := by
  refine ⟨fun w k hk => getElem?_wordBytes w hk, fun w rest i h => ?_, fun w rest e h => ?_⟩
  · rw [decodeBytes_wordBytes_append, h]
    rfl
  · rw [decodeBytes_wordBytes_append, h]
    rfl

end Sys2Proof
end

section
/-! SUPPORT. Streams that never answer (20_memory R40), and the commands that only read the slots (20_memory R37). -/

namespace Sys2Proof.Machine

variable {s t u : State} {i : Instr} {a : Nat} {x : Slot}

/-- A sink that goes silent before it has the whole layout stops the dump. -/
theorem execDump_unanswered {k : Nat} (hx : s.live a = some x) (hk : s.sinkPlan.accept = some k) (hlt : k < 1 + x.m)
    (hend : s.sinkPlan.ending = .unanswered) : execDump a s = .fault .sinkUnanswered := by
  obtain ⟨_, -, -, he⟩ | ⟨hall, -⟩ := execDump_live hx
  · rw [he, hend]
  · exact absurd (hall k hk) (not_le.mpr hlt)

/-- A source that is silent from the first byte on stops the restore. -/
theorem execRestore_unanswered_empty (hx : s.live a = some x) (hb : s.source.bytes = [])
    (hend : s.source.ending = .unanswered) : execRestore a s = .fault .sourceUnanswered := by
  obtain ⟨-, he⟩ | ⟨q, rest, hcons, -⟩ := execRestore_live hx
  · rw [he, hend]
  · simp [hb] at hcons

/-- A source that goes silent after a valid precision byte, before the last register, stops the restore. -/
theorem execRestore_unanswered_short {q : Byte} {bytes : List Byte} (hx : s.live a = some x)
    (hb : s.source.bytes = q :: bytes) (hend : s.source.ending = .unanswered) (hq : validPrecision q.toNat = true)
    (hlt : bytes.length < 2 ^ q.toNat) : execRestore a s = .fault .sourceUnanswered := by
  obtain ⟨hnil, -⟩ | ⟨q', rest, hcons, hcases⟩ := execRestore_live hx
  · simp [hb] at hnil
  · obtain ⟨rfl, rfl⟩ := List.cons.inj (hb.symm.trans hcons)
    obtain ⟨hbad, -⟩ | ⟨-, -, he⟩ | ⟨-, hle, -⟩ := hcases
    · simp [hq] at hbad
    · rw [he, hend]
    · exact absurd hle (not_le.mpr hlt)

/-- Settles O43: the sink is silent before the last byte of the layout, the source before its first byte or among the registers. -/
theorem unansweredStreamNeverCompletes : Obligations.UnansweredStreamNeverCompletes := fun _ _ _ hx =>
  ⟨fun _ hk hlt hend => execDump_unanswered hx hk hlt hend,
    fun hb hend => execRestore_unanswered_empty hx hb hend,
    fun _ _ hb hend h4 h30 hlt => execRestore_unanswered_short hx hb hend (validPrecision_iff.mpr ⟨h4, h30⟩) hlt⟩

/-- A command that stores no slot only answers, after what it did to the streams. -/
theorem Completes.eq_of_not_stores (h : Completes s i t) (hi : ∀ x y, ¬ Stores s i x y) :
    ∃ u, Streams s i u ∧ t = { u with rsp := t.rsp } := by
  cases h with
  | answers hu => exact ⟨_, hu, rfl⟩
  | stores _ hy => exact absurd hy (hi _ _)

theorem Streams.eq_self (h : Streams s i u) (hd : ∀ a, i ≠ .dump a) (hr : ∀ a, i ≠ .restore a) : u = s := by
  cases h with
  | untouched => rfl
  | gives a bs => exact absurd rfl (hd a)
  | takes a n => exact absurd rfl (hr a)

theorem Streams.emits_of_dump (h : Streams s (.dump a) u) : ∃ bs, u = s.emit bs := by
  cases h with
  | untouched => exact ⟨[], (emit_nil s).symm⟩
  | gives _ bs => exact ⟨bs, rfl⟩

/-- A command that stores no slot and asks no stream changes only the response. -/
theorem exec_changes_only_rsp (h : exec i s = .next t) (hi : ∀ x y, ¬ Stores s i x y) (hd : ∀ a, i ≠ .dump a)
    (hr : ∀ a, i ≠ .restore a) : t = { s with rsp := t.rsp } := by
  obtain ⟨u, hu, ht⟩ := (exec_next h).eq_of_not_stores hi
  rwa [hu.eq_self hd hr] at ht

/-- Settles O49: none of the four commands has a case in `Stores`, and only `DUMP` has one in `Streams`. -/
theorem readingCommandsChangeNoSlot : Obligations.ReadingCommandsChangeNoSlot := by
  intro s t a index sel
  refine ⟨fun h => ?_, fun h => ?_, fun h => ?_, fun h => ?_⟩
  · exact exec_changes_only_rsp h (fun _ _ => nofun) (fun _ => nofun) (fun _ => nofun)
  · exact exec_changes_only_rsp h (fun _ _ => nofun) (fun _ => nofun) (fun _ => nofun)
  · exact exec_changes_only_rsp h (fun _ _ => nofun) (fun _ => nofun) (fun _ => nofun)
  · obtain ⟨u, hu, ht⟩ := (exec_next h).eq_of_not_stores fun _ _ => nofun
    obtain ⟨bs, rfl⟩ := hu.emits_of_dump
    have hsink : t.sinkOut = s.sinkOut ++ bs := by rw [ht, emit_sinkOut]
    refine ⟨?_, bs, hsink⟩
    rw [hsink]
    exact ht

end Sys2Proof.Machine
end

section
/-! SUPPORT. The opcode map as a whole (30_encoding R52, R53, R58): encoder and decoder are inverse to each other, and a row's test says
that the word decodes to a command of that row. -/

namespace Sys2Proof

variable {w : Word64} {op : Opcode} {i : Instr}

section Fields
variable (op : Opcode) (a b : Nat) (imm8 : BitVec 8) (imm32 : BitVec 32)

@[simp] theorem fieldA_commandWord : fieldA (commandWord op a b imm8 imm32) = BitVec.ofNat 4 a := fieldA_packWord ..
@[simp] theorem fieldB_commandWord : fieldB (commandWord op a b imm8 imm32) = BitVec.ofNat 4 b := fieldB_packWord ..
@[simp] theorem fieldImm8_commandWord : fieldImm8 (commandWord op a b imm8 imm32) = imm8 := fieldImm8_packWord ..
@[simp] theorem fieldImm32_commandWord : fieldImm32 (commandWord op a b imm8 imm32) = imm32 := fieldImm32_packWord ..

end Fields

/-! An operand that fits its field is read back from it (30_encoding R52). -/

theorem slotIdOk_toNat {a : Nat} (h : slotIdOk a = true) : (BitVec.ofNat 4 a).toNat = a :=
  (BitVec.toNat_ofNat ..).trans (Nat.mod_eq_of_lt (of_decide_eq_true h))

theorem precisionOk_toNat {p : Nat} (h : precisionOk p = true) : (BitVec.ofNat 8 p).toNat = p :=
  (BitVec.toNat_ofNat ..).trans (Nat.mod_eq_of_lt (of_decide_eq_true h))

theorem imm32Ok_toNat {n : Nat} (h : imm32Ok n = true) : (BitVec.ofNat 32 n).toNat = n :=
  (BitVec.toNat_ofNat ..).trans (Nat.mod_eq_of_lt (of_decide_eq_true h))

theorem bitPositionOk_toNat {bit : Nat} (h : bitPositionOk bit = true) :
    ((BitVec.ofNat 8 bit).extractLsb' 0 3).toNat = bit := by
  have hb : bit < 2 ^ 3 := of_decide_eq_true h
  simp only [BitVec.extractLsb'_toNat, BitVec.toNat_ofNat]
  omega

/-- The word of a well-formed command passes its own row's test and no other: `OpcodeRow` for each command. -/
theorem opcodeRow (i : Instr) : Laws.OpcodeRow.Statement i := by
  cases i with
  | create a p => exact Laws.OpcodeRow.create a p
  | destroy a => exact Laws.OpcodeRow.destroy a
  | clear a => exact Laws.OpcodeRow.clear a
  | regcount a => exact Laws.OpcodeRow.regcount a
  | counter a sel index => exact Laws.OpcodeRow.counter a sel index
  | flipbit a index bit => exact Laws.OpcodeRow.flipbit a index bit
  | add a hash => exact Laws.OpcodeRow.add a hash
  | estimate a sel => exact Laws.OpcodeRow.estimate a sel
  | protect a threshold => exact Laws.OpcodeRow.protect a threshold
  | merge a b => exact Laws.OpcodeRow.merge a b
  | dump a => exact Laws.OpcodeRow.dump a
  | restore a => exact Laws.OpcodeRow.restore a

/-- The operands read from the word of a well-formed command are the command's. -/
theorem operandsOf_encode (h : WellFormed i = true) : operandsOf (encode i) i.opcode = i := by
  cases i <;> simp only [WellFormed, Bool.and_eq_true] at h <;>
    simp only [operandsOf, encode, Instr.opcode, fieldA_commandWord, fieldB_commandWord, fieldImm8_commandWord,
      fieldImm32_commandWord]
  case create a p => rw [slotIdOk_toNat h.1, precisionOk_toNat h.2]
  case destroy a | clear a | regcount a | add a _ | dump a | restore a => rw [slotIdOk_toNat h]
  case counter a sel index => rw [slotIdOk_toNat h.1, selOf_selBits, imm32Ok_toNat h.2]
  case flipbit a index bit =>
    obtain ⟨⟨ha, hindex⟩, hbit⟩ := h
    rw [slotIdOk_toNat ha, imm32Ok_toNat hindex, bitPositionOk_toNat hbit]
  case estimate a sel => rw [slotIdOk_toNat h, selOf_selBits]
  case protect a threshold => rw [slotIdOk_toNat h.1, imm32Ok_toNat h.2]
  case merge a b => rw [slotIdOk_toNat h.1, slotIdOk_toNat h.2]

/-- Settles O1: the command's word passes the test of its own row, and that row reads back its operands. -/
theorem decodeEncodeRoundTrip : Obligations.DecodeEncodeRoundTrip := by
  intro i h
  exact (decode_eq_ok_iff _ i).mpr ⟨i.opcode, (opcodeRow i h i.opcode).mpr rfl, operandsOf_encode h⟩

/-! Every field holds an operand that fits it (30_encoding R51). -/

theorem slotIdOk_of_field (x : BitVec 4) : slotIdOk x.toNat = true := decide_eq_true x.isLt
theorem precisionOk_of_field (x : BitVec 8) : precisionOk x.toNat = true := decide_eq_true x.isLt
theorem bitPositionOk_of_field (x : BitVec 3) : bitPositionOk x.toNat = true := decide_eq_true x.isLt
theorem imm32Ok_of_field (x : BitVec 32) : imm32Ok x.toNat = true := decide_eq_true x.isLt

theorem wellFormed_operandsOf (w : Word64) (op : Opcode) : WellFormed (operandsOf w op) = true := by
  cases op <;> simp only [operandsOf, WellFormed, slotIdOk_of_field, precisionOk_of_field, bitPositionOk_of_field,
    imm32Ok_of_field, Bool.and_self]

theorem selBits_selOf (x : BitVec 8) : selBits (selOf x) = x &&& ~~~0xFE#8 := by decide +revert

theorem setWidth_bitPosition (x : BitVec 8) : (x.extractLsb' 0 3).setWidth 8 = x &&& ~~~0xF8#8 := by decide +revert

/-- Reading a word by a row and writing it again keeps the bits that the row's mask leaves free, and clears the others. -/
theorem encode_operandsOf (w : Word64) (op : Opcode) :
    encode (operandsOf w op) = packWord op.byte (fieldA w) (fieldB w &&& ~~~op.maskB) (fieldImm8 w &&& ~~~op.maskImm8) 0#8
      (fieldImm32 w &&& ~~~op.maskImm32) := by
  have free4 : ∀ x : BitVec 4, x &&& 15#4 = x := fun _ => BitVec.and_allOnes
  have free8 : ∀ x : BitVec 8, x &&& 255#8 = x := fun _ => BitVec.and_allOnes
  have free32 : ∀ x : BitVec 32, x &&& 0xFFFFFFFF#32 = x := fun _ => BitVec.and_allOnes
  cases op <;> simp [operandsOf, encode, commandWord, Opcode.maskB, Opcode.maskImm8, Opcode.maskImm32, selBits_selOf,
    setWidth_bitPosition, free4, free8, free32, -BitVec.extractLsb'_toNat]

/-- Clearing the masked bits changes nothing where the masked bits are clear. -/
theorem and_not_of_and_eq_zero {n : Nat} {x m : BitVec n} (h : x &&& m = 0#n) : x &&& ~~~m = x := by
  have hsplit : (x &&& m) ||| (x &&& ~~~m) = x := by
    rw [← BitVec.and_or_distrib_left, BitVec.or_not_self, BitVec.and_allOnes]
  rwa [h, BitVec.zero_or] at hsplit

/-- A word that passes a row's test is the word of the command the row reads. -/
theorem encode_operandsOf_of_match (h : w &&& op.mask = op.pattern) : encode (operandsOf w op) = w := by
  obtain ⟨hop, hb, h8, hrsvd, h32⟩ := (and_mask_eq_pattern w op).mp h
  rw [encode_operandsOf, and_not_of_and_eq_zero hb, and_not_of_and_eq_zero h8, and_not_of_and_eq_zero h32, ← hop, ← hrsvd,
    packWord_fields]

/-- Settles O2: a word that decodes passes the test of a row, whose reading loses no bit of it. -/
theorem encodeDecodeRoundTrip : Obligations.EncodeDecodeRoundTrip := by
  intro w i h
  obtain ⟨op, hmatch, rfl⟩ := (decode_eq_ok_iff w i).mp h
  exact ⟨wellFormed_operandsOf w op, encode_operandsOf_of_match hmatch⟩

/-- A word that decodes passes the test of its command's row. -/
theorem match_of_decode (h : decode w = .ok i) : w &&& i.opcode.mask = i.opcode.pattern := by
  obtain ⟨op, hmatch, rfl⟩ := (decode_eq_ok_iff w i).mp h
  rwa [operandsOf_opcode]

/-- Settles O3: row by row, `decode_of_match` one way and `match_of_decode` the other. -/
theorem decoderFollowsOpcodeMap : Obligations.DecoderFollowsOpcodeMap := by
  intro w
  refine ⟨?create, ?destroy, ?clear, ?regcount, ?counter, ?flipbit, ?add, ?estimate, ?protect, ?merge, ?dump, ?restore⟩
  case create => exact ⟨fun h => ⟨_, _, decode_of_match (op := .create) h⟩, fun ⟨_, _, h⟩ => match_of_decode h⟩
  case destroy => exact ⟨fun h => ⟨_, decode_of_match (op := .destroy) h⟩, fun ⟨_, h⟩ => match_of_decode h⟩
  case clear => exact ⟨fun h => ⟨_, decode_of_match (op := .clear) h⟩, fun ⟨_, h⟩ => match_of_decode h⟩
  case regcount => exact ⟨fun h => ⟨_, decode_of_match (op := .regcount) h⟩, fun ⟨_, h⟩ => match_of_decode h⟩
  case counter => exact ⟨fun h => ⟨_, _, _, decode_of_match (op := .counter) h⟩, fun ⟨_, _, _, h⟩ => match_of_decode h⟩
  case flipbit => exact ⟨fun h => ⟨_, _, _, decode_of_match (op := .flipbit) h⟩, fun ⟨_, _, _, h⟩ => match_of_decode h⟩
  case add => exact ⟨fun h => ⟨_, _, decode_of_match (op := .add) h⟩, fun ⟨_, _, h⟩ => match_of_decode h⟩
  case estimate => exact ⟨fun h => ⟨_, _, decode_of_match (op := .estimate) h⟩, fun ⟨_, _, h⟩ => match_of_decode h⟩
  case protect => exact ⟨fun h => ⟨_, _, decode_of_match (op := .protect) h⟩, fun ⟨_, _, h⟩ => match_of_decode h⟩
  case merge => exact ⟨fun h => ⟨_, _, decode_of_match (op := .merge) h⟩, fun ⟨_, _, h⟩ => match_of_decode h⟩
  case dump => exact ⟨fun h => ⟨_, decode_of_match (op := .dump) h⟩, fun ⟨_, h⟩ => match_of_decode h⟩
  case restore => exact ⟨fun h => ⟨_, decode_of_match (op := .restore) h⟩, fun ⟨_, h⟩ => match_of_decode h⟩

/-- Settles O7: each word is a literal, so the decoder is run on it. -/
theorem specWordsDecode : Obligations.SpecWordsDecode := by
  refine ⟨?_, ?_, ?_⟩ <;> decide

end Sys2Proof
end

section
/-! SUPPORT. What makes a word illegal (30_encoding R54, R55): its opcode byte is reserved, or a bit under its row's mask is set. -/

namespace Sys2Proof

variable {w : Word64} {op : Opcode}

/-- The twelve opcode bytes, listed. -/
theorem mem_opcodeBytes {b : BitVec 8} : b ∈ Opcode.all.map Opcode.byte ↔ ∃ op : Opcode, b = op.byte := by
  have hall : ∀ op : Opcode, op ∈ Opcode.all := fun op => by cases op <;> decide
  simp [hall, eq_comm]

theorem decode_reserved (h : ∀ op : Opcode, fieldOpcode w ≠ op.byte) : decode w = .error .reservedOpcode := by
  simp [decode, opcodeOf_eq_none.mpr h]

theorem decode_mustBeZero (hop : fieldOpcode w = op.byte) (h : w &&& op.mask ≠ op.pattern) :
    decode w = .error .mustBeZero := by
  simp [decode, opcodeOf_eq_some.mpr hop, h]

/-! The rows whose mask covers a field whole, or all but its operand bits (30_encoding R52). -/

theorem maskB_of_unused : op.byte ≠ 0x40#8 → op.maskB = BitVec.allOnes 4 := by cases op <;> decide

theorem maskImm8_of_unused :
    op.byte ∈ [0x02#8, 0x03#8, 0x04#8, 0x10#8, 0x30#8, 0x40#8, 0x50#8, 0x51#8] → op.maskImm8 = BitVec.allOnes 8 := by
  cases op <;> decide

theorem maskImm8_of_select : op.byte ∈ [0x05#8, 0x20#8] → op.maskImm8 = 0xFE#8 := by cases op <;> decide

theorem maskImm8_of_bitPosition : op.byte = 0x06#8 → op.maskImm8 = 0xF8#8 := by cases op <;> decide

theorem maskImm32_of_unused :
    op.byte ∈ [0x01#8, 0x02#8, 0x03#8, 0x04#8, 0x20#8, 0x40#8, 0x50#8, 0x51#8] → op.maskImm32 = BitVec.allOnes 32 := by
  cases op <;> decide

/-! The bits of `imm8` above its operand, as bits of the word. -/

theorem extractLsb'_fieldImm8 (w : Word64) {k n : Nat} (h : k + n ≤ 8) :
    (fieldImm8 w).extractLsb' k n = w.extractLsb' (40 + k) n := by
  apply BitVec.eq_of_getLsbD_eq
  intro j hj
  have hj8 : k + j < 8 := by omega
  simp [fieldImm8, hj, hj8, Nat.add_assoc]

theorem imm8_above_select (h : fieldImm8 w &&& 0xFE#8 = 0#8) : w.extractLsb' 41 7 = 0#7 := by
  have hfield : ∀ x : BitVec 8, x &&& 0xFE#8 = 0#8 → x.extractLsb' 1 7 = 0#7 := by decide
  exact (extractLsb'_fieldImm8 w (by decide)).symm.trans (hfield _ h)

theorem imm8_above_bitPosition (h : fieldImm8 w &&& 0xF8#8 = 0#8) : w.extractLsb' 43 5 = 0#5 := by
  have hfield : ∀ x : BitVec 8, x &&& 0xF8#8 = 0#8 → x.extractLsb' 3 5 = 0#5 := by decide
  exact (extractLsb'_fieldImm8 w (by decide)).symm.trans (hfield _ h)

end Sys2Proof
end

section
/-! SUPPORT. What the command port answers to a word (30_encoding R50, R54, R55), and the host's actions between commands. -/

namespace Sys2Proof.Machine

variable {s : State} {w : Word64} {rest : List HostAction}

/-- Settles O8: the next word is taken off and run, and running it is running its command. -/
theorem stepRunsDecodedCommand : Obligations.StepRunsDecodedCommand := by
  intro s w rest i h hdecode
  rw [step_action h]
  simp only [takeAction, runWord, hdecode]
  rfl

/-- A step that takes an illegal word writes the response `IllegalCommand` and nothing else. -/
theorem step_illegal (h : s.pending = .command w :: rest) {e : DecodeError} (hdecode : decode w = .error e) :
    step s = .next { s with pending := rest, rsp := ⟨0x05#8, 0#64, 0#64⟩ } := by
  rw [step_action h]
  simp only [takeAction, runWord, hdecode]
  rfl

theorem step_reserved (h : s.pending = .command w :: rest) (hop : fieldOpcode w ∉ Opcode.all.map Opcode.byte) :
    step s = .next { s with pending := rest, rsp := ⟨0x05#8, 0#64, 0#64⟩ } :=
  step_illegal h (decode_reserved fun op he => hop (mem_opcodeBytes.mpr ⟨op, he⟩))

/-- Settles O4: the twelve bytes are all that the decoder knows, and neither 0x00 nor 0xFF is one of them. -/
theorem reservedOpcodesAreIllegal : Obligations.ReservedOpcodesAreIllegal := by
  refine ⟨fun s w rest h hop => step_reserved h hop, fun s w rest h hw => step_reserved h ?_⟩
  rcases hw with rfl | rfl <;> decide

/-- Settles O5: were the word legal, its row's test would make the field in question zero. -/
theorem mustBeZeroBitsAreIllegal : Obligations.MustBeZeroBitsAreIllegal := by
  intro s w rest h hmem hbits
  obtain ⟨op, hop⟩ := mem_opcodeBytes.mp hmem
  refine step_illegal h (decode_mustBeZero hop fun hmatch => ?_)
  obtain ⟨-, hb, h8, hrsvd, h32⟩ := (and_mask_eq_pattern w op).mp hmatch
  change w.extractLsb' 56 8 = op.byte at hop
  rw [hop] at hbits
  rcases hbits with hne | ⟨hrow, hne⟩ | ⟨hrow, hne⟩ | ⟨hrow, hne⟩ | ⟨hrow, hne⟩ | ⟨hrow, hne⟩
  · exact hne hrsvd
  · rw [maskB_of_unused hrow, BitVec.and_allOnes] at hb
    exact hne hb
  · rw [maskImm8_of_unused hrow, BitVec.and_allOnes] at h8
    exact hne h8
  · rw [maskImm8_of_select hrow] at h8
    exact hne (imm8_above_select h8)
  · rw [maskImm8_of_bitPosition hrow] at h8
    exact hne (imm8_above_bitPosition h8)
  · rw [maskImm32_of_unused hrow, BitVec.and_allOnes] at h32
    exact hne h32

/-- Settles O9: with no action left a step is idle, and a binding replaces its stream. -/
theorem hostActionsBetweenCommands : Obligations.HostActionsBetweenCommands :=
  ⟨fun _ h => step_idle h, fun _ _ _ h => step_action h, fun _ _ _ h => step_action h⟩

end Sys2Proof.Machine
end

section
/-! SUPPORT. The register store commands (40_register_store): what each answers, as the state it leaves, and one bit of one register
toggled. -/

namespace Sys2Proof.Machine

variable {s : State} {a index bit : Nat} {x : Slot}

/-! ### What each command answers (40_register_store R71 to R76) -/

theorem execCreate_valid {p : Nat} (ha : a < s.nInst) (hp : validPrecision p = true) :
    execCreate a p s = .next ((s.setSlot a (s.freshSlot p)).setRsp .ok 0#64 0#64) := by
  rw [execCreate, checkSlotId, if_pos ha, if_pos hp, respond]

theorem execCreate_noInstance {p : Nat} (ha : s.nInst ≤ a) :
    execCreate a p s = .next (s.setRsp .noInstance 0#64 0#64) := by
  rw [execCreate, checkSlotId, if_neg (not_lt.mpr ha), raise]

theorem execCreate_invalidArgument {p : Nat} (ha : a < s.nInst) (hp : ¬ validPrecision p = true) :
    execCreate a p s = .next (s.setRsp .invalidArgument 0#64 0#64) := by
  rw [execCreate, checkSlotId, if_pos ha, if_neg hp, raise]

theorem execDestroy_live (hx : s.live a = some x) :
    execDestroy a s = .next ((s.setSlot a { x with valid := false }).setRsp .ok 0#64 0#64) := checkSlot_live hx

theorem execClear_live (hx : s.live a = some x) :
    execClear a s = .next ((s.setSlot a { x with M := [] }).setRsp .ok 0#64 0#64) := checkSlot_live hx

theorem execRegcount_live (hx : s.live a = some x) :
    execRegcount a s = .next (s.setRsp .ok (BitVec.ofNat 64 x.m) 0#64) := checkSlot_live hx

theorem execCounter_inRange {sel : ArraySel} (hx : s.live a = some x) (hi : index < x.m) :
    execCounter a sel index s = .next (s.setRsp .ok (((x.array sel).read index).setWidth 64) 0#64) := by
  rw [execCounter, checkSlot_live hx, if_neg (not_le.mpr hi), respond]

theorem execCounter_outOfRange {sel : ArraySel} (hx : s.live a = some x) (hi : x.m ≤ index) :
    execCounter a sel index s = .next (s.setRsp .indexOutOfRange 0#64 0#64) := by
  rw [execCounter, checkSlot_live hx, if_pos hi, raise]

/-- The slot with one bit of one register toggled (40_register_store R76). -/
def Slot.flipped (x : Slot) (index bit : Nat) : Slot :=
  { x with M := x.M.write index (x.M.read index ^^^ (1#8 <<< bit)) }

theorem execFlipbit_inRange (hx : s.live a = some x) (hi : index < x.m) :
    execFlipbit a index bit s = .next ((s.setSlot a (x.flipped index bit)).setRsp .ok 0#64 0#64) := by
  rw [execFlipbit, checkSlot_live hx, if_neg (not_le.mpr hi), respond, Slot.flipped]

theorem execFlipbit_outOfRange (hx : s.live a = some x) (hi : x.m ≤ index) :
    execFlipbit a index bit s = .next (s.setRsp .indexOutOfRange 0#64 0#64) := by
  rw [execFlipbit, checkSlot_live hx, if_pos hi, raise]

/-! ### The slot afterwards, and the register count -/

theorem live_setSlot_invalid (ha : a < s.slots.length) (hx : x.valid = false) : (s.setSlot a x).live a = none := by
  simp [State.live, ha, hx]

/-- A live slot stays live when its registers are replaced. -/
theorem live_setSlot_withM (hx : s.live a = some x) (A : Memory) :
    (s.setSlot a { x with M := A }).live a = some { x with M := A } :=
  have hv : x.valid = true := live_valid hx
  live_setSlot_live hx hv

/-- The register count of a precision the spec allows fits the response value. -/
theorem toNat_ofNat_m (h : x.prec ≤ 30) : (BitVec.ofNat 64 x.m).toNat = 2 ^ x.prec := by
  have hm : 2 ^ x.prec ≤ 2 ^ 30 := Nat.pow_le_pow_right (by decide) h
  rw [BitVec.toNat_ofNat, Slot.m, Nat.mod_eq_of_lt (by omega)]

/-! ### One bit toggled (40_register_store R76) -/

@[simp] theorem flipped_prec : (x.flipped index bit).prec = x.prec := rfl
@[simp] theorem flipped_alphaMM : (x.flipped index bit).alphaMM = x.alphaMM := rfl
@[simp] theorem flipped_P : (x.flipped index bit).P = x.P := rfl

theorem read_flipped (i : Nat) :
    (x.flipped index bit).M.read i = if index = i then x.M.read index ^^^ (1#8 <<< bit) else x.M.read i :=
  Memory.read_write _ _ _ _

theorem getLsbD_xor_one_shiftLeft (v : Byte) {k : Nat} (hk : k < 8) :
    (v ^^^ (1#8 <<< bit)).getLsbD k = if k = bit then !v.getLsbD k else v.getLsbD k := by
  rw [BitVec.getLsbD_xor, ← BitVec.twoPow_eq, BitVec.getLsbD_twoPow]
  by_cases hb : k = bit
  · subst hb
    simp [hk]
  · simp [hb, Ne.symm hb]

/-- The named bit of the named register is toggled, every other bit is as before. -/
theorem getLsbD_read_flipped (i : Nat) {k : Nat} (hk : k < 8) :
    ((x.flipped index bit).M.read i).getLsbD k =
      if i = index ∧ k = bit then !(x.M.read i).getLsbD k else (x.M.read i).getLsbD k := by
  rw [read_flipped]
  by_cases hi : i = index
  · subst hi
    simp [getLsbD_xor_one_shiftLeft _ hk]
  · simp [hi, Ne.symm hi]

/-- Toggling the same bit again gives the slot back, its registers being in canonical form. -/
theorem flipped_flipped (hw : x.M.wf) : (x.flipped index bit).flipped index bit = x := by
  have hM : ((x.flipped index bit).flipped index bit).M = x.M := by
    refine Memory.ext (Memory.wf_write (Memory.wf_write hw _ _) _ _) hw fun i => ?_
    rw [read_flipped, read_flipped, read_flipped]
    by_cases hi : index = i
    · subst hi
      rw [if_pos rfl, if_pos rfl, BitVec.xor_assoc, BitVec.xor_self, BitVec.xor_zero]
    · rw [if_neg hi, if_neg hi]
  calc (x.flipped index bit).flipped index bit
      = { x with M := ((x.flipped index bit).flipped index bit).M } := rfl
    _ = x := by rw [hM]

/-! ### The statements -/

/-- Settles O16: the bits by `getLsbD_read_flipped`. -/
theorem flipbitTogglesOneBit : Obligations.FlipbitTogglesOneBit := fun _ _ index bit _ =>
  ⟨fun x hx hi => ⟨_, x.flipped index bit, execFlipbit_inRange hx hi, live_setSlot_withM hx _,
      fun i _ hk => getLsbD_read_flipped i hk, flipped_prec, flipped_alphaMM, flipped_P, rfl⟩,
    fun _ hx hi => execFlipbit_outOfRange hx hi, fun h => checkSlot_dead h⟩

/-- Settles O17: the second run finds the toggled slot live and toggles it back (`flipped_flipped`). -/
theorem flipbitTwiceRestores : Obligations.FlipbitTwiceRestores := by
  intro s a index bit x hx hi hw
  have hlive : ((s.setSlot a (x.flipped index bit)).setRsp .ok 0#64 0#64).live a = some (x.flipped index bit) :=
    live_setSlot_withM hx _
  refine ⟨_, _, execFlipbit_inRange hx hi, execFlipbit_inRange hlive hi, ?_⟩
  calc (s.slots.set a (x.flipped index bit)).set a ((x.flipped index bit).flipped index bit)
      = (s.setSlot a x).slots := by rw [List.set_set, flipped_flipped hw, setSlot_slots]
    _ = s.slots := by rw [setSlot_same hx]

/-- Settles O11: the slot id is checked first, then the precision; the slot stored is `freshSlot`, both arrays empty lists. -/
theorem createBuildsFreshInstance : Obligations.CreateBuildsFreshInstance := by
  intro s a p
  refine ⟨fun ha h4 h30 => ?_, fun ha => execCreate_noInstance ha, fun ha hp => execCreate_invalidArgument ha ?_⟩
  · exact ⟨_, s.freshSlot p, execCreate_valid ha (validPrecision_iff.mpr ⟨h4, h30⟩), List.getElem?_set_self ha, rfl, rfl, rfl,
      fun _ => ⟨rfl, rfl⟩, rfl⟩
  · rw [validPrecision_iff]
    omega

/-- Settles O12: the slot is written with `valid` false, which no live slot has. -/
theorem destroyReleasesInstance : Obligations.DestroyReleasesInstance := by
  refine fun s a => ⟨fun x hx => ?_, fun h => checkSlot_dead h⟩
  have ha := live_lt s a x hx
  exact ⟨_, execDestroy_live hx, List.getElem?_set_self ha, live_setSlot_invalid ha rfl,
    fun b hb => List.getElem?_set_ne (Ne.symm hb), rfl⟩

/-- Settles O13: the registers become the empty list, which reads 0 everywhere. -/
theorem clearZeroesRegisters : Obligations.ClearZeroesRegisters := fun _ _ =>
  ⟨fun x hx => ⟨_, { x with M := [] }, execClear_live hx, live_setSlot_withM hx [], Memory.read_nil, rfl, rfl, rfl, rfl⟩,
    fun h => checkSlot_dead h⟩

/-- Settles O14: 2^30 fits 64 bits, so the answer is the number itself. -/
theorem regcountAnswersRegisterCount : Obligations.RegcountAnswersRegisterCount := fun _ _ =>
  ⟨fun _ hx _ h30 => ⟨_, toNat_ofNat_m h30, execRegcount_live hx⟩, fun h => checkSlot_dead h⟩

/-- Settles O15: a byte zero-extended to 64 bits is the same number. -/
theorem counterReadsElement : Obligations.CounterReadsElement := by
  refine fun s a index sel => ⟨fun x hx hi => ⟨_, ?_, execCounter_inRange hx hi⟩, fun x hx hi => execCounter_outOfRange hx hi,
    fun h => checkSlot_dead h⟩
  rw [BitVec.toNat_setWidth_of_le (by decide)]
  cases sel <;> rfl

end Sys2Proof.Machine
end

section
/-! SUPPORT. The register update command (41_add): index and rank as numbers, the slot after one `ADD` or several, and what the
command answers. -/

namespace Sys2Proof.Machine

variable {s : State} {a p : Nat} {x : Slot} {hash : Word32} {hashes hashes' : List Word32}

/-! ### Index, remainder and rank as numbers (41_add R91 to R93, R98) -/

theorem hashIndex_eq_div (p : Nat) (hash : Word32) : hashIndex p hash = hash.toNat / 2 ^ (32 - p) := by
  rw [hashIndex, BitVec.toNat_ushiftRight, Nat.shiftRight_eq_div_pow]

theorem hashRemainder_eq_zero_iff (hp : p ≤ 30) : hashRemainder p hash = 0#32 ↔ hash.toNat % 2 ^ (32 - p) = 0 := by
  rw [← BitVec.toNat_inj, hashRemainder_toNat p hash hp]
  simp

/-- The highest set bit of the low bits of a hash is one of them. -/
theorem log2_lowBits_lt (h : hash.toNat % 2 ^ (32 - p) ≠ 0) : Nat.log2 (hash.toNat % 2 ^ (32 - p)) < 32 - p :=
  (Nat.log2_lt h).mpr (Nat.mod_lt _ (by positivity))

/-- The shift by p moves the highest set bit of the low bits up by p. -/
theorem clz32_hashRemainder (hp : p ≤ 30) (h : hash.toNat % 2 ^ (32 - p) ≠ 0) :
    clz32 (hashRemainder p hash) = 31 - (Nat.log2 (hash.toNat % 2 ^ (32 - p)) + p) := by
  have hne : hashRemainder p hash ≠ 0#32 := mt (hashRemainder_eq_zero_iff hp).mp h
  rw [clz32, if_neg hne, hashRemainder_toNat p hash hp, log2_mul_pow _ p h]

/-- A remainder of 0 gives the largest rank: the cap `32 - p` of 41_add R93 applies. -/
theorem hashRank_of_remainder_zero (hp : p ≤ 30) (h : hashRemainder p hash = 0#32) : hashRank p hash = 33 - p := by
  rw [hashRank, h, clz32, if_pos rfl]
  omega

/-- Below a remainder other than 0 the cap `32 - p` of 41_add R93 does not apply. -/
theorem hashRank_of_remainder_ne_zero (hp : p ≤ 30) (h : hashRemainder p hash ≠ 0#32) :
    hashRank p hash = clz32 (hashRemainder p hash) + 1 ∧
      hashRank p hash = (32 - p) - Nat.log2 (hash.toNat % 2 ^ (32 - p)) := by
  have hw := mt (hashRemainder_eq_zero_iff hp).mpr h
  have hlog := log2_lowBits_lt hw
  rw [hashRank, clz32_hashRemainder hp hw]
  omega

theorem hashRank_closed_form (hp : p ≤ 30) (hash : Word32) :
    hashRank p hash = if hash.toNat % 2 ^ (32 - p) = 0 then 33 - p
      else (32 - p) - Nat.log2 (hash.toNat % 2 ^ (32 - p)) := by
  split
  · next hw => exact hashRank_of_remainder_zero hp ((hashRemainder_eq_zero_iff hp).mpr hw)
  · next hw => exact (hashRank_of_remainder_ne_zero hp (mt (hashRemainder_eq_zero_iff hp).mp hw)).2

/-! ### The slot after a run of `ADD`s -/

/-- Raising an element twice to the same byte is raising it once. -/
theorem raiseTo_raiseTo (A : Memory) (i : Nat) {r : Nat} (hr : r < 256) : (A.raiseTo i r).raiseTo i r = A.raiseTo i r := by
  have hread : r ≤ ((A.raiseTo i r).read i).toNat := by
    rw [read_raiseTo_toNat _ _ _ _ hr, if_pos rfl]
    exact le_max_right _ _
  rw [Memory.raiseTo, if_neg (not_lt.mpr hread)]

/-- The slot after `ADD`s of these hashes, in this order (41_add R94). -/
def Slot.withAdds (x : Slot) (hashes : List Word32) : Slot := { x with M := hashes.foldl (addM x.prec) x.M }

@[simp] theorem withAdds_prec : (x.withAdds hashes).prec = x.prec := rfl
@[simp] theorem withAdds_alphaMM : (x.withAdds hashes).alphaMM = x.alphaMM := rfl
@[simp] theorem withAdds_P : (x.withAdds hashes).P = x.P := rfl

theorem withAdds_cons : x.withAdds (hash :: hashes) = (x.withAdds [hash]).withAdds hashes := rfl

theorem withAdds_twice : (x.withAdds [hash]).withAdds [hash] = x.withAdds [hash] :=
  congrArg (fun A => { x with M := A }) (raiseTo_raiseTo x.M _ (hashRank_lt x.prec hash))

theorem read_withAdds (i : Nat) : ((x.withAdds hashes).M.read i).toNat =
    ((hashes.filter (fun h => hashIndex x.prec h == i)).map (hashRank x.prec)).foldl max (x.M.read i).toNat :=
  read_foldl_addM _ _ _ _

theorem read_withAdds_single (i : Nat) : ((x.withAdds [hash]).M.read i).toNat =
    if i = hashIndex x.prec hash then max (x.M.read i).toNat (hashRank x.prec hash) else (x.M.read i).toNat :=
  read_raiseTo_toNat _ _ _ _ (hashRank_lt _ _)

/-- Maxima do not depend on the order, and registers in canonical form are fixed by what they read. -/
theorem withAdds_perm (hw : x.M.wf) (h : hashes.Perm hashes') : x.withAdds hashes = x.withAdds hashes' := by
  have hM : (x.withAdds hashes).M = (x.withAdds hashes').M :=
    Memory.ext (wf_foldl_addM _ _ _ hw) (wf_foldl_addM _ _ _ hw) fun i => by
      rw [← BitVec.toNat_inj, read_withAdds, read_withAdds]
      exact ((h.filter _).map _).foldl_eq _
  exact congrArg (fun A => { x with M := A }) hM

/-! ### What `ADD` answers (41_add R95), once and in a run -/

theorem live_setSlot_withAdds (hx : s.live a = some x) (hashes : List Word32) :
    (s.setSlot a (x.withAdds hashes)).live a = some (x.withAdds hashes) := live_setSlot_withM hx _

theorem execAdd_live (hx : s.live a = some x) (hash : Word32) :
    exec (.add a hash) s = .next ((s.setSlot a (x.withAdds [hash])).setRsp .ok 0#64 0#64) := checkSlot_live hx

theorem execAdd_dead (hx : s.live a = none) (hash : Word32) :
    exec (.add a hash) s = .next (s.setRsp .noInstance 0#64 0#64) := checkSlot_dead hx

/-- Of two commands that each write slot a, the second one's slot and response remain. -/
theorem setSlot_setRsp_twice (y z : Slot) (st st' : Status) (v w v' w' : Word64) :
    (((s.setSlot a y).setRsp st v w).setSlot a z).setRsp st' v' w' = (s.setSlot a z).setRsp st' v' w' := by
  simp [State.setSlot, State.setRsp]

theorem runAll_cons_next {i : Instr} {is : List Instr} {t : State} (h : exec i s = .next t) :
    runAll (i :: is) s = runAll is t := by simp [runAll, h]

theorem runAll_adds (hx : s.live a = some x) (hash : Word32) (hashes : List Word32) :
    runAll ((hash :: hashes).map (Instr.add a)) s =
      .next ((s.setSlot a (x.withAdds (hash :: hashes))).setRsp .ok 0#64 0#64) := by
  induction hashes generalizing s x hash with
  | nil => exact runAll_cons_next (execAdd_live hx hash)
  | cons hash' hashes ih =>
    have hlive : ((s.setSlot a (x.withAdds [hash])).setRsp .ok 0#64 0#64).live a = some (x.withAdds [hash]) :=
      live_setSlot_withAdds hx _
    rw [List.map_cons, runAll_cons_next (execAdd_live hx hash), ih hlive, setSlot_setRsp_twice, ← withAdds_cons]

/-- A run of `ADD`s, the empty one too, completes with the hashes added to the slot. -/
theorem runAll_adds_live (hx : s.live a = some x) (hashes : List Word32) :
    ∃ t, runAll (hashes.map (Instr.add a)) s = .next t ∧ t.live a = some (x.withAdds hashes) := by
  cases hashes with
  | nil => exact ⟨s, rfl, hx⟩
  | cons hash hashes => exact ⟨_, runAll_adds hx hash hashes, live_setSlot_withAdds hx _⟩

theorem runAll_adds_perm (hx : s.live a = some x) (hw : x.M.wf) (h : hashes.Perm hashes') :
    runAll (hashes'.map (Instr.add a)) s = runAll (hashes.map (Instr.add a)) s := by
  cases hashes with
  | nil => rw [h.nil_eq]
  | cons hash hashes =>
    cases hashes' with
    | nil => exact absurd h.symm (List.not_perm_nil_cons _ _)
    | cons hash' hashes' => rw [runAll_adds hx, runAll_adds hx, withAdds_perm hw h]

/-! ### The statements -/

/-- Settles O18: a remainder of 0 is capped at `32 - p`, any other has its highest set bit at p or above. -/
theorem hashIndexAndRankInRange : Obligations.HashIndexAndRankInRange := by
  intro p hash _ hp
  refine ⟨hashIndex_eq_div p hash, hashIndex_lt hp hash, hashRemainder_toNat p hash hp, fun h => ?_,
    hashRank_of_remainder_zero hp, Nat.le_add_left 1 _, hashRank_le hp hash⟩
  obtain ⟨hclz, hlog⟩ := hashRank_of_remainder_ne_zero hp h
  exact ⟨hclz, hlog ▸ Nat.sub_le _ _⟩

/-- Settles O19: `hashRank_closed_form`, with `(32 - p) + 1` for `33 - p`. -/
theorem rankClosedForm : Obligations.RankClosedForm := by
  intro p hash _ hp
  rw [hashRank_closed_form hp, show 33 - p = (32 - p) + 1 by omega]

/-- Settles O20: the slot after one `ADD`, its index and rank in numbers. -/
theorem addRaisesSelectedRegister : Obligations.AddRaisesSelectedRegister := by
  intro s a hash
  refine ⟨fun x hx _ h30 => ?_, fun hx => execAdd_dead hx hash⟩
  exact ⟨_, x.withAdds [hash], hashRank x.prec hash, execAdd_live hx hash, live_setSlot_withAdds hx _,
    hashRank_closed_form h30 hash, fun i => hashIndex_eq_div x.prec hash ▸ read_withAdds_single i,
    withAdds_prec, withAdds_alphaMM, withAdds_P, rfl⟩

/-- Settles O21: the second `ADD` finds the register at the rank or above and writes back what the first one left. -/
theorem addIsIdempotent : Obligations.AddIsIdempotent := by
  intro s t a hash h
  obtain ⟨hx, rfl⟩ | ⟨x, hx, rfl⟩ := execAdd_next h
  · exact execAdd_dead hx hash
  · calc exec (.add a hash) ((s.setSlot a (x.withAdds [hash])).setRsp .ok 0#64 0#64)
        = .next ((((s.setSlot a (x.withAdds [hash])).setRsp .ok 0#64 0#64).setSlot a
            ((x.withAdds [hash]).withAdds [hash])).setRsp .ok 0#64 0#64) := execAdd_live (live_setSlot_withAdds hx _) hash
      _ = .next ((s.setSlot a (x.withAdds [hash])).setRsp .ok 0#64 0#64) := by
        rw [withAdds_twice, setSlot_setRsp_twice]

/-- Settles O22: the registers by `read_withAdds`, the order by `runAll_adds_perm`. -/
theorem addOrderIndependent : Obligations.AddOrderIndependent := by
  intro s a x hashes hx _ _ hw
  obtain ⟨t, hrun, hlive⟩ := runAll_adds_live hx hashes
  exact ⟨⟨t, x.withAdds hashes, hrun, hlive, fun _ => read_withAdds _⟩, fun _ => runAll_adds_perm hx hw⟩

end Sys2Proof.Machine
end

section
/-! SUPPORT. The binary64 operations in real numbers (42_estimate R104): a rounded magnitude with its sign is the correct rounding of a
real number, and each operation on finite values is one such rounding. -/

namespace Sys2Proof.Machine

variable {x y : F64} {sign : Bool} {n d bits : Nat}

/-! ### Signs and magnitudes as real numbers -/

/-- The factor a sign bit stands for. -/
noncomputable def signFactor (sign : Bool) : ℝ := if sign then -1 else 1

@[simp] theorem signFactor_false : signFactor false = 1 := rfl
@[simp] theorem signFactor_true : signFactor true = -1 := rfl

theorem abs_signFactor (sign : Bool) : |signFactor sign| = 1 := by cases sign <;> simp

theorem signFactor_xor (s t : Bool) : signFactor (Bool.xor s t) = signFactor s * signFactor t := by
  cases s <;> cases t <;> simp

theorem signFactor_div (s t : Bool) : signFactor s / signFactor t = signFactor s * signFactor t := by
  cases s <;> cases t <;> simp

theorem signFactor_ne_zero (sign : Bool) : signFactor sign ≠ 0 := by cases sign <;> simp

theorem f64Real_eq (x : F64) : f64Real x = signFactor (f64Sign x) * ((f64Units x : ℝ) / 2 ^ 1074) := f64Real_eq_units x

theorem f64Real_pack (h : bits < 2 ^ 63) : f64Real (f64Pack sign bits) = signFactor sign * ((magUnits bits : ℝ) / 2 ^ 1074) := by
  rw [f64Real_eq, f64Units_eq, f64Sign_pack h, f64Mag_pack h]

theorem abs_f64Real (x : F64) : |f64Real x| = (magUnits (f64Mag x) : ℝ) / 2 ^ 1074 := by
  rw [f64Real_eq, abs_mul, abs_signFactor, one_mul, f64Units_eq, abs_of_nonneg (by positivity)]

theorem f64Real_neg (x : F64) : f64Real (f64Neg x) = -f64Real x := by
  rw [f64Real, f64Value_f64Neg, Int.cast_neg, neg_div, f64Real]

theorem f64Pack_toNat_mod_two (h : bits < 2 ^ 63) : (f64Pack sign bits).toNat % 2 = bits % 2 := by
  rw [f64Pack_toNat h]
  cases sign
  · simp
  · simp only [if_true]; omega

/-- The overflow threshold of `CorrectlyRounded` in units of 2^(-1074). -/
theorem overflow_threshold : ((2 : ℝ) ^ 1024 - 2 ^ 970) * 2 ^ 1074 = 2 ^ 2098 - 2 ^ 2044 := by
  rw [sub_mul, ← pow_add, ← pow_add]

/-! ### One rounding is correct -/

/-- A distance between values is at least the distance of their magnitudes. -/
theorem magnitude_distance_le (e : F64) (sign : Bool) {V : ℝ} (hV : 0 ≤ V) :
    |(magUnits (f64Mag e) : ℝ) - V| / 2 ^ 1074 ≤ |f64Real e - signFactor sign * (V / 2 ^ 1074)| := by
  have hv : |signFactor sign * (V / 2 ^ 1074)| = V / 2 ^ 1074 := by
    rw [abs_mul, abs_signFactor, one_mul, abs_of_nonneg (by positivity)]
  calc |(magUnits (f64Mag e) : ℝ) - V| / 2 ^ 1074
      = |(magUnits (f64Mag e) : ℝ) / 2 ^ 1074 - V / 2 ^ 1074| := by
        rw [← sub_div, abs_div, abs_of_pos (by positivity : (0 : ℝ) < 2 ^ 1074)]
    _ = abs (|f64Real e| - |signFactor sign * (V / 2 ^ 1074)|) := by rw [abs_f64Real, hv]
    _ ≤ _ := abs_abs_sub_abs_le _ _

/-- A value of the rounded sign is as far away as its magnitude. -/
theorem pack_distance (h : bits < 2 ^ 63) (sign : Bool) (V : ℝ) :
    |f64Real (f64Pack sign bits) - signFactor sign * (V / 2 ^ 1074)| = |(magUnits bits : ℝ) - V| / 2 ^ 1074 := by
  rw [f64Real_pack h, ← mul_sub, abs_mul, abs_signFactor, one_mul, ← sub_div, abs_div,
    abs_of_pos (by positivity : (0 : ℝ) < 2 ^ 1074)]

/-- Below the overflow threshold the rounded value is nearest. -/
theorem roundUnits_pack_nearest (hd : 0 < d) (h : (n : ℝ) / d < 2 ^ 2098 - 2 ^ 2044) (sign : Bool) (e : F64) :
    |f64Real (f64Pack sign (roundUnits n d)) - signFactor sign * ((n : ℝ) / d / 2 ^ 1074)| ≤
      |f64Real e - signFactor sign * ((n : ℝ) / d / 2 ^ 1074)| := by
  obtain ⟨hle, -⟩ := ((roundUnits_nearest n d hd).1 h).2 (f64Mag e)
  rw [pack_distance (roundUnits_lt n d)]
  exact le_trans (by gcongr) (magnitude_distance_le e sign (by positivity))

/-- Of two nearest values the rounded one is even. A value tied with its own negation is the rounding of 0, so it is 0. -/
theorem roundUnits_pack_tie (hd : 0 < d) (h : (n : ℝ) / d < 2 ^ 2098 - 2 ^ 2044) (sign : Bool) {e : F64}
    (heq : |f64Real e - signFactor sign * ((n : ℝ) / d / 2 ^ 1074)| =
      |f64Real (f64Pack sign (roundUnits n d)) - signFactor sign * ((n : ℝ) / d / 2 ^ 1074)|)
    (hne : f64Real e ≠ f64Real (f64Pack sign (roundUnits n d))) : roundUnits n d % 2 = 0 := by
  obtain ⟨hle, heven⟩ := ((roundUnits_nearest n d hd).1 h).2 (f64Mag e)
  by_cases hmag : f64Mag e = roundUnits n d
  · have habs : |f64Real e| = |f64Real (f64Pack sign (roundUnits n d))| := by
      rw [abs_f64Real, abs_f64Real, f64Mag_pack (roundUnits_lt n d), hmag]
    have hopp : f64Real e = -f64Real (f64Pack sign (roundUnits n d)) := (abs_eq_abs.mp habs).resolve_left hne
    have hv : signFactor sign * ((n : ℝ) / d / 2 ^ 1074) = 0 := by
      rcases abs_eq_abs.mp heq with h1 | h1
      · exact absurd (by linarith) hne
      · linarith
    have hn : n = 0 := by simpa [signFactor_ne_zero, hd.ne'] using hv
    rw [hn, roundUnits_zero d hd]
  · have hlow := magnitude_distance_le e sign (V := (n : ℝ) / d) (by positivity)
    rw [heq, pack_distance (roundUnits_lt n d), div_le_div_iff_of_pos_right (by positivity)] at hlow
    exact heven (le_antisymm hlow hle) hmag

/-- A rounded magnitude with its sign is the correct rounding of the real number. -/
theorem correctlyRounded_pack (hd : 0 < d) (sign : Bool) :
    CorrectlyRounded (signFactor sign * ((n : ℝ) / d / 2 ^ 1074)) (f64Pack sign (roundUnits n d)) := by
  have hP : (0 : ℝ) < 2 ^ 1074 := by positivity
  have hV : 0 ≤ (n : ℝ) / d / 2 ^ 1074 := by positivity
  have hT : (0 : ℝ) < 2 ^ 1024 - 2 ^ 970 := sub_pos.mpr (pow_lt_pow_right₀ (by norm_num) (by norm_num))
  have hinf : 2 ^ 1024 - 2 ^ 970 ≤ (n : ℝ) / d / 2 ^ 1074 → roundUnits n d = f64InfBits := fun h =>
    (roundUnits_nearest n d hd).2 (by rwa [← overflow_threshold, ← le_div_iff₀ hP])
  refine ⟨fun h => ?_, fun h => ?_, fun h => ?_⟩
  · rw [abs_mul, abs_signFactor, one_mul, abs_of_nonneg hV, div_lt_iff₀ hP, overflow_threshold] at h
    have hfin := ((roundUnits_nearest n d hd).1 h).1
    refine ⟨by rwa [finite_iff_mag, f64Mag_pack (roundUnits_lt n d)], fun e _ => ⟨roundUnits_pack_nearest hd h sign e, ?_⟩⟩
    rw [f64Pack_toNat_mod_two (roundUnits_lt n d)]
    exact roundUnits_pack_tie hd h sign
  · generalize (2 : ℝ) ^ 1024 - 2 ^ 970 = T at h hT hinf
    cases sign
    · rw [hinf (by simpa using h), f64Inf]
    · rw [signFactor_true] at h
      linarith
  · generalize (2 : ℝ) ^ 1024 - 2 ^ 970 = T at h hT hinf
    cases sign
    · rw [signFactor_false] at h
      linarith
    · rw [hinf (by simpa using h), f64Inf]

/-! ### The operations on finite values -/

/-- A sum is the exact sum of the values, rounded; an exact sum of 0 is a zero of some sign. -/
theorem fadd_eq_pack (hx : f64IsFinite x = true) (hy : f64IsFinite y = true) :
    ∃ sign, fadd x y = f64Pack sign (roundUnits (f64Value x + f64Value y).natAbs 1) ∧
      ((f64Value x + f64Value y : ℤ) : ℝ) = signFactor sign * (f64Value x + f64Value y).natAbs := by
  rw [fadd_fin hx hy]
  generalize f64Value x + f64Value y = z
  split
  · rename_i hz
    exact ⟨_, by rw [hz, Int.natAbs_zero, roundUnits_zero 1 one_pos], by simp [hz]⟩
  · refine ⟨_, rfl, ?_⟩
    rw [Nat.cast_natAbs, Int.cast_abs]
    by_cases hneg : z < 0
    · rw [decide_eq_true hneg, signFactor_true, abs_of_neg (by exact_mod_cast hneg)]
      ring
    · rw [decide_eq_false hneg, signFactor_false, one_mul, abs_of_nonneg (by exact_mod_cast not_lt.mp hneg)]

theorem fadd_correctlyRounded (hx : f64IsFinite x = true) (hy : f64IsFinite y = true) :
    CorrectlyRounded (f64Real x + f64Real y) (fadd x y) := by
  obtain ⟨sign, hsum, hvalue⟩ := fadd_eq_pack hx hy
  have hreal : f64Real x + f64Real y =
      signFactor sign * (((f64Value x + f64Value y).natAbs : ℝ) / (1 : ℕ) / 2 ^ 1074) := by
    rw [f64Real, f64Real, ← add_div, ← Int.cast_add, hvalue, Nat.cast_one, div_one, mul_div_assoc]
  rw [hreal, hsum]
  exact correctlyRounded_pack one_pos sign

theorem fsub_correctlyRounded (hx : f64IsFinite x = true) (hy : f64IsFinite y = true) :
    CorrectlyRounded (f64Real x - f64Real y) (fsub x y) := by
  rw [sub_eq_add_neg, ← f64Real_neg]
  exact fadd_correctlyRounded hx (by rwa [f64IsFinite_neg])

/-- The product of two finite values. -/
theorem fmul_fin (hx : f64IsFinite x = true) (hy : f64IsFinite y = true) :
    fmul x y = f64Pack (f64SignXor x y) (roundUnits (f64Units x * f64Units y) (2 ^ 1074)) := by
  simp [fmul, isNaN_of_finite hx, isNaN_of_finite hy, isInf_of_finite hx, isInf_of_finite hy]

theorem fmul_correctlyRounded (hx : f64IsFinite x = true) (hy : f64IsFinite y = true) :
    CorrectlyRounded (f64Real x * f64Real y) (fmul x y) := by
  have hreal : f64Real x * f64Real y =
      signFactor (f64SignXor x y) * (((f64Units x * f64Units y : ℕ) : ℝ) / ((2 ^ 1074 : ℕ) : ℝ) / 2 ^ 1074) := by
    rw [f64Real_eq, f64Real_eq, f64SignXor, signFactor_xor, Nat.cast_mul, Nat.cast_pow, Nat.cast_ofNat]
    ring
  rw [hreal, fmul_fin hx hy]
  exact correctlyRounded_pack (by positivity) _

theorem f64IsZero_iff_units (x : F64) : f64IsZero x = true ↔ f64Units x = 0 := by
  rw [f64IsZero_eq, decide_eq_true_iff, f64Units_eq, magUnits_strictMono.injective.eq_iff' magUnits_zero]

/-- The quotient of two finite values, for a divisor that is not 0. -/
theorem fdiv_fin (hx : f64IsFinite x = true) (hy : f64IsFinite y = true) (hy0 : f64Units y ≠ 0) :
    fdiv x y = f64Pack (f64SignXor x y) (roundUnits (f64Units x * 2 ^ 1074) (f64Units y)) := by
  have hz : f64IsZero y = false := by rwa [← Bool.not_eq_true, f64IsZero_iff_units]
  simp [fdiv, isNaN_of_finite hx, isNaN_of_finite hy, isInf_of_finite hx, isInf_of_finite hy, hz]

theorem fdiv_correctlyRounded (hx : f64IsFinite x = true) (hy : f64IsFinite y = true) (hy0 : f64Real y ≠ 0) :
    CorrectlyRounded (f64Real x / f64Real y) (fdiv x y) := by
  have hu : f64Units y ≠ 0 := fun h => hy0 (by rw [f64Real_eq, h]; simp)
  have huR : (f64Units y : ℝ) ≠ 0 := by exact_mod_cast hu
  have hreal : f64Real x / f64Real y =
      signFactor (f64SignXor x y) * (((f64Units x * 2 ^ 1074 : ℕ) : ℝ) / (f64Units y : ℝ) / 2 ^ 1074) := by
    rw [f64Real_eq, f64Real_eq, mul_div_mul_comm, signFactor_div, f64SignXor, signFactor_xor, Nat.cast_mul, Nat.cast_pow,
      Nat.cast_ofNat]
    field_simp
  rw [hreal, fdiv_fin hx hy hu]
  exact correctlyRounded_pack (Nat.pos_of_ne_zero hu) _

/-- Settles O29: each operation is one rounding of the exact result (`correctlyRounded_pack`). -/
theorem arithmeticIsCorrectlyRounded : Obligations.ArithmeticIsCorrectlyRounded := fun _ _ hx hy =>
  ⟨fadd_correctlyRounded hx hy, fsub_correctlyRounded hx hy, fmul_correctlyRounded hx hy, fdiv_correctlyRounded hx hy⟩

/-! ### Zeros, infinities and NaNs -/

/-- Settles O58: the class of each operand decides the branch of the operation. -/
theorem divisionByZeroAndInvalidOperations : Obligations.DivisionByZeroAndInvalidOperations := by
  intro x y
  refine ⟨fun hx hx0 hy0 => ?_, fun hx0 hy0 => ?_, fun hx hy => ⟨?_, fun hs => ?_, fun hs => ?_⟩, ?_, ?_⟩
  · obtain ⟨hyn, hyi⟩ := class_of_zero hy0
    simp only [fdiv, isNaN_of_finite hx, isInf_of_finite hx, hx0, hyn, hyi, hy0, f64SignXor]
    cases f64Sign x <;> cases f64Sign y <;> rfl
  · obtain ⟨hxn, hxi⟩ := class_of_zero hx0
    obtain ⟨hyn, hyi⟩ := class_of_zero hy0
    simp [fdiv, hxn, hxi, hx0, hyn, hyi, hy0, f64NaN]
  · simp [fdiv, class_of_inf hx, class_of_inf hy, hx, hy, f64NaN]
  · simp [fadd, class_of_inf hx, class_of_inf hy, hx, hy, hs, f64NaN]
  · simp [fsub, fadd, class_of_inf hx, class_of_inf hy, f64IsNaN_neg, f64IsInf_neg, f64Sign_neg, hx, hy, hs, f64NaN]
  · rintro (⟨hx, hy⟩ | ⟨hx, hy⟩)
    · simp [fmul, class_of_inf hx, class_of_zero hy, hx, hy, f64NaN]
    · simp [fmul, class_of_zero hx, class_of_inf hy, hx, hy, f64NaN]
  · rintro (h | h)
    · simp [fadd, fsub, fmul, fdiv, h, f64NaN]
    · simp [fadd, fsub, fmul, fdiv, h, f64IsNaN_neg, f64NaN]

/-! ### Conversions and comparisons -/

theorem f64Real_le_iff (x y : F64) : f64Real x ≤ f64Real y ↔ f64Value x ≤ f64Value y := by
  rw [f64Real, f64Real, div_le_div_iff_of_pos_right (by positivity), Int.cast_le]

theorem f64Real_lt_iff (x y : F64) : f64Real x < f64Real y ↔ f64Value x < f64Value y := by
  rw [f64Real, f64Real, div_lt_div_iff_of_pos_right (by positivity), Int.cast_lt]

theorem fle_iff (hx : f64IsFinite x = true) (hy : f64IsFinite y = true) : fle x y = true ↔ f64Real x ≤ f64Real y := by
  simp [fle, isNaN_of_finite hx, isNaN_of_finite hy, f64Real_le_iff]

theorem fgt_iff (hx : f64IsFinite x = true) (hy : f64IsFinite y = true) : fgt x y = true ↔ f64Real y < f64Real x := by
  simp [fgt, isNaN_of_finite hx, isNaN_of_finite hy, f64Real_lt_iff]

theorem pow2neg_finite (r : Byte) : f64IsFinite (pow2neg r) = true := by
  rw [finite_iff_mag, pow2neg_mag, f64InfBits]
  omega

theorem f64Real_cvt (h : n ≤ 2 ^ 53) : f64Real (cvt n) = n := by
  obtain ⟨hs, -, hu⟩ := cvt_spec n h
  rw [f64Real_eq, hs, hu, signFactor_false, one_mul, Nat.cast_mul, Nat.cast_pow, Nat.cast_ofNat,
    mul_div_cancel_right₀ _ (by positivity)]

theorem f64Real_pow2neg (r : Byte) : f64Real (pow2neg r) = 1 / 2 ^ r.toNat := by
  have hr := r.isLt
  have hpow : (2 : ℝ) ^ (1074 - r.toNat) * 2 ^ r.toNat = 2 ^ 1074 := by rw [← pow_add, Nat.sub_add_cancel (by omega)]
  rw [f64Real_eq, pow2neg_sign, pow2neg_units, signFactor_false, one_mul, Nat.cast_pow, Nat.cast_ofNat,
    div_eq_div_iff (by positivity) (by positivity), hpow, one_mul]

/-- Settles O30: `cvt` and `pow2neg` by their units, the comparisons by the values in units. -/
theorem conversionsAreExact : Obligations.ConversionsAreExact :=
  ⟨fun _ h => ⟨(cvt_spec _ (by omega)).2.1, f64Real_cvt (by omega)⟩,
    fun r => ⟨pow2neg_finite r, f64Real_pow2neg r⟩,
    fun _ _ hx hy => ⟨fle_iff hx hy, fgt_iff hx hy⟩⟩

end Sys2Proof.Machine
end

section
/-! SUPPORT. `LN` meets its contract (42_estimate R105): the two candidates of L4 are the values next to the real logarithm. A negative
logarithm is handled as the magnitude of its negation, whose enclosure is the negated one. -/

namespace Sys2Proof.Machine

variable {x : F64}

/-- The value 1 is `pow2neg(0)`. -/
theorem f64Real_fone : f64Real fone = 1 := by
  rw [show fone = pow2neg 0#8 by decide, f64Real_pow2neg]
  simp

/-! ### From a narrow enclosure to the neighbours -/

/-- In a narrow enclosure of a value of 2^(-54) or more, both ends are well away from 0 next to the width. -/
theorem narrow_ends {lo hi : ℤ} {d : ℕ} {V : ℝ} (hd : 0 < d) (hlo : (lo : ℝ) ≤ d * V) (hhi : d * V ≤ hi)
    (hwidth : ((hi : ℝ) - lo) * 2 ^ 180 ≤ d) (hV : 1 / 2 ^ 54 ≤ V) :
    lo ≤ hi ∧ (d : ℤ) ≤ lo * 2 ^ 55 ∧ hi * 2 ^ 107 < lo * 2 ^ 107 + d := by
  have hdpos : (0 : ℝ) < d := by exact_mod_cast hd
  have hdV : (d : ℝ) ≤ d * V * 2 ^ 54 := by
    rw [mul_assoc]
    exact le_mul_of_one_le_right hdpos.le (by rwa [← div_le_iff₀ (by positivity)])
  have hle : (lo : ℝ) ≤ hi := hlo.trans hhi
  have hlow : (d : ℝ) ≤ lo * 2 ^ 55 := by linarith
  have hgap : (hi : ℝ) * 2 ^ 107 < lo * 2 ^ 107 + d := by linarith
  exact ⟨by exact_mod_cast hle, by exact_mod_cast hlow, by exact_mod_cast hgap⟩

/-- Scaled to units, the magnitudes next to the ends of a narrow enclosure of V are next to V. -/
theorem brackets_of_narrow {lo hi : ℤ} {d : ℕ} {V : ℝ} (hd : 0 < d) (hlo : (lo : ℝ) ≤ d * V) (hhi : d * V ≤ hi)
    (hwidth : ((hi : ℝ) - lo) * 2 ^ 180 ≤ d) (hV : 1 / 2 ^ 54 ≤ V) :
    0 < lo ∧ 0 < hi ∧ Brackets (V * 2 ^ 1074) (floorUnits (hi.natAbs * 2 ^ 1074) d) ∧
      Brackets (V * 2 ^ 1074) (ceilUnits (lo.natAbs * 2 ^ 1074) d) := by
  obtain ⟨hle, hlow, hgap⟩ := narrow_ends hd hlo hhi hwidth hV
  have hlo0 : 0 < lo := by omega
  have hhi0 : 0 < hi := by omega
  lift lo to ℕ using hlo0.le
  lift hi to ℕ using hhi0.le
  rw [Int.cast_natCast] at hlo hhi
  replace hlow : d ≤ lo * 2 ^ 55 := by exact_mod_cast hlow
  replace hgap : hi * 2 ^ 107 < lo * 2 ^ 107 + d := by exact_mod_cast hgap
  refine ⟨hlo0, hhi0, brackets_of_enclosed hd ?_ ?_ ?_ ?_⟩
  · rw [Nat.cast_mul, Nat.cast_pow, Nat.cast_ofNat]
    calc (lo : ℝ) * 2 ^ 1074 ≤ d * V * 2 ^ 1074 := by gcongr
      _ = V * 2 ^ 1074 * d := by ring
  · rw [Nat.cast_mul, Nat.cast_pow, Nat.cast_ofNat]
    calc V * 2 ^ 1074 * d = d * V * 2 ^ 1074 := by ring
      _ ≤ (hi : ℝ) * 2 ^ 1074 := by gcongr
  · calc 2 ^ (967 + 52) * d ≤ 2 ^ (967 + 52) * (lo * 2 ^ 55) := Nat.mul_le_mul_left _ hlow
      _ = lo * 2 ^ 1074 := by rw [mul_left_comm, ← pow_add]
  · calc hi * 2 ^ 1074 = 2 ^ 967 * (hi * 2 ^ 107) := by rw [mul_left_comm, ← pow_add]
      _ < 2 ^ 967 * (lo * 2 ^ 107 + d) := Nat.mul_lt_mul_of_pos_left hgap (by positivity)
      _ = lo * 2 ^ 1074 + 2 ^ 967 * d := by rw [mul_add, mul_left_comm, ← pow_add]

/-- The pattern has the sign of v, and its magnitude is next to that of v. -/
def Neighbour (v : ℝ) (r : F64) : Prop := ∃ b, r = f64Pack (decide (v < 0)) b ∧ Brackets (|v| * 2 ^ 1074) b

/-- The two candidates of L4 are next to the real logarithm. -/
theorem lnBelow_lnAbove_neighbours (hs : f64Sign x = false) (hu : f64Units x ≠ 0) (h1 : x ≠ fone) :
    Neighbour (Real.log (f64Real x)) (lnBelow x) ∧ Neighbour (Real.log (f64Real x)) (lnAbove x) := by
  obtain ⟨hlo, hhi⟩ := ln_enclosed hs hu
  have hwidth := ln_width hu
  rcases log_away_from_zero hs hu h1 with ⟨-, hlog⟩ | ⟨-, hlog⟩
  · have hpos : 0 < Real.log (f64Real x) := lt_of_lt_of_le (by positivity) hlog
    obtain ⟨hlo0, hhi0, hfloor, hceil⟩ := brackets_of_narrow (lnDenom_pos x) hlo hhi hwidth hlog
    rw [Neighbour, Neighbour, abs_of_pos hpos, decide_eq_false (not_lt.mpr hpos.le)]
    exact ⟨⟨_, if_pos hhi0.le, hfloor⟩, ⟨_, if_pos hlo0.le, hceil⟩⟩
  · have hneg : Real.log (f64Real x) < 0 := lt_of_le_of_lt hlog (by norm_num)
    obtain ⟨hhi0, hlo0, hfloor, hceil⟩ := brackets_of_narrow (lo := -lnHigh x) (hi := -lnLow x)
      (V := -Real.log (f64Real x)) (lnDenom_pos x) (by push_cast; linarith) (by push_cast; linarith)
      (by push_cast; linarith) (by linarith)
    rw [Int.natAbs_neg] at hfloor hceil
    rw [Neighbour, Neighbour, abs_of_neg hneg, decide_eq_true hneg]
    exact ⟨⟨_, if_neg (by omega), hceil⟩, ⟨_, if_neg (by omega), hfloor⟩⟩

/-! ### The clauses of the contract -/

/-- L1 of 42_estimate R105. -/
theorem ln_fone : ln fone = 0#64 := by rfl

/-- On the operands of L4 `LN` is one of the two candidates. -/
theorem ln_eq_neighbour (hf : f64IsFinite x = true) (hs : f64Sign x = false) (hu : f64Units x ≠ 0) (h1 : x ≠ fone) :
    ln x = if Config.lnRoundsUp x then lnAbove x else lnBelow x := by
  have hz : f64IsZero x = false := by rwa [← Bool.not_eq_true, f64IsZero_iff_units]
  simp only [ln, isNaN_of_finite hf, hz, hs, isInf_of_finite hf, Bool.false_eq_true, if_false]
  rw [if_neg (show x ≠ 0x3FF0000000000000#64 from h1)]

theorem sign_units_of_real_pos (h : 0 < f64Real x) : f64Sign x = false ∧ f64Units x ≠ 0 := by
  rw [f64Real_eq] at h
  constructor
  · by_contra hs
    rw [Bool.not_eq_false] at hs
    rw [hs, signFactor_true] at h
    have : (0 : ℝ) ≤ (f64Units x : ℝ) / 2 ^ 1074 := by positivity
    linarith
  · rintro hu
    simp [hu] at h

theorem abs_log_ge (hs : f64Sign x = false) (hu : f64Units x ≠ 0) (h1 : x ≠ fone) :
    1 / 2 ^ 54 ≤ |Real.log (f64Real x)| := by
  rcases log_away_from_zero hs hu h1 with ⟨-, h⟩ | ⟨-, h⟩
  · exact h.trans (le_abs_self _)
  · exact (le_neg.mpr h).trans (neg_le_abs _)

/-- A neighbour of a real number in the normal range is a faithful rounding of it, with its sign. -/
theorem faithful_of_neighbour {v : ℝ} {r : F64} (h : Neighbour v r) (hbig : 1 / 2 ^ 54 ≤ |v|)
    (hmax : |v| * 2 ^ 1074 ≤ magUnits (f64InfBits - 1)) :
    Faithful v r ∧ (0 < v → 0 < f64Real r) ∧ (v < 0 → f64Real r < 0) := by
  have hone : 1 ≤ |v| * 2 ^ 1074 := by
    calc (1 : ℝ) ≤ 1 / 2 ^ 54 * 2 ^ 1074 := by
          rw [one_div_mul_eq_div, one_le_div (by positivity)]
          exact pow_le_pow_right₀ one_le_two (by norm_num)
      _ ≤ |v| * 2 ^ 1074 := by gcongr
  obtain ⟨b, rfl, hb⟩ := h
  obtain ⟨hfaith, hsign⟩ := faithful_of_brackets _ (decide (v < 0)) b (one_pos.trans_le hone) hmax hb hone
  rw [mul_div_cancel_right₀ _ (by positivity)] at hfaith
  rcases lt_or_ge v 0 with hneg | hnonneg
  · simp only [hneg, decide_true, if_true, abs_of_neg hneg, neg_one_mul, neg_neg] at hfaith hsign ⊢
    exact ⟨hfaith, fun h => absurd h hneg.not_gt, fun _ => neg_pos.mp hsign⟩
  · simp only [hnonneg.not_gt, decide_false, Bool.false_eq_true, if_false, abs_of_nonneg hnonneg, one_mul] at hfaith hsign ⊢
    exact ⟨hfaith, fun _ => hsign, False.elim⟩

/-- L4 of 42_estimate R105. -/
theorem ln_faithful (hf : f64IsFinite x = true) (hpos : 0 < f64Real x) (hne : f64Real x ≠ 1) :
    Faithful (Real.log (f64Real x)) (ln x) ∧ (1 < f64Real x → 0 < f64Real (ln x)) ∧ (f64Real x < 1 → f64Real (ln x) < 0) := by
  obtain ⟨hs, hu⟩ := sign_units_of_real_pos hpos
  have h1 : x ≠ fone := fun h => hne (by rw [h, f64Real_fone])
  obtain ⟨hbelow, habove⟩ := lnBelow_lnAbove_neighbours hs hu h1
  have hln : Neighbour (Real.log (f64Real x)) (ln x) := by
    rw [ln_eq_neighbour hf hs hu h1]
    split
    · exact habove
    · exact hbelow
  obtain ⟨hfaith, hpositive, hnegative⟩ := faithful_of_neighbour hln (abs_log_ge hs hu h1) (abs_log_le hf hs hu)
  exact ⟨hfaith, fun h => hpositive (Real.log_pos h), fun h => hnegative (Real.log_neg hpos h)⟩

/-- Settles O31: L1, L2, L3 and L5 by the operand's class, L4 by `ln_faithful`. -/
theorem logarithmMeetsContract : Obligations.LogarithmMeetsContract :=
  ⟨ln_fone, by rfl, by rfl, fun _ => ln_neg, fun _ => ln_faithful, by rfl⟩

end Sys2Proof.Machine
end

section
/-! SUPPORT. The sum and the raw estimate (42_estimate R106, R107, R111): values that are not negative as numbers of units, the rounded
operations on them between bounds that binary64 can express, and from these the exactness and the range of the sum. -/

namespace Sys2Proof.Machine

variable {x y : F64} {u w n d q e q' e' : Nat}

/-! ### Values that are not negative, in units -/

/-- A finite value with a clear sign bit and a magnitude of u units of 2^(-1074). -/
structure HasUnits (x : F64) (u : Nat) : Prop where
  finite : f64IsFinite x = true
  sign : f64Sign x = false
  units : f64Units x = u

theorem HasUnits.value (h : HasUnits x u) : f64Value x = u := by rw [f64Value_nonneg h.sign, h.units]

theorem HasUnits.real (h : HasUnits x u) : f64Real x = u / 2 ^ 1074 := by rw [f64Real, h.value, Int.cast_natCast]

theorem HasUnits.lt (h : HasUnits x u) : u < 2 ^ 2098 := by
  rw [← h.units, f64Units_eq, ← magUnits_inf, magUnits_lt_iff, ← finite_iff_mag]
  exact h.finite

theorem HasUnits.unique (hx : HasUnits x u) (hy : HasUnits y u) : x = y := by
  have hmag : f64Mag x = f64Mag y :=
    magUnits_strictMono.injective (by rw [← f64Units_eq, ← f64Units_eq, hx.units, hy.units])
  rw [f64_eq_pack x, f64_eq_pack y, hx.sign, hy.sign, hmag]

theorem hasUnits_zero : HasUnits 0#64 0 := ⟨by decide, by decide, by decide⟩

theorem hasUnits_pow2neg (r : Byte) : HasUnits (pow2neg r) (2 ^ (1074 - r.toNat)) :=
  ⟨pow2neg_finite r, pow2neg_sign r, pow2neg_units r⟩

theorem hasUnits_cvt (h : n ≤ 2 ^ 53) : HasUnits (cvt n) (n * 2 ^ 1074) :=
  have ⟨hs, hf, hu⟩ := cvt_spec n h
  ⟨hf, hs, hu⟩

theorem hasUnits_fone : HasUnits fone (2 ^ 1074) := hasUnits_pow2neg 0#8

/-! ### Rounding between bounds -/

/-- A magnitude between two that binary64 can express stays between them when it is rounded. -/
theorem hasUnits_round_between (hd : 0 < d) (hlo : q * 2 ^ e * d ≤ n) (hhi : n ≤ q' * 2 ^ e' * d) (hq : q ≤ 2 ^ 53)
    (hq' : q' ≤ 2 ^ 53) (hfin : q' * 2 ^ e' < 2 ^ 2098) :
    ∃ r, HasUnits (f64Pack false (roundUnits n d)) r ∧ q * 2 ^ e ≤ r ∧ r ≤ q' * 2 ^ e' := by
  obtain ⟨b, hb⟩ := magUnits_repr q e hq
  obtain ⟨b', hb'⟩ := magUnits_repr q' e' hq'
  rw [← hb] at hlo ⊢
  rw [← hb'] at hhi hfin ⊢
  rw [← magUnits_inf, magUnits_lt_iff] at hfin
  have hbb : b ≤ b' := magUnits_le_iff.mp (Nat.le_of_mul_le_mul_right (hlo.trans hhi) hd)
  have hle : roundUnits n d ≤ b' := roundUnits_le_of_le hd hhi
  refine ⟨magUnits (roundUnits n d), ⟨?_, f64Sign_pack (roundUnits_lt n d), ?_⟩, ?_, magUnits_le_iff.mpr hle⟩
  · rw [finite_iff_mag, f64Mag_pack (roundUnits_lt n d)]
    omega
  · rw [f64Units_eq, f64Mag_pack (roundUnits_lt n d)]
  · exact magUnits_le_iff.mpr (le_roundUnits hd hlo (by omega))

theorem fadd_between (hx : HasUnits x u) (hy : HasUnits y w) (hw : 0 < w) (hlo : q * 2 ^ e ≤ u + w)
    (hhi : u + w ≤ q' * 2 ^ e') (hq : q ≤ 2 ^ 53) (hq' : q' ≤ 2 ^ 53) (hfin : q' * 2 ^ e' < 2 ^ 2098) :
    ∃ r, HasUnits (fadd x y) r ∧ q * 2 ^ e ≤ r ∧ r ≤ q' * 2 ^ e' := by
  rw [fadd_pos hx.finite hy.finite hx.sign hy.sign (by rw [hy.units]; omega), hx.units, hy.units]
  exact hasUnits_round_between one_pos (by rwa [mul_one]) (by rwa [mul_one]) hq hq' hfin

theorem fdiv_between (hx : HasUnits x u) (hy : HasUnits y w) (hw : 0 < w) (hlo : q * 2 ^ e * w ≤ u * 2 ^ 1074)
    (hhi : u * 2 ^ 1074 ≤ q' * 2 ^ e' * w) (hq : q ≤ 2 ^ 53) (hq' : q' ≤ 2 ^ 53) (hfin : q' * 2 ^ e' < 2 ^ 2098) :
    ∃ r, HasUnits (fdiv x y) r ∧ q * 2 ^ e ≤ r ∧ r ≤ q' * 2 ^ e' := by
  rw [fdiv_pos hx.finite hy.finite hx.sign hy.sign (by rw [hy.units]; omega), hx.units, hy.units]
  exact hasUnits_round_between hw hlo hhi hq hq' hfin

theorem fmul_between (hx : HasUnits x u) (hy : HasUnits y w) (hlo : q * 2 ^ e * 2 ^ 1074 ≤ u * w)
    (hhi : u * w ≤ q' * 2 ^ e' * 2 ^ 1074) (hq : q ≤ 2 ^ 53) (hq' : q' ≤ 2 ^ 53) (hfin : q' * 2 ^ e' < 2 ^ 2098) :
    ∃ r, HasUnits (fmul x y) r ∧ q * 2 ^ e ≤ r ∧ r ≤ q' * 2 ^ e' := by
  rw [fmul_fin hx.finite hy.finite, f64SignXor, hx.sign, hy.sign, hx.units, hy.units]
  exact hasUnits_round_between (by positivity) hlo hhi hq hq' hfin

/-- q last places of 2^e units, for an exponent well below the largest. -/
theorem mul_two_pow_lt_inf (hq : q ≤ 2 ^ 53) (he : e ≤ 1074) : q * 2 ^ e < 2 ^ 2098 :=
  calc q * 2 ^ e ≤ 2 ^ 53 * 2 ^ 1074 := Nat.mul_le_mul hq (Nat.pow_le_pow_right two_pos he)
    _ = 2 ^ 1127 := by rw [← pow_add]
    _ < 2 ^ 2098 := Nat.pow_lt_pow_right one_lt_two (by norm_num)

/-! ### The sum -/

/-- The turns of the summing loop over a list of elements. -/
def sumList (vs : List Byte) (z : F64) : F64 := vs.foldl (fun acc v => fadd acc (pow2neg v)) z

@[simp] theorem sumList_nil (z : F64) : sumList [] z = z := rfl

@[simp] theorem sumList_cons (v : Byte) (vs : List Byte) (z : F64) :
    sumList (v :: vs) z = sumList vs (fadd z (pow2neg v)) := rfl

theorem harmonicSum_eq_sumList (A : Memory) (m : Nat) : harmonicSum A m = sumList (elementsOf A m) 0#64 := by
  rw [harmonicSum, sumFrom_eq, elementsOf_eq, sumList]

theorem length_elementsOf (A : Memory) (m : Nat) : (elementsOf A m).length = m := by simp [elementsOf]

/-- With every element at most K each partial sum is a whole number, at most 2^53, of units of 2^(-K), so no turn rounds. -/
theorem hasUnits_sumList {K : Nat} (hK : K ≤ 1074) {vs : List Byte} (hvs : ∀ v ∈ vs, v.toNat ≤ K) {z : F64} {k : Nat}
    (hz : HasUnits z (k * 2 ^ (1074 - K))) (hlen : k + vs.length * 2 ^ K ≤ 2 ^ 53) :
    HasUnits (sumList vs z) (k * 2 ^ (1074 - K) + (vs.map (fun v => 2 ^ (1074 - v.toNat))).sum) := by
  induction vs generalizing z k with
  | nil => simpa using hz
  | cons v vs ih =>
    obtain ⟨hv, hvs⟩ := List.forall_mem_cons.mp hvs
    have hterm : 2 ^ (1074 - v.toNat) = 2 ^ (K - v.toNat) * 2 ^ (1074 - K) := by
      rw [← pow_add]
      congr 1
      omega
    have hpow : 2 ^ (K - v.toNat) ≤ 2 ^ K := Nat.pow_le_pow_right two_pos (Nat.sub_le _ _)
    have hsum : k * 2 ^ (1074 - K) + 2 ^ (1074 - v.toNat) = (k + 2 ^ (K - v.toNat)) * 2 ^ (1074 - K) := by
      rw [hterm, add_mul]
    rw [List.length_cons, add_mul, one_mul] at hlen
    have hk : k + 2 ^ (K - v.toNat) ≤ 2 ^ 53 := by omega
    obtain ⟨r, hr, hlo, hhi⟩ := fadd_between hz (hasUnits_pow2neg v) (by positivity) hsum.ge hsum.le hk hk
      (mul_two_pow_lt_inf hk (Nat.sub_le _ _))
    rw [le_antisymm hhi hlo] at hr
    rw [sumList_cons, List.map_cons, List.sum_cons, ← add_assoc, hsum]
    exact ih hvs hr (by omega)

/-- The sum of a whole array of small elements, from +0.0. -/
theorem hasUnits_harmonicSum {A : Memory} {p K : Nat} (hpK : p + K ≤ 53) (hA : ∀ i, i < 2 ^ p → (A.read i).toNat ≤ K) :
    HasUnits (harmonicSum A (2 ^ p)) ((elementsOf A (2 ^ p)).map (fun v => 2 ^ (1074 - v.toNat))).sum := by
  have hvs : ∀ v ∈ elementsOf A (2 ^ p), v.toNat ≤ K := by simpa [elementsOf] using hA
  have hlen : 0 + (elementsOf A (2 ^ p)).length * 2 ^ K ≤ 2 ^ 53 := by
    rw [length_elementsOf, zero_add, ← pow_add]
    exact Nat.pow_le_pow_right two_pos hpK
  have h := hasUnits_sumList (by omega) hvs (z := 0#64) (k := 0) (by rw [zero_mul]; exact hasUnits_zero) hlen
  rwa [zero_mul, zero_add, ← harmonicSum_eq_sumList] at h

/-- Settles O25: the sum of small elements in units (`hasUnits_harmonicSum`). -/
theorem harmonicSumIsExact : Obligations.HarmonicSumIsExact := fun _ _ _ _ hpK hA =>
  ⟨(hasUnits_harmonicSum hpK hA).finite, (hasUnits_harmonicSum hpK hA).value⟩

/-- A sum of j elements is between j times the smallest and j times the largest power that an element stands for; both bounds are values
of binary64, so rounding keeps the sum between them. -/
theorem sumList_between {vs : List Byte} {z : F64} {j : Nat} (hz : HasUnits z u) (hlo : j * 2 ^ 819 ≤ u) (hhi : u ≤ j * 2 ^ 1074)
    (hlen : j + vs.length ≤ 2 ^ 53) :
    ∃ r, HasUnits (sumList vs z) r ∧ (j + vs.length) * 2 ^ 819 ≤ r ∧ r ≤ (j + vs.length) * 2 ^ 1074 := by
  induction vs generalizing z j u with
  | nil => exact ⟨u, hz, hlo, hhi⟩
  | cons v vs ih =>
    have hv := v.isLt
    have hmin : 2 ^ 819 ≤ 2 ^ (1074 - v.toNat) := Nat.pow_le_pow_right two_pos (by omega)
    have hmax : 2 ^ (1074 - v.toNat) ≤ 2 ^ 1074 := Nat.pow_le_pow_right two_pos (Nat.sub_le _ _)
    rw [List.length_cons] at hlen ⊢
    have hj : j + 1 ≤ 2 ^ 53 := by omega
    obtain ⟨r, hr, hrlo, hrhi⟩ := fadd_between (q := j + 1) (e := 819) (q' := j + 1) (e' := 1074) hz (hasUnits_pow2neg v)
      (by positivity) (by rw [add_mul, one_mul]; exact add_le_add hlo hmin) (by rw [add_mul, one_mul]; exact add_le_add hhi hmax)
      hj hj (mul_two_pow_lt_inf hj le_rfl)
    rw [add_comm vs.length, ← add_assoc]
    exact ih hr hrlo hrhi (by omega)

/-- The range of the sum of an array (42_estimate R106). -/
theorem harmonicSum_between (A : Memory) {p : Nat} (h4 : 4 ≤ p) (h30 : p ≤ 30) :
    ∃ r, HasUnits (harmonicSum A (2 ^ p)) r ∧ 2 ^ 823 ≤ r ∧ r ≤ 2 ^ 1104 := by
  have hlen : 0 + (elementsOf A (2 ^ p)).length ≤ 2 ^ 53 := by
    rw [length_elementsOf, zero_add]
    exact Nat.pow_le_pow_right two_pos (by omega)
  obtain ⟨r, hr, hlo, hhi⟩ := sumList_between (j := 0) hasUnits_zero (by rw [zero_mul]) (by rw [zero_mul]) hlen
  rw [← harmonicSum_eq_sumList] at hr
  rw [length_elementsOf, zero_add, ← pow_add] at hlo hhi
  exact ⟨r, hr, le_trans (Nat.pow_le_pow_right two_pos (by omega)) hlo,
    le_trans hhi (Nat.pow_le_pow_right two_pos (by omega))⟩

/-! ### The raw estimate -/

theorem hasUnits_alpha (h : alphaOk x = true) : ∃ u, HasUnits x u ∧ 2 ^ 52 ≤ u ∧ u ≤ 2 ^ 1134 :=
  have ⟨hf, hs, hlo, hhi⟩ := alphaOk_facts h
  ⟨f64Units x, ⟨hf, hs, rfl⟩, hlo, hhi⟩

/-- The raw estimate is positive and finite (42_estimate R107). -/
theorem hasUnits_rawEstimate (A : Memory) {p : Nat} (h4 : 4 ≤ p) (h30 : p ≤ 30) {alphaMM : F64} (ha : alphaOk alphaMM = true) :
    ∃ r, HasUnits (rawEstimate alphaMM A (2 ^ p)) r ∧ 0 < r := by
  obtain ⟨w, hw, hwlo, hwhi⟩ := harmonicSum_between A h4 h30
  obtain ⟨u, hu, hulo, huhi⟩ := hasUnits_alpha ha
  have hlo : 1 * 2 ^ 0 * w ≤ u * 2 ^ 1074 :=
    calc 1 * 2 ^ 0 * w ≤ 2 ^ 1104 := by rwa [pow_zero, mul_one, one_mul]
      _ ≤ 2 ^ 52 * 2 ^ 1074 := by
        rw [← pow_add]
        exact Nat.pow_le_pow_right two_pos (by norm_num)
      _ ≤ u * 2 ^ 1074 := Nat.mul_le_mul_right _ hulo
  have hhi : u * 2 ^ 1074 ≤ 1 * 2 ^ 1385 * w :=
    calc u * 2 ^ 1074 ≤ 2 ^ 1134 * 2 ^ 1074 := Nat.mul_le_mul_right _ huhi
      _ = 1 * 2 ^ 1385 * 2 ^ 823 := by rw [one_mul, ← pow_add, ← pow_add]
      _ ≤ 1 * 2 ^ 1385 * w := Nat.mul_le_mul_left _ hwlo
  obtain ⟨r, hr, hpos, -⟩ := fdiv_between hu hw (lt_of_lt_of_le (by positivity) hwlo) hlo hhi (by norm_num) (by norm_num)
    (by rw [one_mul]; exact Nat.pow_lt_pow_right one_lt_two (by norm_num))
  exact ⟨r, hr, by rwa [pow_zero, mul_one] at hpos⟩

/-- Settles O26: `harmonicSum_between` and `hasUnits_rawEstimate`. -/
theorem sumAndRawStayFinite : Obligations.SumAndRawStayFinite := by
  intro A p alphaMM h4 h30 ha
  obtain ⟨w, hw, hlo, hhi⟩ := harmonicSum_between A h4 h30
  obtain ⟨r, hr, hpos⟩ := hasUnits_rawEstimate A h4 h30 ha
  refine ⟨hw.finite, ?_, ?_, hr.finite, ?_⟩
  · rw [hw.value]
    exact_mod_cast hlo
  · rw [hw.value]
    exact_mod_cast hhi
  · rw [hr.value]
    exact_mod_cast hpos

end Sys2Proof.Machine
end

section
/-! SUPPORT. The estimate (42_estimate R100, R108 to R112): what the command answers, and the two corrections on a raw estimate of known
size. -/

namespace Sys2Proof.Machine

variable {x y : F64} {u r m : Nat} {s : State} {a : Nat} {sel : ArraySel}

/-! ### What the command answers -/

theorem execEstimate_live {z : Slot} (hz : s.live a = some z) :
    execEstimate a sel s = .next (s.setRsp .ok (estimateOf z.alphaMM (z.array sel) z.m) 0#64) := checkSlot_live hz

theorem execEstimate_dead (hz : s.live a = none) : execEstimate a sel s = .next (s.setRsp .noInstance 0#64 0#64) :=
  checkSlot_dead hz

theorem zerosFrom_eq_filter (A : Memory) (m : Nat) :
    zerosFrom A m 0 = ((elementsOf A m).filter (fun v => v == 0#8)).length := by rw [zerosFrom_eq, elementsOf_eq]

/-- Settles O23: the loops of the engine are the folds of the statement. -/
theorem estimateFollowsFormula : Obligations.EstimateFollowsFormula := by
  intro s a sel
  refine ⟨fun z A sum raw zeros est hz hA hsum hraw hzeros hest => ?_, execEstimate_dead⟩
  have harray : z.array sel = A := by
    rw [hA]
    cases sel <;> rfl
  have hestimate : estimateOf z.alphaMM (z.array sel) z.m = est := by
    rw [← sumList, ← harmonicSum_eq_sumList] at hsum
    rw [harray, hest, hzeros, ← zerosFrom_eq_filter, hraw, hsum]
    rfl
  calc exec (.estimate a sel) s
      = .next (s.setRsp .ok (estimateOf z.alphaMM (z.array sel) z.m) 0#64) := execEstimate_live hz
    _ = _ := by rw [hestimate]; rfl

/-! ### The logarithm on values in units -/

theorem eq_fone_of_units (h : HasUnits x (2 ^ 1074)) : x = fone := h.unique hasUnits_fone

theorem f64Sign_of_real_neg (h : f64Real x < 0) : f64Sign x = true := by
  by_contra hs
  rw [Bool.not_eq_true] at hs
  rw [f64Real_eq, hs, signFactor_false, one_mul] at h
  exact absurd h (not_lt.mpr (by positivity))

theorem f64Sign_ln_of_one_le (h : HasUnits x u) (hu : 2 ^ 1074 ≤ u) : f64Sign (ln x) = false := by
  rcases hu.eq_or_lt with rfl | hlt
  · rw [eq_fone_of_units h, ln_fone]
    decide
  · have hone : 1 < f64Real x := by
      rw [h.real, one_lt_div (by positivity)]
      exact_mod_cast hlt
    obtain ⟨-, hpos, -⟩ := ln_faithful h.finite (by linarith) hone.ne'
    exact (sign_units_of_real_pos (hpos hone)).1

theorem f64Sign_ln_of_lt_one (h : HasUnits x u) (hpos : 0 < u) (hu : u < 2 ^ 1074) : f64Sign (ln x) = true := by
  have hone : f64Real x < 1 := by
    rw [h.real, div_lt_one (by positivity)]
    exact_mod_cast hu
  have hzero : 0 < f64Real x := by
    rw [h.real]
    positivity
  obtain ⟨-, -, hneg⟩ := ln_faithful h.finite hzero hone.ne
  exact f64Sign_of_real_neg (hneg hone)

/-- A product of equal signs is not negative. -/
theorem fmul_nan_or_nonneg (h : f64Sign x = f64Sign y) : f64IsNaN (fmul x y) = true ∨ f64Sign (fmul x y) = false := by
  cases hn : f64IsNaN (fmul x y)
  · exact .inr (by rw [fmul_sign hn, h, Bool.xor_self])
  · exact .inl rfl

/-! ### The small-range correction (42_estimate R108) -/

theorem fdiv_self (h : HasUnits x u) (hu : 0 < u) : fdiv x x = fone := by
  obtain ⟨r, hr, hlo, hhi⟩ := fdiv_between (q := 1) (e := 1074) (q' := 1) (e' := 1074) h h hu
    (by rw [one_mul, mul_comm]) (by rw [one_mul, mul_comm]) (by norm_num) (by norm_num) (mul_two_pow_lt_inf (by norm_num) le_rfl)
  rw [le_antisymm hhi hlo, Nat.one_mul] at hr
  exact eq_fone_of_units hr

theorem one_le_fdiv_cvt {zeros : Nat} (hz : 0 < zeros) (hzm : zeros ≤ m) (hm : m ≤ 2 ^ 53) :
    ∃ r, HasUnits (fdiv (cvt m) (cvt zeros)) r ∧ 2 ^ 1074 ≤ r := by
  have hlo : 1 * 2 ^ 1074 * (zeros * 2 ^ 1074) ≤ m * 2 ^ 1074 * 2 ^ 1074 := by
    rw [one_mul, mul_comm]
    gcongr
  have hhi : m * 2 ^ 1074 * 2 ^ 1074 ≤ m * 2 ^ 1074 * (zeros * 2 ^ 1074) :=
    Nat.mul_le_mul_left _ (Nat.le_mul_of_pos_left _ hz)
  obtain ⟨r, hr, hone, -⟩ := fdiv_between (hasUnits_cvt hm) (hasUnits_cvt (hzm.trans hm)) (by positivity) hlo hhi
    (by norm_num) hm (mul_two_pow_lt_inf hm le_rfl)
  exact ⟨r, hr, by rwa [Nat.one_mul] at hone⟩

theorem smallRange_nan_or_nonneg {raw : F64} {zeros : Nat} (hraw : f64Sign raw = false) (hzm : zeros ≤ m) (hm : m ≤ 2 ^ 53) :
    f64IsNaN (smallRange raw zeros m) = true ∨ f64Sign (smallRange raw zeros m) = false := by
  rw [smallRange]
  split
  · rename_i hz
    obtain ⟨r, hr, hone⟩ := one_le_fdiv_cvt hz hzm hm
    exact fmul_nan_or_nonneg (by rw [(hasUnits_cvt hm).sign, f64Sign_ln_of_one_le hr hone])
  · exact .inr hraw

/-! ### The large-range correction (42_estimate R109) -/

theorem hasUnits_pow2_32 : HasUnits pow2_32 (2 ^ 32 * 2 ^ 1074) := by
  rw [show pow2_32 = cvt (2 ^ 32) by decide +kernel]
  exact hasUnits_cvt (by norm_num)

/-- `raw / 2^32` is at least every value of binary64 that is at most the exact quotient. -/
theorem le_fdiv_pow2_32 {raw : F64} {q e : Nat} (h : HasUnits raw u) (hlo : q * 2 ^ e * 2 ^ 32 ≤ u) (hq : q ≤ 2 ^ 53) :
    ∃ r, HasUnits (fdiv raw pow2_32) r ∧ q * 2 ^ e ≤ r := by
  have hhi : u ≤ 1 * 2 ^ 2066 * 2 ^ 32 := by
    rw [one_mul, ← pow_add]
    exact h.lt.le
  obtain ⟨r, hr, hle, -⟩ := fdiv_between h hasUnits_pow2_32 (by positivity) (by rw [← mul_assoc]; exact Nat.mul_le_mul_right _ hlo)
    (by rw [← mul_assoc]; exact Nat.mul_le_mul_right _ hhi) hq (by norm_num)
    (by rw [one_mul]; exact Nat.pow_lt_pow_right one_lt_two (by norm_num))
  exact ⟨r, hr, hle⟩

theorem fsub_of_gt (hx : HasUnits x u) (hy : HasUnits y r) (h : r < u) : fsub x y = f64Pack false (roundUnits (u - r) 1) := by
  rw [fsub, fadd_fin hx.finite (by rw [f64IsFinite_neg]; exact hy.finite), f64Value_f64Neg, hx.value, hy.value,
    if_neg (by omega), decide_eq_false (by omega), show ((u : ℤ) + -(r : ℤ)).natAbs = u - r by omega]

theorem fsub_of_lt (hx : HasUnits x u) (hy : HasUnits y r) (h : u < r) : fsub x y = f64Pack true (roundUnits (r - u) 1) := by
  rw [fsub, fadd_fin hx.finite (by rw [f64IsFinite_neg]; exact hy.finite), f64Value_f64Neg, hx.value, hy.value,
    if_neg (by omega), decide_eq_true (by omega), show ((u : ℤ) + -(r : ℤ)).natAbs = r - u by omega]

/-- From 2^(-5) on, what is taken off 1 is not lost in the rounding. -/
theorem fsub_fone_between (h : HasUnits x u) (hu : u < 2 ^ 1074) (hbig : 2 ^ 1069 ≤ u) :
    ∃ r, HasUnits (fsub fone x) r ∧ 0 < r ∧ r < 2 ^ 1074 := by
  have hpow : 2 ^ 1074 = 31 * 2 ^ 1069 + 2 ^ 1069 := by rw [← Nat.succ_mul, show Nat.succ 31 = 2 ^ 5 from rfl, ← pow_add]
  have hpos : 0 < 2 ^ 1069 := by positivity
  obtain ⟨r, hr, hlo, hhi⟩ := hasUnits_round_between (n := 2 ^ 1074 - u) (q := 1) (e := 0) (q' := 31) (e' := 1069) one_pos
    (by omega) (by omega) (by norm_num) (by norm_num) (mul_two_pow_lt_inf (by norm_num) (by norm_num))
  rw [← fsub_of_gt hasUnits_fone h hu] at hr
  exact ⟨r, hr, by omega, by omega⟩

theorem ln_fsub_fone_of_gt (h : HasUnits x u) (hu : 2 ^ 1074 < u) : ln (fsub fone x) = f64NaN := by
  rw [fsub_of_lt hasUnits_fone h hu]
  have hpos : 1 ≤ roundUnits (u - 2 ^ 1074) 1 :=
    le_roundUnits one_pos (by rw [show magUnits 1 = 1 by decide]; omega) (by decide)
  have hlt := roundUnits_lt (u - 2 ^ 1074) 1
  apply ln_neg
  · rw [f64IsNaN_eq, f64Mag_pack hlt, decide_eq_false (not_lt.mpr (roundUnits_le _ _))]
  · rw [f64Value_neg (f64Sign_pack hlt), f64Units_eq, f64Mag_pack hlt]
    have := magUnits_lt_iff.mpr hpos
    omega

theorem ln_fsub_fone_fone : ln (fsub fone fone) = f64Inf true := by
  rw [show fsub fone fone = 0#64 by decide +kernel]
  rfl

/-- The first value above 2^32 is 2^(-20) above it. -/
theorem units_above_two_pow_32 (h : HasUnits x u) (hu : 2 ^ 1106 < u) : (2 ^ 52 + 1) * 2 ^ 1054 ≤ u := by
  rw [← h.units, f64Units_eq] at hu ⊢
  rw [← magUnits_pow2 1054, magUnits_lt_iff] at hu
  rw [← magUnits_place (.inr (by norm_num)) (by norm_num), magUnits_le_iff]
  omega

theorem largeRange_above_two_pow_32 (h : HasUnits x u) (hu : 2 ^ 1106 < u) : largeRange x = f64NaN := by
  have hpow : 2 ^ 1022 * 2 ^ 32 = 2 ^ 1054 := by rw [← pow_add]
  obtain ⟨r, hr, hle⟩ := le_fdiv_pow2_32 (q := 2 ^ 52 + 1) (e := 1022) h
    (by rw [mul_assoc, hpow]; exact units_above_two_pow_32 h hu) (by norm_num)
  have hone : 2 ^ 1074 < r :=
    calc 2 ^ 1074 = 2 ^ 52 * 2 ^ 1022 := by rw [← pow_add]
      _ < (2 ^ 52 + 1) * 2 ^ 1022 := Nat.mul_lt_mul_of_pos_right (Nat.lt_succ_self _) (by positivity)
      _ ≤ r := hle
  rw [largeRange, ln_fsub_fone_of_gt hr hone, fmul_nan]

/-- Settles O28: at 2^32 the logarithm is that of 0, above it that of a negative value. -/
theorem largeRangeBeyondTwoPow32 : Obligations.LargeRangeBeyondTwoPow32 := by
  refine ⟨?_, fun raw hf hraw => ?_⟩
  · calc largeRange pow2_32 = fmul neg2_32 (ln (fsub fone fone)) := by
          rw [largeRange, fdiv_self hasUnits_pow2_32 (by positivity)]
      _ = 0x7FF0000000000000#64 := by
          rw [ln_fsub_fone_fone]
          decide
  · obtain ⟨hs, -⟩ := sign_units_of_real_pos ((by positivity : (0 : ℝ) < 2 ^ 32).trans hraw)
    have h : HasUnits raw (f64Units raw) := ⟨hf, hs, rfl⟩
    rw [h.real, lt_div_iff₀ (by positivity), ← pow_add] at hraw
    exact largeRange_above_two_pow_32 h (by exact_mod_cast hraw)

theorem largeRange_nan_or_nonneg (h : HasUnits x u) (hbig : 2 ^ 1101 ≤ u) :
    f64IsNaN (largeRange x) = true ∨ f64Sign (largeRange x) = false := by
  obtain ⟨r, hr, hle⟩ := le_fdiv_pow2_32 (q := 1) (e := 1069) h (by rwa [one_mul, ← pow_add]) (by norm_num)
  rw [Nat.one_mul] at hle
  have hneg : f64Sign neg2_32 = true := by decide
  rcases lt_trichotomy r (2 ^ 1074) with hlt | heq | hgt
  · obtain ⟨t, ht, hpos, hone⟩ := fsub_fone_between hr hlt hle
    exact fmul_nan_or_nonneg (by rw [hneg, f64Sign_ln_of_lt_one ht hpos hone])
  · rw [heq] at hr
    rw [largeRange, eq_fone_of_units hr, ln_fsub_fone_fone]
    exact .inr (by decide)
  · rw [largeRange, ln_fsub_fone_of_gt hr hgt, fmul_nan]
    exact .inl (by decide)

/-! ### The sign of the estimate -/

theorem units_above_largeT (h : HasUnits x u) (hgt : fgt x largeT = true) : 2 ^ 1101 ≤ u := by
  have hT : HasUnits largeT (f64Units largeT) := ⟨by decide, by decide, rfl⟩
  have hlow : 2 ^ 1101 ≤ f64Units largeT := by decide +kernel
  rw [fgt_iff h.finite hT.finite, f64Real_lt_iff, h.value, hT.value, Int.ofNat_lt] at hgt
  exact hlow.trans hgt.le

/-- Settles O27: each of the three ranges gives a NaN or a clear sign bit. -/
theorem estimateIsNeverNegative : Obligations.EstimateIsNeverNegative := by
  intro A p alphaMM h4 h30 ha
  obtain ⟨u, hraw, -⟩ := hasUnits_rawEstimate A h4 h30 ha
  have hm : 2 ^ p ≤ 2 ^ 53 := Nat.pow_le_pow_right two_pos (by omega)
  simp only [estimateOf]
  split
  · exact smallRange_nan_or_nonneg hraw.sign (zerosFrom_le A _ 0) hm
  · split
    · rename_i hgt
      exact largeRange_nan_or_nonneg hraw (units_above_largeT hraw hgt)
    · exact .inr hraw.sign

/-! ### The empty array (42_estimate R108 (a)) -/

theorem elementsOf_of_zero {A : Memory} (hA : ∀ i, i < m → A.read i = 0#8) : elementsOf A m = List.replicate m 0#8 := by
  rw [List.eq_replicate_iff]
  exact ⟨length_elementsOf A m, by simpa [elementsOf] using hA⟩

/-- The default `ALPHAMM(p)` is at most the square of the register count. -/
theorem defaultAlpha_le {p : Nat} (h4 : 4 ≤ p) (h30 : p ≤ 30) :
    ∃ u, HasUnits (alphaOf defaultAlphaTable p) u ∧ u ≤ 2 ^ p * 2 ^ p * 2 ^ 1074 := by
  have htable : ∀ p, p ≤ 30 → 4 ≤ p → alphaOk (alphaOf defaultAlphaTable p) = true ∧
      f64Mag (alphaOf defaultAlphaTable p) ≤ (1022 + 2 * p + 1) * 2 ^ 52 := by decide
  obtain ⟨hok, hmag⟩ := htable p h30 h4
  obtain ⟨u, hu, -, -⟩ := hasUnits_alpha hok
  refine ⟨u, hu, ?_⟩
  rw [← magUnits_le_iff, ← f64Units_eq, hu.units, magUnits_pow2] at hmag
  rw [← pow_add, ← pow_add]
  exact hmag.trans_eq (by congr 1; omega)

theorem fle_of_units {w : Nat} (hx : HasUnits x u) (hy : HasUnits y w) (h : u ≤ w) : fle x y = true := by
  rw [fle_iff hx.finite hy.finite, f64Real_le_iff, hx.value, hy.value]
  exact_mod_cast h

/-- The small-range threshold is at least the register count. -/
theorem cvt_le_threshold (hm : m ≤ 2 ^ 51) : ∃ r, HasUnits (fmul twoAndHalf (cvt m)) r ∧ m * 2 ^ 1074 ≤ r := by
  have hhalf : HasUnits twoAndHalf (f64Units twoAndHalf) := ⟨by decide, by decide, rfl⟩
  have hlow : 2 ^ 1074 ≤ f64Units twoAndHalf := by decide +kernel
  have hhigh : f64Units twoAndHalf ≤ 4 * 2 ^ 1074 := by decide +kernel
  have hq' : 4 * m ≤ 2 ^ 53 := by omega
  have hlo : m * 2 ^ 1074 * 2 ^ 1074 ≤ f64Units twoAndHalf * (m * 2 ^ 1074) := by
    rw [mul_comm]
    gcongr
  have hhi : f64Units twoAndHalf * (m * 2 ^ 1074) ≤ 4 * m * 2 ^ 1074 * 2 ^ 1074 :=
    calc f64Units twoAndHalf * (m * 2 ^ 1074) ≤ 4 * 2 ^ 1074 * (m * 2 ^ 1074) := Nat.mul_le_mul_right _ hhigh
      _ = 4 * m * 2 ^ 1074 * 2 ^ 1074 := by ring
  obtain ⟨r, hr, hle, -⟩ := fmul_between hhalf (hasUnits_cvt (by omega)) hlo hhi (by omega) hq' (mul_two_pow_lt_inf hq' le_rfl)
  exact ⟨r, hr, hle⟩

theorem rawEstimate_of_zero_le {A : Memory} {p : Nat} (h4 : 4 ≤ p) (h30 : p ≤ 30) (hA : ∀ i, i < 2 ^ p → A.read i = 0#8) :
    ∃ r, HasUnits (rawEstimate (alphaOf defaultAlphaTable p) A (2 ^ p)) r ∧ r ≤ 2 ^ p * 2 ^ 1074 := by
  obtain ⟨u, hu, hsq⟩ := defaultAlpha_le h4 h30
  have hsum : HasUnits (harmonicSum A (2 ^ p)) (2 ^ p * 2 ^ 1074) := by
    have h := hasUnits_harmonicSum (A := A) (p := p) (K := 0) (by omega) fun i hi => by rw [hA i hi]; exact le_rfl
    rwa [elementsOf_of_zero hA, List.map_replicate, List.sum_replicate, smul_eq_mul] at h
  have hm : 2 ^ p ≤ 2 ^ 53 := Nat.pow_le_pow_right two_pos (by omega)
  have hhi : u * 2 ^ 1074 ≤ 2 ^ p * 2 ^ 1074 * (2 ^ p * 2 ^ 1074) :=
    calc u * 2 ^ 1074 ≤ 2 ^ p * 2 ^ p * 2 ^ 1074 * 2 ^ 1074 := Nat.mul_le_mul_right _ hsq
      _ = 2 ^ p * 2 ^ 1074 * (2 ^ p * 2 ^ 1074) := by ring
  obtain ⟨r, hr, -, hle⟩ := fdiv_between (q := 0) (e := 0) hu hsum (by positivity) (by rw [zero_mul, zero_mul]; exact Nat.zero_le _)
    hhi (by norm_num) hm (mul_two_pow_lt_inf hm le_rfl)
  exact ⟨r, hr, hle⟩

theorem fmul_zero_right (h : HasUnits x u) : fmul x 0#64 = 0#64 := by
  rw [fmul_fin h.finite hasUnits_zero.finite, hasUnits_zero.units, mul_zero, roundUnits_zero _ (by positivity), f64SignXor,
    h.sign, hasUnits_zero.sign]
  rfl

/-- Linear counting with all m registers 0 is `m * ln 1`. -/
theorem smallRange_all_zero {raw : F64} (h0 : 0 < m) (hm : m ≤ 2 ^ 53) : smallRange raw m m = 0#64 := by
  rw [smallRange, if_pos h0, fdiv_self (hasUnits_cvt hm) (by positivity), ln_fone, fmul_zero_right (hasUnits_cvt hm)]

theorem estimateOf_of_zero {A : Memory} {p : Nat} (h4 : 4 ≤ p) (h30 : p ≤ 30) (hA : ∀ i, i < 2 ^ p → A.read i = 0#8) :
    estimateOf (alphaOf defaultAlphaTable p) A (2 ^ p) = 0#64 := by
  have hm : 2 ^ p ≤ 2 ^ 51 := Nat.pow_le_pow_right two_pos (by omega)
  obtain ⟨r, hr, hrle⟩ := rawEstimate_of_zero_le h4 h30 hA
  obtain ⟨t, ht, htle⟩ := cvt_le_threshold hm
  have hzeros : zerosFrom A (2 ^ p) 0 = 2 ^ p := by
    rw [zerosFrom_eq_filter, elementsOf_of_zero hA]
    simp
  simp only [estimateOf]
  rw [if_pos (fle_of_units hr ht (hrle.trans htle)), hzeros, smallRange_all_zero (by positivity) (by omega)]

/-- Settles O24: raw is at most m, and linear counting gives 0. -/
theorem emptyArrayEstimatesZero : Obligations.EmptyArrayEstimatesZero := by
  intro s a sel z hz h4 h30 halpha hzero
  have hA : ∀ i, i < 2 ^ z.prec → (z.array sel).read i = 0#8 := by cases sel <;> exact hzero
  calc exec (.estimate a sel) s
      = .next (s.setRsp .ok (estimateOf z.alphaMM (z.array sel) z.m) 0#64) := execEstimate_live hz
    _ = .next (s.setRsp .ok 0#64 0#64) := by rw [halpha, Slot.m, estimateOf_of_zero h4 h30 hA]

end Sys2Proof.Machine
end

section
/-! SUPPORT. PROTECT (43_protect): where the two smallest values of an array stand, and the protected copy element by element. -/

namespace Sys2Proof.Machine

variable {s t : State} {a m p1 p2 threshold : Nat} {x y : Slot} {A : Memory}

/-! ### The scan (43_protect R124) -/

/-- Among the first m elements, p1 is the least index of the minimum, p2 the least index of the minimum of the rest. -/
structure TwoSmallest (A : Memory) (m p1 p2 : Nat) : Prop where
  lt_fst : p1 < m
  lt_snd : p2 < m
  ne : p1 ≠ p2
  fst_le : ∀ i, i < m → (A.read p1).toNat ≤ (A.read i).toNat
  fst_lt : ∀ i, i < p1 → (A.read p1).toNat < (A.read i).toNat
  snd_le : ∀ i, i < m → i ≠ p1 → (A.read p2).toNat ≤ (A.read i).toNat
  snd_lt : ∀ i, i < p2 → i ≠ p1 → (A.read p2).toNat < (A.read i).toNat

/-- The temporaries when the two smallest values stand at p1 and p2. -/
def MinScan.found (A : Memory) (p1 p2 : Nat) : MinScan :=
  { min1 := (A.read p1).toNat, p1 := some p1, min2 := (A.read p2).toNat, p2 := some p2 }

theorem scanFrom_twoSmallest (A : Memory) (hm : 2 ≤ m) :
    ∃ p1 p2, TwoSmallest A m p1 p2 ∧ scanFrom A m 0 MinScan.start = MinScan.found A p1 p2 := by
  have h := scanState_scanFrom A m 0 MinScan.start (.inl ⟨rfl, rfl⟩)
  rw [Nat.zero_add] at h
  generalize scanFrom A m 0 MinScan.start = final at h ⊢
  obtain ⟨rfl, -⟩ | ⟨rfl, -⟩ | ⟨-, p1, p2, e1, e2, lt1, lt2, hne, min1, min2, le1, first1, le2, first2⟩ := h
  · omega
  · omega
  · refine ⟨p1, p2, ⟨lt1, lt2, hne, le1, first1, le2, first2⟩, ?_⟩
    rw [MinScan.found, ← e1, ← e2, ← min1, ← min2]

/-- Settles O32: the final state of the scan is `MinScan.found` at the two smallest. -/
theorem scanFindsTwoSmallest : Obligations.ScanFindsTwoSmallest := by
  intro A m hm
  obtain ⟨p1, p2, h, hscan⟩ := scanFrom_twoSmallest A hm
  rw [hscan]
  exact ⟨p1, p2, rfl, rfl, h.lt_fst, h.lt_snd, h.ne, rfl, rfl, h.fst_le, h.fst_lt, h.snd_le, h.snd_lt, h.fst_le p2 h.lt_snd⟩

/-! ### The protected copy (43_protect R123) -/

theorem read_replaceMin_found (A : Memory) (p1 p2 threshold i : Nat) :
    (replaceMin A (MinScan.found A p1 p2) threshold).read i =
      if i = p1 ∧ threshold ≤ (A.read p2).toNat - (A.read p1).toNat then A.read p2 else A.read i := by
  simp only [replaceMin, MinScan.found]
  by_cases hgap : threshold ≤ (A.read p2).toNat - (A.read p1).toNat
  · simp [hgap, Memory.read_write, eq_comm]
  · simp [hgap]

theorem read_protectedCopy (A : Memory) (hm : 2 ≤ m) :
    ∃ p1 p2, TwoSmallest A m p1 p2 ∧ ∀ threshold i, (protectedCopy A m threshold).read i =
      if i = p1 ∧ threshold ≤ (A.read p2).toNat - (A.read p1).toNat then A.read p2 else A.read i := by
  obtain ⟨p1, p2, h, hscan⟩ := scanFrom_twoSmallest A hm
  refine ⟨p1, p2, h, fun threshold i => ?_⟩
  rw [protectedCopy, hscan, read_replaceMin_found]

/-- A minimum that occurs twice also stands at p2: one of its two indices is not p1. -/
theorem TwoSmallest.read_eq_of_tie {i j : Nat} (h : TwoSmallest A m p1 p2) (hij : i < j) (hj : j < m)
    (heq : A.read i = A.read j) (hmin : ∀ k, k < m → (A.read i).toNat ≤ (A.read k).toNat) : A.read p2 = A.read p1 := by
  have hle : (A.read p2).toNat ≤ (A.read i).toNat := by
    by_cases hi : i = p1
    · rw [heq]
      exact h.snd_le j hj (by omega)
    · exact h.snd_le i (hij.trans hj) hi
  exact BitVec.eq_of_toNat_eq (le_antisymm (hle.trans (hmin p1 h.lt_fst)) (h.fst_le p2 h.lt_snd))

/-- Beyond 255 no gap of two bytes reaches the threshold (R123 (b)). -/
theorem read_protectedCopy_of_large_threshold (hm : 2 ≤ m) (ht : 255 < threshold) (k : Nat) :
    (protectedCopy A m threshold).read k = A.read k := by
  obtain ⟨p1, p2, -, hread⟩ := read_protectedCopy A hm
  have hbyte : (A.read p2).toNat < 256 := (A.read p2).isLt
  rw [hread, if_neg]
  rintro ⟨-, hgap⟩
  omega

/-- With the minimum twice, the value put in its place is the minimum itself (R123 (c), (d)). -/
theorem read_protectedCopy_of_tie {i j : Nat} (hm : 2 ≤ m) (hij : i < j) (hj : j < m) (heq : A.read i = A.read j)
    (hmin : ∀ k, k < m → (A.read i).toNat ≤ (A.read k).toNat) (k : Nat) :
    (protectedCopy A m threshold).read k = A.read k := by
  obtain ⟨p1, p2, h, hread⟩ := read_protectedCopy A hm
  rw [hread, h.read_eq_of_tie hij hj heq hmin]
  split_ifs with hk
  · obtain ⟨rfl, -⟩ := hk
    rfl
  · rfl

/-! ### What `PROTECT` answers (43_protect R121) -/

theorem execProtect_live (hx : s.live a = some x) : exec (.protect a threshold) s =
    .next ((s.setSlot a { x with P := protectedCopy x.M x.m threshold }).setRsp .ok 0#64 0#64) := checkSlot_live hx

/-- A live slot stays live when its protected array is replaced. -/
theorem live_setSlot_withP (hx : s.live a = some x) (B : Memory) :
    (s.setSlot a { x with P := B }).live a = some { x with P := B } :=
  have hv : x.valid = true := live_valid hx
  live_setSlot_live hx hv

theorem two_le_m (h : 4 ≤ x.prec) : 2 ≤ x.m := Nat.le_self_pow (by omega) 2

/-- Settles O33: the slot stored holds `protectedCopy`, whose elements are known (`read_protectedCopy`). -/
theorem protectReplacesLoneMinimum : Obligations.ProtectReplacesLoneMinimum := by
  refine fun s a threshold => ⟨fun x hx h4 _ => ?_, fun h => checkSlot_dead h⟩
  obtain ⟨p1, p2, h, hread⟩ := read_protectedCopy x.M (two_le_m h4)
  exact ⟨_, { x with P := protectedCopy x.M x.m threshold }, p1, p2, execProtect_live hx, live_setSlot_withP hx _,
    h.lt_fst, h.lt_snd, h.ne, h.fst_le, h.fst_lt, h.snd_le, hread threshold, rfl, rfl, rfl, rfl⟩

/-- The protected array after a `PROTECT` that completed. -/
theorem protectedArray_of_exec (hx : s.live a = some x) (ht : exec (.protect a threshold) s = .next t)
    (hy : t.live a = some y) : y.P = protectedCopy x.M x.m threshold := by
  rw [execProtect_live hx, Host.Outcome.next.injEq] at ht
  rw [← ht, setRsp_live, live_setSlot_withP hx, Option.some.injEq] at hy
  rw [← hy]

/-- Settles O34: no gap reaches the threshold, or the value moved is the one that stood there. -/
theorem protectPlainCopyCases : Obligations.ProtectPlainCopyCases := by
  intro s t a threshold x y hx ht hy h4 hcase k
  rw [protectedArray_of_exec hx ht hy]
  obtain hlarge | ⟨i, j, hij, hj, heq, hmin⟩ := hcase
  · exact read_protectedCopy_of_large_threshold (two_le_m h4) hlarge k
  · exact read_protectedCopy_of_tie (two_le_m h4) hij hj heq hmin k

end Sys2Proof.Machine
end

section
/-! SUPPORT. MERGE (44_merge): what it answers, the merged registers, and under MAX the merged array as the elementwise maximum. -/

namespace Sys2Proof.Machine

variable {s : State} {a b : Nat} {x y : Slot} {op : MergeOp}

/-! ### What `MERGE` answers (44_merge R130, R131) -/

/-- The slot with its registers merged with those of another slot (44_merge R130). -/
def Slot.merged (op : MergeOp) (x y : Slot) : Slot := { x with M := mergeFrom op y.M x.m 0 x.M }

@[simp] theorem merged_prec : (x.merged op y).prec = x.prec := rfl
@[simp] theorem merged_alphaMM : (x.merged op y).alphaMM = x.alphaMM := rfl
@[simp] theorem merged_P : (x.merged op y).P = x.P := rfl

theorem m_eq_iff_prec_eq : x.m = y.m ↔ x.prec = y.prec :=
  ⟨Slot.prec_eq_of_m_eq, congrArg (2 ^ ·)⟩

theorem execMerge_sameSize (hx : s.live a = some x) (hy : s.live b = some y) (hp : x.prec = y.prec) :
    exec (.merge a b) s = .next ((s.setSlot a (x.merged s.mergeOp y)).setRsp .ok 0#64 0#64) := by
  rw [exec, execMerge, checkSlot_live hx, checkSlot_live hy, if_neg (not_not.mpr (m_eq_iff_prec_eq.mpr hp)), respond,
    Slot.merged]

theorem execMerge_sizeMismatch (hx : s.live a = some x) (hy : s.live b = some y) (hp : x.prec ≠ y.prec) :
    exec (.merge a b) s = .next (s.setRsp .sizeMismatch 0#64 (sizesAux x.m y.m)) := by
  rw [exec, execMerge, checkSlot_live hx, checkSlot_live hy, if_pos (mt m_eq_iff_prec_eq.mp hp), raise]

theorem execMerge_noInstance (h : s.live a = none ∨ s.live b = none) :
    exec (.merge a b) s = .next (s.setRsp .noInstance 0#64 0#64) := by
  rw [exec, execMerge]
  cases hx : s.live a with
  | none => exact checkSlot_dead hx
  | some x =>
    have hb : s.live b = none := h.resolve_left (by simp [hx])
    rw [checkSlot_live hx, checkSlot_dead hb]

theorem live_setSlot_merged (hx : s.live a = some x) :
    (s.setSlot a (x.merged op y)).live a = some (x.merged op y) := live_setSlot_withM hx _

/-- Under MAX: slot a afterwards, and what the other slots and MERGE_OP keep. -/
theorem execMerge_max (hop : s.mergeOp = .max) (hx : s.live a = some x) (hy : s.live b = some y) (hp : x.prec = y.prec) :
    ∃ t, exec (.merge a b) s = .next t ∧ t.live a = some (x.merged .max y) ∧ (∀ c, c ≠ a → t.live c = s.live c) ∧
      t.mergeOp = .max := by
  refine ⟨_, execMerge_sameSize hx hy hp, ?_, fun c hc => live_setSlot_other _ _ _ _ hc.symm, hop⟩
  rw [hop]
  exact live_setSlot_merged hx

/-! ### The two sizes in `aux` (44_merge R131) -/

theorem m_lt_two_pow_32 (h : x.prec ≤ 30) : x.m < 2 ^ 32 := Nat.pow_lt_pow_right (by decide) (by omega)

theorem sizesAux_low (ma mb : Nat) (h : ma < 2 ^ 32) : ((sizesAux ma mb).extractLsb' 0 32).toNat = ma := by
  rw [sizesAux, BitVec.extractLsb'_append_eq_right, BitVec.toNat_ofNat, Nat.mod_eq_of_lt h]

theorem sizesAux_high (ma mb : Nat) (h : mb < 2 ^ 32) : ((sizesAux ma mb).extractLsb' 32 32).toNat = mb := by
  rw [sizesAux, BitVec.extractLsb'_append_eq_left, BitVec.toNat_ofNat, Nat.mod_eq_of_lt h]

/-! ### The merged registers (44_merge R132) -/

theorem read_merged {i : Nat} (hi : i < x.m) : (x.merged op y).M.read i =
    if (x.M.read i).toNat < (y.M.read i).toNat then combine op (x.M.read i) (y.M.read i) else x.M.read i := by
  simp [Slot.merged, read_mergeFrom, hi, BitVec.lt_def]

/-- Under MAX a merged register is the larger of the two. -/
theorem read_merged_max {i : Nat} (hi : i < x.m) :
    ((x.merged .max y).M.read i).toNat = max (x.M.read i).toNat (y.M.read i).toNat := by
  rw [read_merged hi]
  split
  · next hlt => exact (max_eq_right hlt.le).symm
  · next hle => exact (max_eq_left (not_lt.mp hle)).symm

/-- The loop writes nothing where no element is below its match. -/
theorem mergeFrom_of_le {A B : Memory} {n i : Nat} (h : ∀ j, j < i + n → (B.read j).toNat ≤ (A.read j).toNat) :
    mergeFrom op B n i A = A := by
  induction n generalizing i with
  | zero => rfl
  | succ n ih =>
    have hi : ¬ A.read i < B.read i := BitVec.not_lt.mpr (BitVec.le_def.mpr (h i (by omega)))
    rw [mergeFrom, mergeElement, if_neg hi]
    exact ih fun j hj => h j (by omega)

/-- Merging with a slot that is nowhere above changes nothing. -/
theorem merged_of_le (h : ∀ j, j < x.m → (y.M.read j).toNat ≤ (x.M.read j).toNat) : x.merged op y = x := by
  rw [Slot.merged, mergeFrom_of_le fun j hj => h j (by omega)]

/-- Under MAX a second merge with the same slot changes nothing (44_merge R133 (d)). -/
theorem merged_max_twice : (x.merged .max y).merged .max y = x.merged .max y :=
  merged_of_le fun _ hj => read_merged_max (x := x) hj ▸ le_max_right _ _

/-! ### Merging and adding (44_merge R133 (f)) -/

section Adds

variable {X Y : List Word32}

theorem withAdds_append : x.withAdds (X ++ Y) = (x.withAdds X).withAdds Y := by
  simp only [Slot.withAdds, List.foldl_append]

theorem wf_withAdds (hw : x.M.wf) : (x.withAdds X).M.wf := wf_foldl_addM _ _ _ hw

theorem below_foldl_addM {p : Nat} (hp : p ≤ 30) (hashes : List Word32) {A : Memory} (h : A.below (2 ^ p)) :
    (hashes.foldl (addM p) A).below (2 ^ p) := by
  induction hashes generalizing A with
  | nil => exact h
  | cons hash hashes ih => exact ih (raiseTo_below h (hashIndex_lt hp hash) _)

theorem below_withAdds (hp : x.prec ≤ 30) (hb : x.M.below x.m) : (x.withAdds X).M.below x.m := below_foldl_addM hp _ hb

/-- `ADD`s raise any array to the array that they make of a cleared one of the same precision. -/
theorem read_withAdds_eq_max (hp : x.prec = y.prec) (hy : y.M = []) (i : Nat) :
    ((x.withAdds Y).M.read i).toNat = max (x.M.read i).toNat ((y.withAdds Y).M.read i).toNat := by
  have hzero : (y.M.read i).toNat = 0 := by rw [hy, Memory.read_nil, BitVec.toNat_zero]
  rw [read_withAdds, read_withAdds, hp, hzero, ← List.foldl_assoc (op := max), Nat.max_zero]

/-- Adding Y is merging with the array that Y makes of a cleared one. -/
theorem withAdds_M_eq_merged_M (hw : x.M.wf) (hb : x.M.below x.m) (h30 : x.prec ≤ 30) (hp : x.prec = y.prec)
    (hy : y.M = []) : (x.withAdds Y).M = (x.merged .max (y.withAdds Y)).M :=
  Memory.ext_below (wf_withAdds hw) (mergeFrom_wf hw) (below_withAdds h30 hb) (mergeFrom_below hb (Nat.zero_add _).le)
    fun i hi => by
      rw [← BitVec.toNat_inj, read_withAdds_eq_max hp hy, read_merged_max hi]

/-- A run of `ADD`s leaves the other slots and MERGE_OP as they were. -/
theorem runAll_adds_frame (hx : s.live a = some x) (hashes : List Word32) :
    ∃ t, runAll (hashes.map (Instr.add a)) s = .next t ∧ t.live a = some (x.withAdds hashes) ∧
      (∀ c, c ≠ a → t.live c = s.live c) ∧ t.mergeOp = s.mergeOp := by
  cases hashes with
  | nil => exact ⟨s, rfl, hx, fun _ _ => rfl, rfl⟩
  | cons hash hashes =>
    exact ⟨_, runAll_adds hx hash hashes, live_setSlot_withAdds hx _, fun c hc => live_setSlot_other _ _ _ _ hc.symm, rfl⟩

theorem runAll_append_next {is js : List Instr} {t : State} (h : runAll is s = .next t) :
    runAll (is ++ js) s = runAll js t := by rw [runAll_append, h]

end Adds

/-! ### The statements -/

/-- Settles O35: the slot stored is `merged`, whose registers are known (`read_merged`). -/
theorem mergeCombinesElements : Obligations.MergeCombinesElements := by
  intro s a b x y hx hy hp
  refine ⟨_, x.merged s.mergeOp y, execMerge_sameSize hx hy hp, live_setSlot_merged hx, fun i hi => ?_, merged_prec,
    merged_alphaMM, merged_P, fun c hc => List.getElem?_set_ne hc.symm, rfl⟩
  rw [read_merged hi]
  cases s.mergeOp <;> rfl

/-- Settles O36: up to 2^30 each size fits its half of aux. -/
theorem mergeSizeMismatch : Obligations.MergeSizeMismatch := by
  refine fun s a b => ⟨fun x y hx hy _ hx30 _ hy30 hp => ?_, fun h => execMerge_noInstance h⟩
  exact ⟨sizesAux x.m y.m, sizesAux_low _ _ (m_lt_two_pow_32 hx30), sizesAux_high _ _ (m_lt_two_pow_32 hy30),
    execMerge_sizeMismatch hx hy hp⟩

/-- Settles O37: no register is below itself, so the slot written back is the slot that was there. -/
theorem selfMergeIsNoOp : Obligations.SelfMergeIsNoOp := by
  intro s a x hx
  have hself : x.merged s.mergeOp x = x := merged_of_le fun _ _ => le_refl _
  rw [execMerge_sameSize hx hx rfl, hself, setSlot_same hx]
  rfl

/-- Settles O38: slot b gets the maximum of its array and the merged one, and a repeat gives slot a what it holds
(`merged_max_twice`). -/
theorem mergeIsCommutativeAndIdempotent : Obligations.MergeIsCommutativeAndIdempotent := by
  intro s a b x y hop hab hx hy hp
  obtain ⟨t, hab_t, hta, htother, htop⟩ := execMerge_max hop hx hy hp
  have htb : t.live b = some y := (htother b hab.symm).trans hy
  obtain ⟨u, hba_u, hub, huother, -⟩ := execMerge_max htop htb hta hp.symm
  refine ⟨t, u, _, x.merged .max y, y.merged .max (x.merged .max y), hab_t, hba_u, execMerge_sameSize hta htb hp,
    (huother a hab).trans hta, hub, fun i hi => ⟨read_merged_max hi, ?_⟩, ?_⟩
  · have hiy : i < y.m := m_eq_iff_prec_eq.mpr hp ▸ hi
    rw [read_merged_max hiy, read_merged_max hi]
    omega
  · rw [htop, merged_max_twice, setRsp_slots, setSlot_same hta]

/-- Settles O39: `MERGE` after the runs on a and b leaves what the run of all of them leaves (`withAdds_M_eq_merged_M`). -/
theorem mergeIsUnion : Obligations.MergeIsUnion := by
  intro s a b x y X Y hop hab hx hy hp _ h30 hxM hyM
  obtain ⟨s₁, hrunX, hlive₁, hother₁, hop₁⟩ := runAll_adds_frame hx X
  obtain ⟨s₂, hrunY, hlive₂, hother₂, hop₂⟩ := runAll_adds_frame ((hother₁ b hab.symm).trans hy) Y
  obtain ⟨t, hmerge, hlive, -, -⟩ :=
    execMerge_max (hop₂.trans (hop₁.trans hop)) ((hother₂ a hab).trans hlive₁) hlive₂ hp
  obtain ⟨u, hrunXY, hliveU⟩ := runAll_adds_live hx (X ++ Y)
  refine ⟨t, u, _, _, ?_, hrunXY, hlive, hliveU, ?_⟩
  · rw [List.append_assoc, runAll_append_next hrunX, runAll_append_next hrunY]
    exact runAll_cons_next hmerge
  · have hw : x.M.wf := hxM ▸ Memory.wf_nil
    have hb : x.M.below x.m := hxM ▸ Memory.below_nil _
    rw [withAdds_append]
    exact (withAdds_M_eq_merged_M (wf_withAdds hw) (below_withAdds h30 hb) h30 hp hyM).symm

end Sys2Proof.Machine
end

section
/-! SUPPORT. The persistence commands (45_persistence): what `DUMP` and `RESTORE` leave, the round trip of the two, and that every
command completes when every stream call is answered. -/

namespace Sys2Proof.Machine

variable {s t : State} {a c : Nat} {x : Slot} {q : Byte} {bytes rest : List Byte}

/-- A byte count of either command fits `RSP.value` (30_encoding R56). -/
theorem toNat_byteCount {n : Nat} (h : n ≤ 1 + 2 ^ 30) : (BitVec.ofNat 64 n).toNat = n := by
  rw [BitVec.toNat_ofNat, Nat.mod_eq_of_lt (by omega)]

theorem one_add_two_pow_le {p : Nat} (h : p ≤ 30) : 1 + 2 ^ p ≤ 1 + 2 ^ 30 :=
  Nat.add_le_add_left (Nat.pow_le_pow_right (by decide) h) 1

/-! ### What a dump leaves (45_persistence R140 to R142) -/

theorem layout_eq_elementsOf (x : Slot) : layout x = BitVec.ofNat 8 x.prec :: elementsOf x.M (2 ^ x.prec) := by
  rw [elementsOf_eq]
  rfl

theorem execDump_accepted (hx : s.live a = some x) (hall : ∀ k, s.sinkPlan.accept = some k → 1 + x.m ≤ k) :
    execDump a s = .next ((s.emit (layout x)).setRsp .ok (BitVec.ofNat 64 (1 + x.m)) 0#64) := by
  obtain ⟨k, hk, hlt, -⟩ | ⟨-, he⟩ := execDump_live hx
  · exact absurd (hall k hk) (not_le.mpr hlt)
  · exact he

theorem execDump_failed {k : Nat} (hx : s.live a = some x) (hk : s.sinkPlan.accept = some k) (hlt : k < 1 + x.m)
    (hend : s.sinkPlan.ending = .fails) :
    execDump a s = .next ((s.emit ((layout x).take k)).setRsp .ioError (BitVec.ofNat 64 k) 0#64) := by
  obtain ⟨j, hj, -, he⟩ | ⟨hall, -⟩ := execDump_live hx
  · obtain rfl : j = k := Option.some.inj (hj.symm.trans hk)
    rw [he, hend]
  · exact absurd (hall k hk) (not_le.mpr hlt)

/-- A dump that answers `OK` has given the whole layout to the sink. -/
theorem execDump_ok (hx : s.live a = some x) (h : execDump a s = .next t) (hok : t.rsp.status = 0x00#8) :
    t = (s.emit (layout x)).setRsp .ok (BitVec.ofNat 64 (1 + x.m)) 0#64 := by
  obtain ⟨hdead, -⟩ | ⟨y, hy, ⟨k, -, -, -, rfl⟩ | ⟨-, rfl⟩⟩ := execDump_next h
  · simp [hx] at hdead
  · exact absurd hok (by simp [Status.code])
  · obtain rfl : x = y := Option.some.inj (hx.symm.trans hy)
    rfl

/-- Settles O40: the sink takes the whole layout, or fails after k of its bytes. -/
theorem dumpWritesLayout : Obligations.DumpWritesLayout := by
  refine fun s a x hx _ h30 => ⟨fun hall => ?_, fun k hk hlt hend => ?_⟩
  · refine ⟨BitVec.ofNat 64 (1 + x.m), toNat_byteCount (one_add_two_pow_le h30), ?_⟩
    rw [← layout_eq_elementsOf]
    exact execDump_accepted hx hall
  · refine ⟨BitVec.ofNat 64 k, toNat_byteCount (hlt.le.trans (one_add_two_pow_le h30)), ?_⟩
    rw [← layout_eq_elementsOf]
    exact execDump_failed hx hk hlt hend

/-! ### What a restore leaves (45_persistence R143 to R146) -/

theorem execRestore_nil (hx : s.live a = some x) (hb : s.source.bytes = []) (hend : s.source.ending = .fails) :
    execRestore a s = .next (s.setRsp .ioError 0#64 0#64) := by
  obtain ⟨-, he⟩ | ⟨q, rest, hcons, -⟩ := execRestore_live hx
  · rw [he, hend]
  · simp [hb] at hcons

/-- What a restore answers to a source that holds a byte. -/
theorem execRestore_cons (hx : s.live a = some x) (hb : s.source.bytes = q :: bytes) :
    execRestore a s =
      if validPrecision q.toNat then
        if 2 ^ q.toNat ≤ bytes.length then
          .next (((s.consume (1 + 2 ^ q.toNat)).setSlot a (s.restoredSlot q.toNat (bytes.take (2 ^ q.toNat)))).setRsp .ok
            (BitVec.ofNat 64 (1 + 2 ^ q.toNat)) 0#64)
        else if s.source.ending = .fails then
          .next ((s.consume (1 + bytes.length)).setRsp .ioError (BitVec.ofNat 64 (1 + bytes.length)) 0#64)
        else .fault .sourceUnanswered
      else .next ((s.consume 1).setRsp .invalidArgument 1#64 0#64) := by
  obtain ⟨hnil, -⟩ | ⟨q', bytes', hcons, hcases⟩ := execRestore_live hx
  · simp [hb] at hnil
  · obtain ⟨rfl, rfl⟩ := List.cons.inj (hb.symm.trans hcons)
    obtain ⟨hq, he⟩ | ⟨hq, hlt, he⟩ | ⟨hq, hle, he⟩ := hcases
    · simp [he, hq]
    · rw [he, if_pos hq, if_neg (not_le.mpr hlt)]
      cases s.source.ending <;> rfl
    · rw [he, if_pos hq, if_pos hle]

theorem elementsOf_ofBytes (bs : List Byte) : elementsOf (Memory.ofBytes 0 bs) bs.length = bs := by
  refine List.ext_getElem (length_elementsOf _ _) fun i _ hi => ?_
  simp [elementsOf, Memory.read_ofBytes, hi]

/-- A restore that finds a valid precision byte and its register bytes (45_persistence R143). -/
theorem execRestore_complete (hx : s.live a = some x) (hb : s.source.bytes = q :: (bytes ++ rest))
    (hq : validPrecision q.toNat = true) (hlen : bytes.length = 2 ^ q.toNat) :
    ∃ t, execRestore a s = .next t ∧ t.live a = some (s.restoredSlot q.toNat bytes) ∧
      t.source = { s.source with bytes := rest } ∧ t.rsp = ⟨0x00#8, BitVec.ofNat 64 (1 + 2 ^ q.toNat), 0#64⟩ := by
  have htake : (bytes ++ rest).take (2 ^ q.toNat) = bytes := List.take_left' hlen
  have hdrop : (q :: (bytes ++ rest)).drop (1 + 2 ^ q.toNat) = rest := by
    rw [Nat.add_comm, List.drop_succ_cons, List.drop_left' hlen]
  have he := execRestore_cons hx hb
  rw [if_pos hq, if_pos (by simp [hlen]), htake] at he
  exact ⟨_, he, live_setSlot_live (s := s.consume _) hx rfl, by simp [hb, hdrop], rfl⟩

/-- Settles O41: the source holds a whole layout, nothing, too few register bytes, or a precision byte out of range. -/
theorem restoreReplacesInstance : Obligations.RestoreReplacesInstance := by
  refine fun s a x hx => ⟨fun q bytes rest hb h4 h30 hlen => ?_, execRestore_nil hx, fun q bytes hb hend h4 h30 hlt => ?_,
    fun q bytes hb hq => ?_⟩
  · obtain ⟨t, he, hlive, hsource, hrsp⟩ := execRestore_complete hx hb (validPrecision_iff.mpr ⟨h4, h30⟩) hlen
    refine ⟨t, _, he, hlive, rfl, rfl, hlen ▸ elementsOf_ofBytes bytes, fun _ => rfl, hsource, ?_⟩
    rw [hrsp]
    exact ⟨rfl, toNat_byteCount (one_add_two_pow_le h30), rfl⟩
  · have hcount : 1 + bytes.length ≤ 1 + 2 ^ 30 := (Nat.add_le_add_left hlt.le 1).trans (one_add_two_pow_le h30)
    refine ⟨BitVec.ofNat 64 (1 + bytes.length), toNat_byteCount hcount, ?_⟩
    have he := execRestore_cons hx hb
    rw [if_pos (validPrecision_iff.mpr ⟨h4, h30⟩), if_neg (not_le.mpr hlt), if_pos hend] at he
    rw [exec, he]
    simp [State.consume, State.setRsp, Status.code, hb, Nat.add_comm]
  · have he := execRestore_cons hx hb
    rw [if_neg (by rw [validPrecision_iff]; omega)] at he
    rw [exec, he]
    simp [State.consume, State.setRsp, Status.code, hb]

/-! ### A dump restored (45_persistence R147) -/

/-- The register bytes of a layout restore to the slot they were dumped from, but for the protected array. -/
theorem restoredSlot_elements (hs : s.Inv) (hx : s.live a = some x) :
    s.restoredSlot x.prec (x.M.elements x.m 0) = { x with P := [] } := by
  obtain ⟨hM, -, -⟩ := hs.slotInv (slots_of_live hx)
  obtain ⟨-, -, halpha, hbelow, -⟩ := hs.instanceOk hx
  rw [State.restoredSlot, Memory.ofBytes_elements hM hbelow, ← halpha, ← live_valid hx]

/-- A restore from a layout builds the dumped slot again, in any live slot. -/
theorem execRestore_layout {y : Slot} (hs : s.Inv) (hx : s.live a = some x) (hy : s.live c = some y)
    (hb : s.source.bytes = layout x ++ rest) :
    ∃ u, execRestore c s = .next u ∧ u.live c = some { x with P := [] } ∧ u.source.bytes = rest ∧ u.rsp.status = 0x00#8 := by
  obtain ⟨h4, h30, -⟩ := hs.instanceOk hx
  have hq : (BitVec.ofNat 8 x.prec).toNat = x.prec := precisionOk_toNat (decide_eq_true (by omega))
  obtain ⟨u, he, hlive, hsource, hrsp⟩ :=
    execRestore_complete (bytes := x.M.elements x.m 0) hy hb (by rw [hq]; exact validPrecision_iff.mpr ⟨h4, h30⟩)
      (by rw [hq]; exact Memory.length_elements _ _ _)
  rw [hq, restoredSlot_elements hs hx] at hlive
  exact ⟨u, he, hlive, by rw [hsource], by rw [hrsp]⟩

/-- Settles O42: the sink has gained the layout of slot a, and a restore from it builds slot a again (`execRestore_layout`), whose
estimate depends on nothing but its precision, alphaMM and registers. -/
theorem dumpRestoreRoundTrip : Obligations.DumpRestoreRoundTrip := by
  intro s t a c x y rest ending hs hx hy hdump hok
  obtain rfl := execDump_ok hx hdump hok
  have ht := exec_inv hs hdump
  have hbytes : (s.emit (layout x)).sinkOut.drop s.sinkOut.length = layout x := List.drop_left
  obtain ⟨u, he, hlive, hrest, hstatus⟩ :=
    execRestore_layout
      (s := ((s.emit (layout x)).setRsp .ok (BitVec.ofNat 64 (1 + x.m)) 0#64).bindSource ⟨layout x ++ rest, ending⟩) ht hx hy rfl
  rw [setRsp_sinkOut, hbytes]
  exact ⟨u, _, _, _, he, hstatus, hlive, rfl, rfl, rfl, fun _ => rfl, hrest, execEstimate_live hx, execEstimate_live hlive,
    rfl⟩

/-! ### Every command completes (45_persistence R148) -/

theorem checkSlot_completes {body : Slot → Result} (h : ∀ x, ∃ t, body x = .next t) : ∃ t, checkSlot a s body = .next t := by
  cases hx : s.live a with
  | none => exact ⟨_, checkSlot_dead hx⟩
  | some x => exact checkSlot_live hx ▸ h x

theorem execDump_completes (a : Nat) (hend : s.sinkPlan.ending = .fails) : ∃ t, execDump a s = .next t := by
  cases hx : s.live a with
  | none => exact ⟨_, checkSlot_dead hx⟩
  | some x =>
    obtain ⟨k, hk, hlt, -⟩ | ⟨-, he⟩ := execDump_live hx
    · exact ⟨_, execDump_failed hx hk hlt hend⟩
    · exact ⟨_, he⟩

theorem execRestore_completes (a : Nat) (hend : s.source.ending = .fails) : ∃ t, execRestore a s = .next t := by
  cases hx : s.live a with
  | none => exact ⟨_, checkSlot_dead hx⟩
  | some x =>
    cases hb : s.source.bytes with
    | nil => exact ⟨_, execRestore_nil hx hb hend⟩
    | cons q bytes =>
      rw [execRestore_cons hx hb, if_pos hend]
      split_ifs <;> exact ⟨_, rfl⟩

theorem execCreate_completes (a p : Nat) : ∃ t, execCreate a p s = .next t := by
  unfold execCreate checkSlotId
  split_ifs <;> exact ⟨_, rfl⟩

/-- The commands but `CREATE` check their slot first; after that only the two persistence commands can fail to complete. -/
theorem exec_completes (i : Instr) (hsource : s.source.ending = .fails) (hsink : s.sinkPlan.ending = .fails) :
    ∃ t, exec i s = .next t := by
  cases i with
  | create a p => exact execCreate_completes a p
  | destroy | clear | regcount | add | estimate | protect => exact checkSlot_completes fun _ => ⟨_, rfl⟩
  | counter | flipbit => exact checkSlot_completes fun _ => by split <;> exact ⟨_, rfl⟩
  | merge => exact checkSlot_completes fun _ => checkSlot_completes fun _ => by split <;> exact ⟨_, rfl⟩
  | dump a => exact execDump_completes a hsink
  | restore a => exact execRestore_completes a hsource

theorem runWord_completes (w : Word64) (hsource : s.source.ending = .fails) (hsink : s.sinkPlan.ending = .fails) :
    ∃ t, runWord w s = .next t := by
  unfold runWord
  cases decode w with
  | ok i => exact exec_completes i hsource hsink
  | error => exact ⟨_, rfl⟩

/-- Settles O44: a step is idle, an action of the host that touches no stream, or a word that runs (`runWord_completes`). -/
theorem everyCommandTerminates : Obligations.EveryCommandTerminates := by
  refine fun s hsource hsink => ⟨fun i => exec_completes i hsource hsink, ?_⟩
  cases hp : s.pending with
  | nil => exact ⟨s, step_idle hp⟩
  | cons action rest =>
    rw [step_action hp]
    cases action with
    | command w => exact runWord_completes (s := s.withPending rest) w hsource hsink
    | bindSource | bindSink | reset => exact ⟨_, rfl⟩

end Sys2Proof.Machine
end

section
/-! SUPPORT. Errors (60_exceptions): what an error leaves unchanged, the statuses of each command, and which check decides. -/

namespace Sys2Proof.Machine

variable {s t : State} {i : Instr} {a : Nat}

/-! ### What an error leaves unchanged (60_exceptions R163) -/

/-- A command stores a slot only together with the status `OK`. -/
theorem Completes.slots_of_error (h : Completes s i t) (herr : t.rsp.status ≠ 0x00#8) : t.slots = s.slots := by
  cases h with
  | answers hu => exact hu.slots
  | stores => exact absurd rfl herr

/-- Settles O45: a legal word runs its command, which names the one stream it touches; an illegal word only answers. -/
theorem errorChangesNoSlot : Obligations.ErrorChangesNoSlot := by
  intro s t w rest hp h herr
  cases hd : decode w with
  | ok i =>
    rw [stepRunsDecodedCommand s w rest i hp hd] at h
    have hc := exec_next h
    obtain ⟨-, hop, halpha, hpend, hplan⟩ := hc.setting
    exact ⟨hc.slots_of_error herr, hop, halpha, hplan, hpend, fun hi => hc.sinkOut fun a e => hi a (congrArg _ e),
      fun hi => hc.source fun a e => hi a (congrArg _ e)⟩
  | error e =>
    rw [step_illegal hp hd] at h
    cases h
    exact ⟨rfl, rfl, rfl, rfl, rfl, fun _ => rfl, fun _ => rfl⟩

/-! ### The statuses of each command (60_exceptions R160, R161) -/

theorem status_of_respond {v u : Word64} (h : respond v u s = .next t) : t.rsp.status = 0x00#8 := by
  rw [respond_next.mp h]
  rfl

theorem status_of_raise {e : Status} {v u : Word64} (h : raise e v u s = .next t) : t.rsp.status = e.code := by
  rw [raise_next.mp h]
  rfl

/-- The slot check adds the status `NoInstance` to those of the command's body. -/
theorem status_of_checkSlot {body : Slot → Result} {statuses : List (BitVec 8)} (h : checkSlot a s body = .next t)
    (hdead : 0x06#8 ∈ statuses) (hbody : ∀ x, body x = .next t → t.rsp.status ∈ statuses) : t.rsp.status ∈ statuses := by
  obtain ⟨-, rfl⟩ | ⟨x, -, hx⟩ := checkSlot_next h
  · exact hdead
  · exact hbody x hx

/-- Settles O46: the slot check comes first (`status_of_checkSlot`), then each command has the few ends of its body. -/
theorem statusesOfEachCommand : Obligations.StatusesOfEachCommand := by
  intro s t i h
  cases i with
  | create a p => obtain ⟨-, rfl⟩ | ⟨-, -, rfl⟩ | ⟨-, -, rfl⟩ := execCreate_next h <;> simp [Status.code]
  | destroy | clear | regcount | add | estimate | protect =>
    exact status_of_checkSlot h (by simp) fun x hx => by simp [status_of_respond hx]
  | counter | flipbit =>
    refine status_of_checkSlot h (by simp) fun x hx => ?_
    split at hx
    · simp [status_of_raise hx, Status.code]
    · simp [status_of_respond hx]
  | merge =>
    refine status_of_checkSlot h (by simp) fun x hx => status_of_checkSlot hx (by simp) fun y hy => ?_
    split at hy
    · simp [status_of_raise hy, Status.code]
    · simp [status_of_respond hy]
  | dump => obtain ⟨-, rfl⟩ | ⟨x, -, ⟨k, -, -, -, rfl⟩ | ⟨-, rfl⟩⟩ := execDump_next h <;> simp [Status.code]
  | restore =>
    obtain ⟨-, rfl⟩ | ⟨x, -, ⟨-, rfl⟩ | ⟨q, bytes, -, ⟨-, rfl⟩ | ⟨-, -, rfl⟩ | ⟨-, -, rfl⟩⟩⟩ := execRestore_next h <;>
      simp [Status.code]

/-! ### The first failing check decides (60_exceptions R162) -/

/-- Every command but `CREATE` checks its slot before anything else (40_register_store R70). -/
theorem exec_dead (hi : ∀ a p, i ≠ .create a p) (h : s.live (slotOf i) = none) :
    exec i s = .next (s.setRsp .noInstance 0#64 0#64) := by
  cases i with
  | create a p => exact absurd rfl (hi a p)
  | destroy | clear | regcount | counter | flipbit | add | estimate | protect | merge | dump | restore =>
    exact checkSlot_dead h

/-- A word that decodes to no command ends with `IllegalCommand` before any slot is looked at (60_exceptions R173). -/
theorem step_undecodable {w : Word64} {rest : List HostAction} (h : s.pending = .command w :: rest)
    (hw : ∀ i, decode w ≠ .ok i) : step s = .next { s with pending := rest, rsp := ⟨0x05#8, 0#64, 0#64⟩ } := by
  cases hd : decode w with
  | ok i => exact absurd hd (hw i)
  | error e => exact step_illegal h hd

/-- Settles O47: the decoder, slot a, slot b of `MERGE`, and the precision byte of `RESTORE` (the last clause of O41). -/
theorem firstFailingCheckDecides : Obligations.FirstFailingCheckDecides := by
  refine fun s => ⟨fun w rest h hw => step_undecodable h hw, fun a p ha => execCreate_noInstance ha,
    fun i hi h => exec_dead hi h, fun a b h => execMerge_noInstance (.inr h), fun a x q bytes hx hb hq => ?_⟩
  obtain ⟨-, -, -, hbadPrecision⟩ := restoreReplacesInstance s a x hx
  exact hbadPrecision q bytes hb hq

end Sys2Proof.Machine
end

section
/-! SUPPORT. Reset (70_reset_and_hazards R190): no slot of the engine is live afterwards, and the invariant holds. -/

namespace Sys2Proof.Machine

variable {s : State}

theorem live_of_replicate_reset {n : Nat} (h : s.slots = List.replicate n Slot.reset) (a : Nat) : s.live a = none := by
  rw [Option.eq_none_iff_forall_ne_some]
  intro x hx
  have hmem : x ∈ List.replicate n Slot.reset := h ▸ List.mem_of_getElem? (slots_of_live hx)
  have hvalid : x.valid = true := live_valid hx
  rw [List.eq_of_mem_replicate hmem] at hvalid
  exact absurd hvalid (by decide)

theorem resetEngine_live (s : State) (a : Nat) : s.resetEngine.live a = none := live_of_replicate_reset (resetEngine_slots s) a

/-- Settles O10: every slot is `Slot.reset`, which is not valid. -/
theorem resetLeavesNoInstance : Obligations.ResetLeavesNoInstance := by
  refine ⟨fun n _ _ a => ⟨List.length_replicate, live_of_replicate_reset rfl a, rfl⟩, fun s rest h => ?_⟩
  refine ⟨(s.withPending rest).resetEngine, step_action h, resetEngine_nInst _, fun x hx => ?_, rfl, rfl, rfl⟩
  rw [List.eq_of_mem_replicate hx]
  rfl

/-- The table the engine has at reset is one that 42_estimate R103 allows. -/
theorem defaultAlphaTable_ok : defaultAlphaTable.all alphaOk = true := by decide

/-- Settles O53: the parameters are allowed ones, and every slot is `Slot.reset` (`slotInv_reset`). -/
theorem invariantHoldsAtReset : Obligations.InvariantHoldsAtReset := by
  refine ⟨⟨by decide, by decide, by decide, defaultAlphaTable_ok⟩, by decide, fun x hx => ?_⟩
  rw [List.eq_of_mem_replicate hx]
  exact slotInv_reset

end Sys2Proof.Machine
end

section
/-! SUPPORT. Slots that are not live are unobservable (70_reset_and_hazards R190, 10_state R12): `SameVisible` is kept by every
operation the commands share, so it is kept by every command and every step. -/

namespace Sys2Proof.Machine

variable {s t : State}

/-! ### What two states that look the same agree on -/

theorem SameVisible.nInst (h : SameVisible s t) : t.nInst = s.nInst :=
  have ⟨hn, _⟩ := h
  hn

theorem SameVisible.live (h : SameVisible s t) (a : Nat) : t.live a = s.live a :=
  have ⟨_, hlive, _⟩ := h
  hlive a

theorem SameVisible.mergeOp (h : SameVisible s t) : t.mergeOp = s.mergeOp :=
  have ⟨_, _, _, hop, _⟩ := h
  hop

theorem SameVisible.alphamm (h : SameVisible s t) (p : Nat) : t.alphamm p = s.alphamm p :=
  have ⟨_, _, _, _, halpha, _⟩ := h
  congrArg (alphaOf · p) halpha

theorem SameVisible.pending (h : SameVisible s t) : t.pending = s.pending :=
  have ⟨_, _, _, _, _, hpend, _⟩ := h
  hpend

theorem SameVisible.source (h : SameVisible s t) : t.source = s.source :=
  have ⟨_, _, _, _, _, _, hsource, _⟩ := h
  hsource

theorem SameVisible.sinkPlan (h : SameVisible s t) : t.sinkPlan = s.sinkPlan :=
  have ⟨_, _, _, _, _, _, _, hplan, _⟩ := h
  hplan

theorem SameVisible.freshSlot (h : SameVisible s t) (p : Nat) : t.freshSlot p = s.freshSlot p := by
  rw [State.freshSlot, h.alphamm, State.freshSlot]

theorem SameVisible.restoredSlot (h : SameVisible s t) (p : Nat) (staged : List Byte) :
    t.restoredSlot p staged = s.restoredSlot p staged := by
  rw [State.restoredSlot, h.alphamm, State.restoredSlot]

/-! ### The operations on the state keep it -/

theorem SameVisible.setRsp (h : SameVisible s t) (st : Status) (v u : Word64) :
    SameVisible (s.setRsp st v u) (t.setRsp st v u) :=
  have ⟨hn, hlive, _, hrest⟩ := h
  ⟨hn, hlive, rfl, hrest⟩

theorem SameVisible.withPending (h : SameVisible s t) (rest : List HostAction) :
    SameVisible (s.withPending rest) (t.withPending rest) :=
  have ⟨hn, hlive, hrsp, hop, halpha, _, hstreams⟩ := h
  ⟨hn, hlive, hrsp, hop, halpha, rfl, hstreams⟩

theorem SameVisible.bindSource (h : SameVisible s t) (src : Source) : SameVisible (s.bindSource src) (t.bindSource src) :=
  have ⟨hn, hlive, hrsp, hop, halpha, hpend, _, hsink⟩ := h
  ⟨hn, hlive, hrsp, hop, halpha, hpend, rfl, hsink⟩

theorem SameVisible.bindSink (h : SameVisible s t) (plan : SinkPlan) : SameVisible (s.bindSink plan) (t.bindSink plan) :=
  have ⟨hn, hlive, hrsp, hop, halpha, hpend, hsource, _, hout⟩ := h
  ⟨hn, hlive, hrsp, hop, halpha, hpend, hsource, rfl, hout⟩

theorem SameVisible.consume (h : SameVisible s t) (n : Nat) : SameVisible (s.consume n) (t.consume n) :=
  have ⟨hn, hlive, hrsp, hop, halpha, hpend, hsource, hsink⟩ := h
  ⟨hn, hlive, hrsp, hop, halpha, hpend, by rw [consume_source, consume_source, hsource], hsink⟩

theorem SameVisible.emit (h : SameVisible s t) (bs : List Byte) : SameVisible (s.emit bs) (t.emit bs) :=
  have ⟨hn, hlive, hrsp, hop, halpha, hpend, hsource, hplan, hout⟩ := h
  ⟨hn, hlive, hrsp, hop, halpha, hpend, hsource, hplan, congrArg (· ++ bs) hout⟩

/-- Slot b, if live, after slot a was written: in slot a what was written, if that is valid. -/
theorem live_setSlot (s : State) (a b : Nat) (x : Slot) :
    (s.setSlot a x).live b = if a = b ∧ a < s.nInst then (if x.valid then some x else none) else s.live b := by
  unfold State.live
  rw [setSlot_getElem?]
  by_cases hwritten : a = b ∧ a < s.slots.length
  · rw [if_pos hwritten]
    exact (if_pos hwritten).symm
  · rw [if_neg hwritten]
    exact (if_neg hwritten).symm

theorem SameVisible.setSlot (h : SameVisible s t) (a : Nat) (x : Slot) : SameVisible (s.setSlot a x) (t.setSlot a x) := by
  obtain ⟨hn, hlive, hrest⟩ := h
  refine ⟨by simpa using hn, fun b => ?_, hrest⟩
  rw [live_setSlot, live_setSlot, hn, hlive]

/-- A reset makes every slot invalid, so only the number of slots counts. -/
theorem SameVisible.resetEngine (h : SameVisible s t) : SameVisible s.resetEngine t.resetEngine := by
  obtain ⟨hn, -, -, hrest⟩ := h
  exact ⟨by simpa using hn, fun a => by rw [resetEngine_live, resetEngine_live], rfl, hrest⟩

/-! ### Outcomes that look the same -/

/-- Two outcomes of which nothing different can be observed: next states that differ at most in slots that are not live, or a
stop for the same reason. -/
inductive SameOutcome : Result → Result → Prop
  | next {s t : State} (h : SameVisible s t) : SameOutcome (.next s) (.next t)
  | fault (f : Fault) : SameOutcome (.fault f) (.fault f)
  | refused (r : Refusal) : SameOutcome (.refused r) (.refused r)

theorem SameOutcome.of_next {r : Result} (h : SameOutcome (.next s) r) : ∃ t, r = .next t ∧ SameVisible s t := by
  cases h with
  | next hvisible => exact ⟨_, rfl, hvisible⟩

theorem SameOutcome.of_fault {f : Fault} {r : Result} (h : SameOutcome (.fault f) r) : r = .fault f := by
  cases h
  rfl

theorem SameVisible.respond (h : SameVisible s t) (v u : Word64) : SameOutcome (respond v u s) (respond v u t) :=
  .next (h.setRsp .ok v u)

theorem SameVisible.raise (h : SameVisible s t) (e : Status) (v u : Word64) : SameOutcome (raise e v u s) (raise e v u t) :=
  .next (h.setRsp e v u)

/-- A command that ends by storing slot a. -/
theorem SameVisible.respond_setSlot (h : SameVisible s t) (a : Nat) (x : Slot) (v u : Word64) :
    SameOutcome (Machine.respond v u (s.setSlot a x)) (Machine.respond v u (t.setSlot a x)) := (h.setSlot a x).respond v u

/-- The slot check hands the commands' bodies live slots only, and these are the same. -/
theorem SameVisible.checkSlot (h : SameVisible s t) (a : Nat) {body body' : Slot → Result}
    (hbody : ∀ x, SameOutcome (body x) (body' x)) : SameOutcome (checkSlot a s body) (checkSlot a t body') := by
  cases hx : s.live a with
  | none =>
    rw [checkSlot_dead hx, checkSlot_dead ((h.live a).trans hx)]
    exact .next (h.setRsp _ _ _)
  | some x =>
    rw [checkSlot_live hx, checkSlot_live ((h.live a).trans hx)]
    exact hbody x

theorem SameVisible.dumpBytes (h : SameVisible s t) (vs : List Byte) (n : Nat) :
    SameOutcome (dumpBytes vs n s) (dumpBytes vs n t) := by
  induction vs generalizing n s t with
  | nil => exact h.respond _ _
  | cons v vs ih =>
    simp only [Machine.dumpBytes, sinkWrite, h.sinkPlan]
    by_cases htakes : s.sinkPlan.takes n = true
    · simp only [if_pos htakes]
      exact ih (h.emit [v]) (n + 1)
    · simp only [if_neg htakes]
      cases s.sinkPlan.ending with
      | fails => exact h.raise _ _ _
      | unanswered => exact .fault _

theorem SameVisible.stageBytes (h : SameVisible s t) (left : Nat) (staged : List Byte) (n : Nat)
    {commit commit' : List Byte → Nat → State → Result}
    (hcommit : ∀ bs k {u w : State}, SameVisible u w → SameOutcome (commit bs k u) (commit' bs k w)) :
    SameOutcome (stageBytes left staged n s commit) (stageBytes left staged n t commit') := by
  induction left generalizing staged n s t with
  | zero => exact hcommit staged n h
  | succ left ih =>
    simp only [Machine.stageBytes, srcRead, h.source]
    cases s.source.bytes with
    | nil =>
      cases s.source.ending with
      | fails => exact h.raise _ _ _
      | unanswered => exact .fault _
    | cons v bytes => exact ih (h.consume 1) (staged ++ [v]) (n + 1)

/-! ### Commands, words and host actions -/

theorem SameVisible.execCreate (h : SameVisible s t) (a p : Nat) : SameOutcome (execCreate a p s) (execCreate a p t) := by
  simp only [Machine.execCreate, checkSlotId, h.nInst, h.freshSlot]
  split_ifs
  · exact h.respond_setSlot _ _ _ _
  · exact h.raise _ _ _
  · exact h.raise _ _ _

theorem SameVisible.execMerge (h : SameVisible s t) (a b : Nat) : SameOutcome (execMerge a b s) (execMerge a b t) := by
  refine h.checkSlot a fun x => h.checkSlot b fun y => ?_
  rw [h.mergeOp]
  split_ifs
  · exact h.raise _ _ _
  · exact h.respond_setSlot _ _ _ _

theorem SameVisible.execRestore (h : SameVisible s t) (a : Nat) : SameOutcome (execRestore a s) (execRestore a t) := by
  refine h.checkSlot a fun _ => ?_
  simp only [srcRead, h.source]
  cases s.source.bytes with
  | nil =>
    cases s.source.ending with
    | fails => exact h.raise _ _ _
    | unanswered => exact .fault _
  | cons q bytes =>
    by_cases hq : validPrecision q.toNat = true
    · simp only [if_pos hq]
      refine (h.consume 1).stageBytes _ _ _ fun bs k u w huw => ?_
      rw [huw.restoredSlot]
      exact huw.respond_setSlot _ _ _ _
    · simp only [if_neg hq]
      exact (h.consume 1).raise _ _ _

/-- Every command looks at slots through the slot check only, and stores what it computed from live slots. -/
theorem SameVisible.exec (h : SameVisible s t) (i : Instr) : SameOutcome (exec i s) (exec i t) := by
  cases i with
  | create a p => exact h.execCreate a p
  | destroy a | clear a | add a _ | protect a _ => exact h.checkSlot a fun _ => h.respond_setSlot _ _ _ _
  | regcount a | estimate a _ => exact h.checkSlot a fun _ => h.respond _ _
  | counter a _ _ =>
    refine h.checkSlot a fun _ => ?_
    split_ifs
    · exact h.raise _ _ _
    · exact h.respond _ _
  | flipbit a _ _ =>
    refine h.checkSlot a fun _ => ?_
    split_ifs
    · exact h.raise _ _ _
    · exact h.respond_setSlot _ _ _ _
  | merge a b => exact h.execMerge a b
  | dump a => exact h.checkSlot a fun x => h.dumpBytes (layout x) 0
  | restore a => exact h.execRestore a

theorem SameVisible.runWord (h : SameVisible s t) (w : Word64) : SameOutcome (runWord w s) (runWord w t) := by
  unfold Machine.runWord
  cases decode w with
  | ok i => exact h.exec i
  | error _ => exact h.raise _ _ _

theorem SameVisible.takeAction (h : SameVisible s t) (action : HostAction) :
    SameOutcome (takeAction action s) (takeAction action t) := by
  cases action with
  | command w => exact h.runWord w
  | bindSource src => exact .next (h.bindSource src)
  | bindSink plan => exact .next (h.bindSink plan)
  | reset => exact .next h.resetEngine

theorem SameVisible.step (h : SameVisible s t) : SameOutcome (step s) (step t) := by
  cases hp : s.pending with
  | nil =>
    rw [step_idle hp, step_idle (h.pending.trans hp)]
    exact .next h
  | cons action rest =>
    rw [step_action hp, step_action (h.pending.trans hp)]
    exact (h.withPending rest).takeAction action

/-- Settles O57: the two steps have the same outcome but for slots that are not live (`SameVisible.step`). -/
theorem invalidSlotsAreUnobservable : Obligations.InvalidSlotsAreUnobservable := fun _ _ h =>
  ⟨fun _ hs => SameOutcome.of_next (hs ▸ h.step), fun _ hs => SameOutcome.of_fault (hs ▸ h.step)⟩

end Sys2Proof.Machine
end
